-- ==== Sys2Proof/Word.lean ====
section
/-! DEFINITION. The word types of the timing-lights CORE (spec/00_scope.md R9, R10, R13). -/

namespace Sys2Proof

/-- A byte: 8 bits, an unsigned value 0 to 255 (R10). -/
abbrev Byte := BitVec 8

/-- A 16-bit pattern. -/
abbrev Word16 := BitVec 16

/-- A 32-bit pattern; read as signed (`toInt`) where a rule types it i32 (R10, R35, R36). -/
abbrev Word32 := BitVec 32

/-- A 64-bit pattern. -/
abbrev Word64 := BitVec 64

/-- A timestamp: an unsigned count of milliseconds of `TIME_W` = 64 bits (R13, R9). -/
abbrev Time := BitVec 64

/-- A 2-bit code of a colour or a detail (R33): 0 Red or None, 1 Amber or AB, 2 Green or CD,
3 unrecognised. -/
abbrev Code := BitVec 2

end Sys2Proof
end

