-- ==== Sys2Proof/Config.lean ====
section
/-! DEFINITION. What an implementation of the block fixes (spec/00_scope.md R9, spec/93_implementation_defined.md
part 2), and the values that the spec leaves free. -/

namespace Sys2Proof

/-- The parameters of 00_scope.md R9. The defaults are the values this hardware takes: `cap`, `capMax` and
`beepMs` are decisions of the spec (D2, D7, D16), the rest is fixed by the source. -/
structure Params where
  /-- `MAGIC_LEN`: number of magic bytes. -/
  magicLen : Nat := 4
  /-- `HDR_LEN`: the magic and the length byte. -/
  hdrLen : Nat := 5
  /-- `CK_LEN`: checksum length in bytes. -/
  ckLen : Nat := 4
  /-- `CMD_WORDS`: 32-bit integers in a command payload. -/
  cmdWords : Nat := 4
  /-- `CMD_FRAME_LEN`: total length of a command frame. -/
  cmdFrameLen : Nat := 25
  /-- `LEN_MAX`: largest value of the length byte. -/
  lenMax : Nat := 255
  /-- `CAP`: capacity of the ByteStream after reset (D2). -/
  cap : Nat := 256
  /-- `CAP_MAX`: size of the byte array, the largest capacity `BS.RESIZE` grants (D7). -/
  capMax : Nat := 256
  /-- `TICK_MS`: countdown period in milliseconds. -/
  tickMs : Nat := 1000
  /-- `BEEP_HALF_MS`: time between two buzzer toggles. -/
  beepHalfMs : Nat := 500
  /-- `BEEP_MS`: schedule time of one beep (D16). -/
  beepMs : Nat := 1000
  /-- `ESTOP_PULSES`: pulses of the emergency-stop alert. -/
  estopPulses : Word32 := 5
  /-- `DIGIT_MAX`: largest value the digits intent carries. -/
  digitMax : Nat := 999
  /-- `TIME_W`: width of a timestamp in bits (D29). -/
  timeW : Nat := 64
  /-- `IDX_W`: width of the ByteStream counters in bits (D2). -/
  idxW : Nat := 16
  deriving DecidableEq, Repr

/-- The parameters of this hardware (R9). -/
def Config.params : Params := {}

/-- `MAGIC`: the four magic bytes in wire order (R82). -/
def Config.magic : List Byte := [0xA4, 0x11, 0xE4, 0xD8]

/-- FREE VALUE (U4; log entry 5). The bytes that become valid without having been written, when `BS.APPEND`
runs with `wi > size` (R112 corner case (c)). No body: nothing can be proved of a value of it. -/
opaque Config.freeByte : Nat → Byte

/-- FREE VALUE (log entry 6). The end time of a buzzer schedule whose exact end does not fit `TIME_W` bits: the
spec states no result there (R214, D29). -/
opaque Config.freeTime : Nat → Time

end Sys2Proof
end

