-- ==== Sys2Proof/Syntax.lean ====
section
/-! DEFINITION. The operations of the timing-lights CORE: one constructor of `Instr` per row of
spec/opcode_table.json (spec/30_encoding.md R80 to R96), and the encoded form in which the environment asks for
them. -/

namespace Sys2Proof

/-- The matchplay-mode input and `S.matchplayMode`: three values (R37, R48, D27). -/
inductive Matchplay where
  /-- no pair -/
  | none
  /-- the A-B pair -/
  | ab
  /-- the C-D pair -/
  | cd
  deriving DecidableEq, Repr

/-- The volume input of `TICK`: three values (R48, D28). -/
inductive Volume where
  | mute
  | quiet
  | loud
  deriving DecidableEq, Repr

/-- A decoded Command: the eleven fields of 43_command_decode.md R187. -/
structure Command where
  timeEnabled : Bool
  colour : Code
  detail : Code
  countdownActive : Bool
  matchplay : Bool
  emergencyStop : Bool
  lastEnd : Bool
  countdownContinues : Bool
  time : Word32
  startBeeps : Word32
  endBeeps : Word32
  deriving DecidableEq, Repr

/-- A frame after its magic (30_encoding.md R81): the length byte and the bytes that follow it. A frame whose
length byte is `L` has `L - 5` bytes after the header (R85); with `L < 5` it has none (R156). -/
structure Frame where
  /-- `frameLen`, byte 4 of the frame (R83). -/
  len : Byte
  /-- Bytes 5 to `L - 1`: checksum, control word, three integers, extra bytes, as far as `L` goes. -/
  rest : List Byte
  deriving DecidableEq, Repr

/-- The five classes a Command is dispatched into (30_encoding.md R88), in the order they are tested. -/
inductive CmdClass where
  | reject
  | estop
  | start
  | stop
  | update
  deriving DecidableEq, Repr

/-- An operation, one constructor per row of spec/opcode_table.json. -/
inductive Instr where
  /-- `RESET`, opsel 0x00 (R253). -/
  | reset
  /-- `SAMPLE`, opsel 0x01 (R250). -/
  | sample (mp : Matchplay)
  /-- `RX`, opsel 0x02 (R150). -/
  | rx (b : Byte) (now : Time)
  /-- `TICK`, opsel 0x03 (R230). -/
  | tick (now : Time) (vol : Volume)
  /-- `FLUSH`, opsel 0x04 (R252). -/
  | flush
  /-- `SYNC`, opsel 0x10 (R152). -/
  | sync
  /-- `VALIDATE`, opsel 0x11 (R170). -/
  | validate (now : Time)
  /-- `DECODE`, opsel 0x12 (R185). -/
  | decode
  /-- `APPLY`, opsel 0x13 (R200). -/
  | apply (c : Command) (now : Time)
  /-- `BS.APPEND`, opsel 0x20 (R112). -/
  | bsAppend (b : Byte)
  /-- `BS.PEEK`, opsel 0x21 (R113). -/
  | bsPeek (off : Word16)
  /-- `BS.CONSUME`, opsel 0x22 (R114). -/
  | bsConsume
  /-- `BS.RDU16`, opsel 0x23 (R115). -/
  | bsRdu16
  /-- `BS.RDU32`, opsel 0x24 (R116). -/
  | bsRdu32
  /-- `BS.RDU64`, opsel 0x25 (R117). -/
  | bsRdu64
  /-- `BS.RDI16`, opsel 0x26 (R118). -/
  | bsRdi16
  /-- `BS.RDI32`, opsel 0x27 (R119). -/
  | bsRdi32
  /-- `BS.RDI64`, opsel 0x28 (R120). -/
  | bsRdi64
  /-- `BS.RDF32`, opsel 0x29 (R121). -/
  | bsRdf32
  /-- `BS.RDF64`, opsel 0x2A (R122). -/
  | bsRdf64
  /-- `BS.WRU16`, opsel 0x2B (R123). -/
  | bsWru16 (v : Word16)
  /-- `BS.WRU32`, opsel 0x2C (R124). -/
  | bsWru32 (v : Word32)
  /-- `BS.WRU64`, opsel 0x2D (R125). -/
  | bsWru64 (v : Word64)
  /-- `BS.WRI16`, opsel 0x2E (R126): `v` is read as signed. -/
  | bsWri16 (v : Word16)
  /-- `BS.WRI32`, opsel 0x2F (R127): `v` is read as signed. -/
  | bsWri32 (v : Word32)
  /-- `BS.WRI64`, opsel 0x30 (R128): `v` is read as signed. -/
  | bsWri64 (v : Word64)
  /-- `BS.WRF32`, opsel 0x31 (R129): a bit pattern. -/
  | bsWrf32 (v : Word32)
  /-- `BS.WRF64`, opsel 0x32 (R130): a bit pattern. -/
  | bsWrf64 (v : Word64)
  /-- `BS.RESIZE`, opsel 0x33 (R131): the operand is read as signed. -/
  | bsResize (newCapacity : Word32)
  /-- `BS.SETRI`, opsel 0x34 (R132): the operand is read as signed. -/
  | bsSetri (i : Word32)
  /-- `BS.SETWI`, opsel 0x35 (R133): the operand is read as signed. -/
  | bsSetwi (i : Word32)
  /-- `BS.CLEAR`, opsel 0x36 (R134). -/
  | bsClear
  /-- `BS.COMPACT`, opsel 0x37 (R135). -/
  | bsCompact
  /-- `F`, a whole frame on the wire (R81), received byte by byte at one timestamp (R98). -/
  | frame (f : Frame) (now : Time)
  /-- `CW`, a control word with its three integers (R86, R87). -/
  | controlWord (cw time startBeeps endBeeps : Word32) (now : Time)
  /-- `CMD.REJECT` (R201). -/
  | cmdReject (c : Command) (now : Time)
  /-- `CMD.ESTOP` (R203). -/
  | cmdEstop (c : Command) (now : Time)
  /-- `CMD.START` (R209). -/
  | cmdStart (c : Command) (now : Time)
  /-- `CMD.STOP` (R210). -/
  | cmdStop (c : Command) (now : Time)
  /-- `CMD.UPDATE` (R211). -/
  | cmdUpdate (c : Command) (now : Time)
  deriving DecidableEq, Repr

/-- The code space an encoded request is read in: the "format" column of spec/opcode_table.json. A control word
of a `CMD.*` row does not tell its class by itself (R88), so a request for a class names it. -/
inductive Format where
  /-- OPSEL: an operation-select byte, then the arguments (R94 to R96; log entry 2). -/
  | opsel
  /-- FRAME: the bytes of a frame (R81), then the timestamp. -/
  | frame
  /-- CONTROLWORD: the payload of a command frame (R86, R87), then the timestamp. -/
  | controlWord
  /-- CW: the same, asked for as one of the five classes (R88). -/
  | command (cls : CmdClass)
  deriving DecidableEq, Repr

/-- One operation the environment asks for, encoded (log entries 1, 2). -/
structure Request where
  format : Format
  bytes : List Byte
  deriving DecidableEq, Repr

end Sys2Proof
end

