-- ==== Sys2Proof/WellFormed.lean ====
section
/-! DEFINITION. When an operation is one the spec's encodings can express (spec/30_encoding.md R81, R85, R88). -/

namespace Sys2Proof

/-- A frame has exactly `L - 5` bytes after its header, none when `L < 5` (R85, R156). -/
def Frame.lengthOk (f : Frame) : Bool := f.rest.length == f.len.toNat - Config.params.hdrLen

/-- What a control word alone says of its class, the mask and match of 30_encoding.md R88. -/
def Command.fits (c : Command) : CmdClass → Bool
  | .reject => c.matchplay
  | .estop => c.emergencyStop
  | .start => !c.emergencyStop && c.countdownActive
  | .stop => !c.emergencyStop && !c.countdownActive
  | .update => !c.emergencyStop

/-- The static check of an operation: a frame is as long as it says, a command class has the control-word bits of
its row; every other operand has a type that admits only what the spec admits. -/
def Instr.wf : Instr → Bool
  | .frame f _ => f.lengthOk
  | .cmdReject c _ => c.fits .reject
  | .cmdEstop c _ => c.fits .estop
  | .cmdStart c _ => c.fits .start
  | .cmdStop c _ => c.fits .stop
  | .cmdUpdate c _ => c.fits .update
  | .reset | .sample _ | .rx _ _ | .tick _ _ | .flush => true
  | .sync | .validate _ | .decode | .apply _ _ => true
  | .bsAppend _ | .bsPeek _ | .bsConsume => true
  | .bsRdu16 | .bsRdu32 | .bsRdu64 | .bsRdi16 | .bsRdi32 | .bsRdi64 | .bsRdf32 | .bsRdf64 => true
  | .bsWru16 _ | .bsWru32 _ | .bsWru64 _ | .bsWri16 _ | .bsWri32 _ | .bsWri64 _ | .bsWrf32 _ | .bsWrf64 _ => true
  | .bsResize _ | .bsSetri _ | .bsSetwi _ | .bsClear | .bsCompact => true
  | .controlWord _ _ _ _ _ => true

end Sys2Proof
end

