-- ==== Sys2Proof/Decode.lean ====
section
/-! DEFINITION. The decoder and the encoder: between a request's bytes and an operation (spec/30_encoding.md), and
between a control word and a Command (R86, R87). The order of argument bytes after an opsel is the model's (log
entry 2); opsel numbers, frame layout and control-word layout are the spec's. -/

namespace Sys2Proof

/-! ## Bytes and words: big-endian, most significant byte first (20_memory.md R64) -/

/-- The last `n` bytes of `v` written big-endian: the byte of weight `256 ^ (n - 1)` first. -/
def beBytes : Nat → Nat → List Byte
  | 0, _ => []
  | n + 1, v => BitVec.ofNat 8 (v / 256 ^ n) :: beBytes n v

/-- Reads `n` bytes big-endian after the value `acc` already read; `none` if there are fewer. -/
def takeBE : Nat → Nat → List Byte → Option (Nat × List Byte)
  | 0, acc, bs => some (acc, bs)
  | _ + 1, _, [] => none
  | n + 1, acc, b :: bs => takeBE n (acc * 256 + b.toNat) bs

/-- The first `n` bytes and the others; `none` if there are fewer. -/
def takeBytes : Nat → List Byte → Option (List Byte × List Byte)
  | 0, bs => some ([], bs)
  | _ + 1, [] => none
  | n + 1, b :: bs =>
    match takeBytes n bs with
    | some (xs, rest) => some (b :: xs, rest)
    | none => none

/-! ## The control word (R86, R187) -/

/-- The Command of a control word and three integers: the bit table of 30_encoding.md R86. Bits 31:10 enter no
field (R93, R188); code 3 is delivered unchanged (R189). -/
def Command.ofWords (cw time startBeeps endBeeps : Word32) : Command where
  timeEnabled := cw.getLsbD 0
  colour := cw.extractLsb' 1 2
  detail := cw.extractLsb' 3 2
  countdownActive := cw.getLsbD 5
  matchplay := cw.getLsbD 6
  emergencyStop := cw.getLsbD 7
  lastEnd := cw.getLsbD 8
  countdownContinues := cw.getLsbD 9
  time := time
  startBeeps := startBeeps
  endBeeps := endBeeps

/-- The control word a sender sends for a Command: the bits of R86, bits 31:10 zero (R93). -/
def Command.controlWord (c : Command) : Word32 :=
  (0 : BitVec 22) ++ BitVec.ofBool c.countdownContinues ++ BitVec.ofBool c.lastEnd ++
    BitVec.ofBool c.emergencyStop ++ BitVec.ofBool c.matchplay ++ BitVec.ofBool c.countdownActive ++
    c.detail ++ c.colour ++ BitVec.ofBool c.timeEnabled

/-- The payload of a command frame: control word, time, startBeeps, endBeeps, each big-endian (R80, R186). -/
def Command.payload (c : Command) : List Byte :=
  beBytes 4 c.controlWord.toNat ++ beBytes 4 c.time.toNat ++ beBytes 4 c.startBeeps.toNat ++
    beBytes 4 c.endBeeps.toNat

/-- All bytes of a frame, in wire order (R81). -/
def Frame.bytes (f : Frame) : List Byte := Config.magic ++ f.len :: f.rest

/-! ## Input codes (the coding of 60_exceptions.md R290, R37) -/

/-- The code of a matchplay mode, as `S.detail` is coded (R37). -/
def Matchplay.code : Matchplay → Code
  | .none => 0
  | .ab => 1
  | .cd => 2

/-- The matchplay mode of an input code; code 3 is outside the model (U6). -/
def Matchplay.ofByte (b : Byte) : Option Matchplay :=
  match b.toNat with
  | 0 => some .none
  | 1 => some .ab
  | 2 => some .cd
  | _ => Option.none

/-- The code of a volume input (R290). -/
def Volume.code : Volume → Code
  | .mute => 0
  | .quiet => 1
  | .loud => 2

/-- The volume of an input code; code 3 is outside the model (U6). -/
def Volume.ofByte (b : Byte) : Option Volume :=
  match b.toNat with
  | 0 => some .mute
  | 1 => some .quiet
  | 2 => some .loud
  | _ => none

/-! ## The decoder -/

/-- Why a request encodes no operation. -/
inductive DecodeError where
  /-- The operation-select byte is none of R94 to R96. -/
  | unknownOpsel (op : Byte)
  /-- The request ends before the operation's last argument byte. -/
  | truncated
  /-- A byte after the operation's last argument is not zero. -/
  | trailing
  /-- A matchplay-mode or volume code outside the three values (U6). -/
  | badInputCode (code : Byte)
  /-- The first four bytes of a frame are not the magic (R82). -/
  | badMagic
  /-- The control word lacks the bits of the class asked for (R88). -/
  | wrongClass (cls : CmdClass)
  deriving DecidableEq, Repr

/-- One argument of `n` bytes, as a word of `w` bits, and the bytes after it. -/
def takeWord (w n : Nat) (bs : List Byte) : Except DecodeError (BitVec w × List Byte) :=
  match takeBE n 0 bs with
  | some (v, rest) => .ok (BitVec.ofNat w v, rest)
  | none => .error .truncated

/-- The last argument of an operation: what follows it must be zero. -/
def finish (i : Instr) (rest : List Byte) : Except DecodeError Instr :=
  if rest.all (· == 0) then .ok i else .error .trailing

/-- An operation with one argument of `n` bytes. -/
def decodeArg (w n : Nat) (mk : BitVec w → Instr) (bs : List Byte) : Except DecodeError Instr :=
  match takeWord w n bs with
  | .ok (v, rest) => finish (mk v) rest
  | .error e => .error e

/-- The payload of a command frame and the timestamp (R87, R186). -/
def decodePayload (mk : Word32 → Word32 → Word32 → Word32 → Time → Except DecodeError Instr)
    (bs : List Byte) : Except DecodeError Instr :=
  match takeWord 32 4 bs with
  | .error e => .error e
  | .ok (cw, bs) =>
    match takeWord 32 4 bs with
    | .error e => .error e
    | .ok (t, bs) =>
      match takeWord 32 4 bs with
      | .error e => .error e
      | .ok (sb, bs) =>
        match takeWord 32 4 bs with
        | .error e => .error e
        | .ok (eb, bs) =>
          match takeWord 64 8 bs with
          | .error e => .error e
          | .ok (now, bs) =>
            match mk cw t sb eb now with
            | .error e => .error e
            | .ok i => finish i bs

/-- `SAMPLE`'s argument: one byte, the matchplay-mode code. -/
def decodeSample : List Byte → Except DecodeError Instr
  | [] => .error .truncated
  | b :: bs =>
    match Matchplay.ofByte b with
    | some mp => finish (.sample mp) bs
    | none => .error (.badInputCode b)

/-- `RX`'s arguments: the byte, then the timestamp. -/
def decodeRx : List Byte → Except DecodeError Instr
  | [] => .error .truncated
  | b :: bs => decodeArg 64 8 (.rx b) bs

/-- `TICK`'s arguments: the timestamp, then the volume code. -/
def decodeTick (bs : List Byte) : Except DecodeError Instr :=
  match takeWord 64 8 bs with
  | .error e => .error e
  | .ok (_, []) => .error .truncated
  | .ok (now, v :: bs) =>
    match Volume.ofByte v with
    | some vol => finish (.tick now vol) bs
    | none => .error (.badInputCode v)

/-- The code space `opsel` (R94, R95, R96). -/
def decodeOpsel : List Byte → Except DecodeError Instr
  | [] => .error .truncated
  | op :: bs =>
    match op.toNat with
    | 0x00 => finish .reset bs
    | 0x01 => decodeSample bs
    | 0x02 => decodeRx bs
    | 0x03 => decodeTick bs
    | 0x04 => finish .flush bs
    | 0x10 => finish .sync bs
    | 0x11 => decodeArg 64 8 .validate bs
    | 0x12 => finish .decode bs
    | 0x13 => decodePayload (fun cw t sb eb now => .ok (.apply (Command.ofWords cw t sb eb) now)) bs
    | 0x20 => decodeArg 8 1 .bsAppend bs
    | 0x21 => decodeArg 16 2 .bsPeek bs
    | 0x22 => finish .bsConsume bs
    | 0x23 => finish .bsRdu16 bs
    | 0x24 => finish .bsRdu32 bs
    | 0x25 => finish .bsRdu64 bs
    | 0x26 => finish .bsRdi16 bs
    | 0x27 => finish .bsRdi32 bs
    | 0x28 => finish .bsRdi64 bs
    | 0x29 => finish .bsRdf32 bs
    | 0x2A => finish .bsRdf64 bs
    | 0x2B => decodeArg 16 2 .bsWru16 bs
    | 0x2C => decodeArg 32 4 .bsWru32 bs
    | 0x2D => decodeArg 64 8 .bsWru64 bs
    | 0x2E => decodeArg 16 2 .bsWri16 bs
    | 0x2F => decodeArg 32 4 .bsWri32 bs
    | 0x30 => decodeArg 64 8 .bsWri64 bs
    | 0x31 => decodeArg 32 4 .bsWrf32 bs
    | 0x32 => decodeArg 64 8 .bsWrf64 bs
    | 0x33 => decodeArg 32 4 .bsResize bs
    | 0x34 => decodeArg 32 4 .bsSetri bs
    | 0x35 => decodeArg 32 4 .bsSetwi bs
    | 0x36 => finish .bsClear bs
    | 0x37 => finish .bsCompact bs
    | _ => .error (.unknownOpsel op)

/-- The code space of frames: magic, length byte, the `L - 5` bytes after the header (R81, R85), the timestamp. -/
def decodeFrame (bs : List Byte) : Except DecodeError Instr :=
  match takeBytes 4 bs with
  | none => .error .truncated
  | some (magic, bs) =>
    if magic = Config.magic then
      match bs with
      | [] => .error .truncated
      | len :: bs =>
        match takeBytes (len.toNat - Config.params.hdrLen) bs with
        | none => .error .truncated
        | some (rest, bs) => decodeArg 64 8 (.frame ⟨len, rest⟩) bs
    else .error .badMagic

/-- The operation of a class of R88. -/
def CmdClass.instr (cls : CmdClass) (c : Command) (now : Time) : Instr :=
  match cls with
  | .reject => .cmdReject c now
  | .estop => .cmdEstop c now
  | .start => .cmdStart c now
  | .stop => .cmdStop c now
  | .update => .cmdUpdate c now

/-- A request for one class: the control word must have the bits of the class (R88). -/
def decodeCommand (cls : CmdClass) (bs : List Byte) : Except DecodeError Instr :=
  decodePayload (fun cw t sb eb now =>
    let c := Command.ofWords cw t sb eb
    if c.fits cls then .ok (cls.instr c now) else .error (.wrongClass cls)) bs

/-- The decoder: total on any request, rejecting by name. -/
def decode (r : Request) : Except DecodeError Instr :=
  match r.format with
  | .opsel => decodeOpsel r.bytes
  | .frame => decodeFrame r.bytes
  | .controlWord => decodePayload (fun cw t sb eb now => .ok (.controlWord cw t sb eb now)) r.bytes
  | .command cls => decodeCommand cls r.bytes

/-! ## The encoder -/

/-- A request in the opsel code space. -/
def opselRequest (op : Byte) (args : List Byte) : Request := ⟨.opsel, op :: args⟩

/-- A Command and its timestamp as argument bytes. -/
def Command.args (c : Command) (now : Time) : List Byte := c.payload ++ beBytes 8 now.toNat

/-- The encoder: the request of an operation, from the same tables of 30_encoding.md. -/
def encode : Instr → Request
  | .reset => opselRequest 0x00 []
  | .sample mp => opselRequest 0x01 [mp.code.setWidth 8]
  | .rx b now => opselRequest 0x02 (b :: beBytes 8 now.toNat)
  | .tick now vol => opselRequest 0x03 (beBytes 8 now.toNat ++ [vol.code.setWidth 8])
  | .flush => opselRequest 0x04 []
  | .sync => opselRequest 0x10 []
  | .validate now => opselRequest 0x11 (beBytes 8 now.toNat)
  | .decode => opselRequest 0x12 []
  | .apply c now => opselRequest 0x13 (c.args now)
  | .bsAppend b => opselRequest 0x20 [b]
  | .bsPeek off => opselRequest 0x21 (beBytes 2 off.toNat)
  | .bsConsume => opselRequest 0x22 []
  | .bsRdu16 => opselRequest 0x23 []
  | .bsRdu32 => opselRequest 0x24 []
  | .bsRdu64 => opselRequest 0x25 []
  | .bsRdi16 => opselRequest 0x26 []
  | .bsRdi32 => opselRequest 0x27 []
  | .bsRdi64 => opselRequest 0x28 []
  | .bsRdf32 => opselRequest 0x29 []
  | .bsRdf64 => opselRequest 0x2A []
  | .bsWru16 v => opselRequest 0x2B (beBytes 2 v.toNat)
  | .bsWru32 v => opselRequest 0x2C (beBytes 4 v.toNat)
  | .bsWru64 v => opselRequest 0x2D (beBytes 8 v.toNat)
  | .bsWri16 v => opselRequest 0x2E (beBytes 2 v.toNat)
  | .bsWri32 v => opselRequest 0x2F (beBytes 4 v.toNat)
  | .bsWri64 v => opselRequest 0x30 (beBytes 8 v.toNat)
  | .bsWrf32 v => opselRequest 0x31 (beBytes 4 v.toNat)
  | .bsWrf64 v => opselRequest 0x32 (beBytes 8 v.toNat)
  | .bsResize n => opselRequest 0x33 (beBytes 4 n.toNat)
  | .bsSetri i => opselRequest 0x34 (beBytes 4 i.toNat)
  | .bsSetwi i => opselRequest 0x35 (beBytes 4 i.toNat)
  | .bsClear => opselRequest 0x36 []
  | .bsCompact => opselRequest 0x37 []
  | .frame f now => ⟨.frame, f.bytes ++ beBytes 8 now.toNat⟩
  | .controlWord cw t sb eb now =>
    ⟨.controlWord, beBytes 4 cw.toNat ++ beBytes 4 t.toNat ++ beBytes 4 sb.toNat ++ beBytes 4 eb.toNat ++
      beBytes 8 now.toNat⟩
  | .cmdReject c now => ⟨.command .reject, c.args now⟩
  | .cmdEstop c now => ⟨.command .estop, c.args now⟩
  | .cmdStart c now => ⟨.command .start, c.args now⟩
  | .cmdStop c now => ⟨.command .stop, c.args now⟩
  | .cmdUpdate c now => ⟨.command .update, c.args now⟩

/-! ## The opcode table's own words (log entry 2) -/

/-- Zero bytes after a word of the table: as many as the longest request with zero operands has (`APPLY`: the
operation-select byte, four words, the timestamp). A frame's length byte is zero then, so it takes fewer. -/
def zeroOperands : Nat := 25

/-- The first class, in the order of R88, whose mask and match the control word meets. -/
def classOfWord (cw : Word32) : CmdClass :=
  if cw &&& 0x40 = 0x40 then .reject
  else if cw &&& 0x80 = 0x80 then .estop
  else if cw &&& 0xA0 = 0x20 then .start
  else .stop

/-- The request a word of spec/opcode_table.json stands for. The table's rows have 8 bits (OPSEL), 32 bits (F and
the `CMD.*` rows, one big-endian 32-bit word) or none (CW, which fixes no bit). A byte from 0x40 on is no opsel: it
is the low byte of a control word whose other bits are zero. Every bit above the word is zero. -/
def tableRequest (nbits w : Nat) : Request :=
  let pad := List.replicate zeroOperands (0 : Byte)
  if nbits = 0 then ⟨.controlWord, beBytes 4 w ++ pad⟩
  else if nbits ≤ 8 ∧ w < 0x40 then ⟨.opsel, beBytes 1 w ++ pad⟩
  else if w = 0xA411E4D8 then ⟨.frame, beBytes 4 w ++ pad⟩
  else ⟨.command (classOfWord (BitVec.ofNat 32 w)), beBytes 4 w ++ pad⟩

/-- The operation the decoder reads from a word of the opcode table. -/
def decodeTableWord (nbits w : Nat) : Option Instr :=
  match decode (tableRequest nbits w) with
  | .ok i => some i
  | .error _ => none

end Sys2Proof
end

