-- ==== Sys2Proof/Machine/State.lean ====
section
/-! DEFINITION. The state of the timing-lights CORE (spec/10_state.md), the reasons a step can stop, and the machine
right after reset (R50). -/

namespace Sys2Proof.Machine

/-- The byte array as (address, byte) pairs, addresses strictly rising, no entry equal to what an unlisted address
holds (`Memory.wf`, `Memory.unlisted`). -/
abbrev Memory := List Host.Cell

/-- The ByteStream `BS` (R21 to R25). The counters have `IDX_W` bits; their arithmetic is on naturals (R110). -/
structure ByteStream where
  /-- `BS.mem`, the array of `CAP_MAX` bytes (R21). -/
  mem : Memory
  /-- `BS.capacity` (R22). -/
  capacity : Nat
  /-- `BS.size`, the count of valid bytes (R23). -/
  size : Nat
  /-- `BS.ri`, the reader index (R24). -/
  ri : Nat
  /-- `BS.wi`, the writer index (R24). -/
  wi : Nat
  deriving DecidableEq, Repr

/-- The display mode (R29). -/
inductive Mode where
  | blank
  | idle
  | counting
  deriving DecidableEq, Repr

/-- The DeviceState `S` (R28 to R38, R40). -/
structure DeviceState where
  /-- `S.mode` (R29). -/
  mode : Mode
  /-- `S.countdownContinues` (R30). -/
  countdownContinues : Bool
  /-- `S.lastEnd` (R31). -/
  lastEnd : Bool
  /-- `S.countdown` (R32). -/
  countdown : Bool
  /-- `S.detail`, the raw code (R33). -/
  detail : Code
  /-- `S.colour`, the raw code (R33). -/
  colour : Code
  /-- `S.timeEnabled` (R34). -/
  timeEnabled : Bool
  /-- `S.time`, signed seconds (R35). -/
  time : Word32
  /-- `S.startNumBeeps`, signed (R36). -/
  startNumBeeps : Word32
  /-- `S.endNumBeeps`, signed (R36). -/
  endNumBeeps : Word32
  /-- `S.matchplayMode` (R37). -/
  matchplayMode : Matchplay
  /-- `S.lastTickTime`, the countdown anchor (R40). -/
  lastTickTime : Time
  deriving DecidableEq, Repr

/-- The buzzer schedule `bz` (R39). -/
structure Buzzer where
  active : Bool
  startTime : Time
  endTime : Time
  deriving DecidableEq, Repr

/-- The digits intent: blank, or a number of ten bits (R44). -/
inductive Digits where
  | blank
  | value (n : BitVec 10)
  deriving DecidableEq, Repr

/-- The tone intent (R46). -/
inductive Tone where
  | off
  | quiet
  | loud
  deriving DecidableEq, Repr

/-- The output registers `O` (R43 to R47). -/
structure Outputs where
  /-- `O.ind` (R43). -/
  ind : Code
  /-- `O.det` (R44). -/
  det : Code
  /-- `O.dig` (R44). -/
  dig : Digits
  /-- `O.tone` (R46). -/
  tone : Tone
  /-- `O.dirty` (R45). -/
  dirty : Bool
  deriving DecidableEq, Repr

/-- The event labels of 60_exceptions.md R270. -/
inductive Event where
  | framingNoise
  | checksumFail
  | semanticReject
  | bufferOverflow
  | allocFail
  | headerLock
  | frameOk
  | cmdEstop
  | cmdStart
  | cmdStop
  | cmdUpdate
  | countdownDec
  | countdownEnd
  | countdownEndContinue
  | buzzerEnd
  | flush
  deriving DecidableEq, Repr

/-- The status `BS.RESIZE` returns (R131). -/
inductive Status where
  | ok
  | allocFail
  deriving DecidableEq, Repr

/-- The result an operation returns to its caller (R113 to R122, R131, R185). -/
inductive Result where
  /-- The operation returns nothing. -/
  | nothing
  /-- A byte (R113, R114). -/
  | byte (v : Byte)
  /-- An unsigned 16-bit value (R115). -/
  | u16 (v : Word16)
  /-- An unsigned 32-bit value (R116). -/
  | u32 (v : Word32)
  /-- An unsigned 64-bit value (R117). -/
  | u64 (v : Word64)
  /-- A signed value read from 16, 32 or 64 bits (R118 to R120). -/
  | signed (v : Int)
  /-- A 32-bit floating-point pattern (R121). -/
  | f32 (v : Word32)
  /-- A 64-bit floating-point pattern (R122). -/
  | f64 (v : Word64)
  /-- A status (R131). -/
  | status (v : Status)
  /-- A decoded Command (R185). -/
  | command (c : Command)
  deriving DecidableEq, Repr

/-- What the display driver takes at a flush (R47). -/
structure Shown where
  ind : Code
  det : Code
  dig : Digits
  deriving DecidableEq, Repr

/-- One iteration of the control loop (R251), by the inputs it meets (R48): what the switches and the transport hold
when the loop comes to them. The order in which the loop uses them is `Pass.ops`. -/
structure Pass where
  /-- The matchplay-mode input that `SAMPLE` reads. -/
  mp : Matchplay
  /-- The bytes the transport has ready, in the order the link delivered them, each with the `now` of its `RX`; any
  number of them, zero included (D34). -/
  rx : List (Byte × Time)
  /-- The `now` of the pass's `TICK`. -/
  now : Time
  /-- The volume input of the pass's `TICK`. -/
  vol : Volume
  deriving DecidableEq, Repr

/-- The MODEL's own fields: what stands outside the block, or leaves it without being a register (log entries 1, 5,
7, 8). No rule of the spec reads them. -/
structure Io where
  /-- The operations to run next, oldest first: those of the pass under way, and those the environment asks for by
  themselves (log entry 1). -/
  input : List Request
  /-- The passes the control loop has still to make, oldest first, by the inputs each will meet (R251; log entry
  1). -/
  passes : List Pass
  /-- The event labels of the operation last run (R270; log entry 8). -/
  trace : List Event
  /-- The result of the operation last run (log entry 8). -/
  result : Result
  /-- The flush pulse of the operation last run (R47; log entry 8). -/
  flushed : Option Shown
  /-- The largest timestamp given since reset (R13, U2; log entry 7). -/
  clock : Time
  /-- How many free values have been taken (log entries 5, 6). -/
  freeNext : Nat
  deriving DecidableEq, Repr

/-- The machine's state: what 10_state.md R20 lists, and the model's own `io`. -/
structure State where
  /-- The ByteStream. -/
  bs : ByteStream
  /-- `expected`, the frame-length register (R26). -/
  expected : Option Byte
  /-- The DeviceState `S`. -/
  dev : DeviceState
  /-- The buzzer schedule `bz`. -/
  bz : Buzzer
  /-- The output registers `O`. -/
  out : Outputs
  /-- The model's own fields. -/
  io : Io
  deriving DecidableEq, Repr

/-- Why the machine stops with a fault. The hardware has none (R270). -/
inductive Fault where
  /-- Raised by an operation that accesses the byte array, in a state whose `size` or `capacity` is above `CAP_MAX`:
  indices beyond the array do not exist (R60). Safe: no state reached from reset is such a state (R25; log entry
  12). -/
  | outsideArray
  deriving DecidableEq, Repr

/-- Why the machine refuses to go on. -/
inductive Refusal where
  /-- Raised by `exec` for an instruction that has no meaning yet. Safe: the run stops. -/
  | notModelled (mnemonic : String)
  /-- Raised by an operation whose timestamp is below an earlier one: U2 of 93_implementation_defined.md says
  "refuse". Safe: the run stops where the spec says nothing (log entry 7). -/
  | clockRanBackward
  /-- Raised by `step` for a request that encodes no operation, an input code outside the three values of U6
  among them. Safe: the run stops (log entries 2, 14). -/
  | undecodable (e : DecodeError)
  deriving DecidableEq, Repr

/-- The ByteStream after reset (R50). The bytes are unspecified there: no byte is listed (log entry 4). -/
def ByteStream.reset : ByteStream where
  mem := []
  capacity := Config.params.cap
  size := 0
  ri := 0
  wi := 0

/-- The DeviceState after reset (R50). -/
def DeviceState.reset : DeviceState where
  mode := .blank
  countdownContinues := false
  lastEnd := false
  countdown := false
  detail := 0
  colour := 0
  timeEnabled := false
  time := 0
  startNumBeeps := 0
  endNumBeeps := 0
  matchplayMode := .none
  lastTickTime := 0

/-- The buzzer schedule after reset (R50). -/
def Buzzer.reset : Buzzer where
  active := false
  startTime := 0
  endTime := 0

/-- The output registers after reset (R50): the Blank display, not yet flushed. -/
def Outputs.reset : Outputs where
  ind := 0
  det := 0
  dig := .blank
  tone := .off
  dirty := true

/-- The model's own fields after reset (log entries 1, 5, 7, 8). -/
def Io.reset : Io where
  input := []
  passes := []
  trace := []
  result := .nothing
  flushed := none
  clock := 0
  freeNext := 0

/-- The machine right after reset (R50, R300). -/
def State.reset : State where
  bs := ByteStream.reset
  expected := none
  dev := DeviceState.reset
  bz := Buzzer.reset
  out := Outputs.reset
  io := Io.reset

end Sys2Proof.Machine
end

