-- ==== Sys2Proof/Machine/Memory.lean ====
section
/-! DEFINITION. The byte array of the ByteStream (spec/20_memory.md): reading, writing and moving bytes. -/

namespace Sys2Proof.Machine

/-- What an address that is not listed holds. The spec leaves the bytes after reset unspecified and lets no rule read
them (R50, U1): DESIGN CHOICE, log entry 4. -/
def Memory.unlisted : Byte := 0

/-- `MemRead(a, 1)` (R11): the byte of the array at `a`. -/
def Memory.read (m : Memory) (a : Nat) : Byte :=
  match m with
  | [] => Memory.unlisted
  | (k, v) :: rest => if k = a then v else Memory.read rest a

/-- Puts the cell `(a, v)` in front, unless an unlisted address holds `v` anyway. -/
def Memory.consCell (a : Nat) (v : Byte) (rest : Memory) : Memory :=
  if v = Memory.unlisted then rest else (a, v) :: rest

/-- `MemWrite(a, 1, v)` (R11), keeping the canonical form. -/
def Memory.write (m : Memory) (a : Nat) (v : Byte) : Memory :=
  match m with
  | [] => Memory.consCell a v []
  | (k, w) :: rest =>
    if a < k then Memory.consCell a v ((k, w) :: rest)
    else if a = k then Memory.consCell a v rest
    else (k, w) :: Memory.write rest a v

/-- Every listed address is above `lo` and no listed byte is the unlisted one. -/
def Memory.wfAbove (lo : Nat) (m : Memory) : Bool :=
  match m with
  | [] => true
  | (k, v) :: rest => decide (lo ≤ k) && decide (v ≠ Memory.unlisted) && Memory.wfAbove (k + 1) rest

/-- The canonical form: addresses strictly rising, no entry equal to what an unlisted address holds. -/
def Memory.wf (m : Memory) : Bool := Memory.wfAbove 0 m

/-- The loop of `BS.COMPACT` (R135): `n` bytes from `src` on to `dst` on, in ascending order. -/
def Memory.copyDown (m : Memory) (src dst : Nat) : Nat → Memory
  | 0 => m
  | n + 1 => Memory.copyDown (m.write dst (m.read src)) (src + 1) (dst + 1) n

/-- Gives `n` bytes from `a` on free values, the first of them the `k`-th (U4; log entry 5). -/
def Memory.fillFree (m : Memory) (k a : Nat) : Nat → Memory
  | 0 => m
  | n + 1 => Memory.fillFree (m.write a (Config.freeByte k)) (k + 1) (a + 1) n

end Sys2Proof.Machine
end

