-- ==== Sys2Proof/Machine/Operands.lean ====
section
/-! DEFINITION. The values an operation computes from its operands and from single fields of the state: reads of the
ByteStream (spec/20_memory.md, spec/40_bytestream_ops.md), signed reading, clamps, digits, tones, buzzer phases. -/

namespace Sys2Proof.Machine

/-! ## Reading the ByteStream (R62, R113 to R122) -/

/-- The byte read at position `p`: the array's byte when it is valid, the defined value zero beyond `size` (R62). -/
def ByteStream.readAt (bs : ByteStream) (p : Nat) : Byte :=
  if p < bs.size then bs.mem.read p else 0

/-- `BS.PEEK(off)` (R113). -/
def ByteStream.peek (bs : ByteStream) (off : Nat) : Byte := bs.readAt (bs.ri + off)

/-- The byte `BS.CONSUME()` returns and the cursors it leaves (R114). -/
def ByteStream.consume (bs : ByteStream) : Byte × ByteStream :=
  if bs.ri < bs.size then (bs.mem.read bs.ri, { bs with ri := bs.ri + 1 }) else (0, bs)

/-- `n` successive `BS.CONSUME()`, most significant byte first, after the value `acc` (R115 to R117). -/
def ByteStream.consumeBE : Nat → Nat → ByteStream → Nat × ByteStream
  | 0, acc, bs => (acc, bs)
  | n + 1, acc, bs => ByteStream.consumeBE n (acc * 256 + bs.consume.1.toNat) bs.consume.2

/-- `BS.RDU16` (R115), `BS.RDU32` (R116) and `BS.RDU64` (R117): the word of `w` bits made of the next `n` bytes. -/
def ByteStream.readWord (w n : Nat) (bs : ByteStream) : BitVec w × ByteStream :=
  let r := bs.consumeBE n 0
  (BitVec.ofNat w r.1, r.2)

/-- The pattern of `w` bits that stands for a signed value: `v mod 2^w` (R126 to R128). -/
def signedPattern (w : Nat) (v : Int) : Nat := (v % ((2 ^ w : Nat) : Int)).toNat

/-- The sum of the first `n` bytes from the reader index on, modulo 2^32 (R173). -/
def ByteStream.payloadSum (bs : ByteStream) : Nat → Word32
  | 0 => 0
  | n + 1 => bs.payloadSum n + (bs.peek n).setWidth 32

/-- Whether the first four bytes from the reader index on are the magic (R152). -/
def ByteStream.startsWithMagic (bs : ByteStream) : Bool :=
  [bs.peek 0, bs.peek 1, bs.peek 2, bs.peek 3] == Config.magic

/-- No index the ByteStream can name lies outside the array of `CAP_MAX` bytes (R60; log entry 12). -/
def ByteStream.insideArray (bs : ByteStream) : Bool :=
  decide (bs.capacity ≤ Config.params.capMax) && decide (bs.size ≤ Config.params.capMax)

/-! ## Clamps (R131 to R133) -/

/-- `min(max(i, 0), hi)` for a signed index. -/
def clampIndex (i : Int) (hi : Nat) : Nat := min i.toNat hi

/-! ## The device state's values -/

/-- `max(v, 0)` of a signed value (R208). -/
def clampTime (v : Word32) : Word32 := if v.toInt < 0 then 0 else v

/-- `max(S.time - 1, 0)` (R209). -/
def preDecrement (t : Word32) : Word32 := if 1 ≤ t.toInt then t - 1 else 0

/-- `digitsOf(S)` (R208): blank when the time is not enabled, else the time up to `DIGIT_MAX`. -/
def digitsOf (d : DeviceState) : Digits :=
  if d.timeEnabled then .value (BitVec.ofInt 10 (min d.time.toInt Config.params.digitMax)) else .blank

/-- `toneOf(vol)` (R230). -/
def toneOf : Volume → Tone
  | .mute => .off
  | .quiet => .quiet
  | .loud => .loud

/-- Elapsed time `now - anchor` in milliseconds, on naturals (R13). -/
def elapsed (now anchor : Time) : Nat := now.toNat - anchor.toNat

/-- Whether the tone is wanted on: the phase of the schedule is even (R242). -/
def toneWanted (now start : Time) : Bool :=
  (elapsed now start / Config.params.beepHalfMs) % 2 == 0

/-- The exact end of a schedule of `n` beeps from `now` (R240), as a natural. -/
def exactEnd (n : Word32) (now : Time) : Nat := now.toNat + n.toInt.toNat * Config.params.beepMs

/-- The end time of a schedule: the exact end when `TIME_W` bits hold it, else the free value `free`, no lower than
the start (R39; log entry 6). -/
def scheduleEnd (n : Word32) (now free : Time) : Time :=
  if exactEnd n now < 2 ^ Config.params.timeW then BitVec.ofNat 64 (exactEnd n now)
  else if now.toNat ≤ free.toNat then free else now

/-- The number of an event label (R270). -/
def Event.code : Event → Nat
  | .framingNoise => 1
  | .checksumFail => 2
  | .semanticReject => 3
  | .bufferOverflow => 4
  | .allocFail => 5
  | .headerLock => 16
  | .frameOk => 17
  | .cmdEstop => 18
  | .cmdStart => 19
  | .cmdStop => 20
  | .cmdUpdate => 21
  | .countdownDec => 22
  | .countdownEnd => 23
  | .countdownEndContinue => 24
  | .buzzerEnd => 25
  | .flush => 26

end Sys2Proof.Machine
end

