-- ==== Sys2Proof/Machine/Flags.lean ====
section
/-! DEFINITION. The conditions and one-bit flags of the block (spec/10_state.md R41, spec/30_encoding.md R88). There are
no arithmetic condition codes (R41). -/

namespace Sys2Proof.Machine

/-- The ingest phase is `COLLECT` (R27, R41): a frame is being assembled. -/
def State.collecting (s : State) : Bool := s.expected.isSome

/-- The header check is due: `HUNT` with exactly `HDR_LEN` bytes (R152). -/
def State.headerDue (s : State) : Bool := s.expected.isNone && s.bs.size == Config.params.hdrLen

/-- The frame is complete: `expected = some(L)` and `BS.size = L` (R155). -/
def State.frameComplete (s : State) : Bool :=
  match s.expected with
  | some l => s.bs.size == l.toNat
  | none => false

/-- The matchplay guard rejects the Command (R201). -/
def guardRejects (c : Command) (d : DeviceState) : Bool := c.matchplay && c.detail != d.matchplayMode.code

/-- The class of a Command in a state, tested in the order of R88. -/
def classify (c : Command) (d : DeviceState) : CmdClass :=
  if guardRejects c d then .reject
  else if c.emergencyStop then .estop
  else if !d.countdown && c.countdownActive then .start
  else if d.countdown && !c.countdownActive then .stop
  else .update

/-- `S.countdownContinues` after a Command (R205): no command clears it. -/
def stickyContinues (old new : Bool) : Bool := old || new

/-- A countdown event is due (R231). -/
def countdownDue (now : Time) (d : DeviceState) : Bool :=
  decide (d.mode = .counting) && decide (Config.params.tickMs ≤ elapsed now d.lastTickTime)

/-- The schedule's end time has elapsed (R243). -/
def scheduleElapsed (now : Time) (bz : Buzzer) : Bool := decide (bz.endTime.toNat ≤ now.toNat)

/-- A flush is emitted (R252). -/
def State.flushDue (s : State) : Bool := s.out.dirty && !s.collecting

end Sys2Proof.Machine
end

