-- ==== Sys2Proof/Machine/Ops.lean ====
section
/-! DEFINITION. The named operations over the whole state that the meanings are built from: the ByteStream
primitives, the intents, the buzzer schedule, entering and leaving the emergency stop, and how an operation begins. -/

namespace Sys2Proof.Machine

/-- One step's outcome. -/
abbrev Step := Host.Outcome State Fault Refusal

/-! ## Events, results, and the beginning of an operation -/

/-- `event <Label>`: appends a label to the operation's trace (R12, R270). -/
def State.emit (e : Event) (s : State) : State := { s with io := { s.io with trace := s.io.trace ++ [e] } }

/-- The result an operation returns. -/
def State.setResult (r : Result) (s : State) : State := { s with io := { s.io with result := r } }

/-- A new operation begins: trace, result and flush pulse are those of one operation (R270, R47; log entry 8). -/
def State.begin (s : State) : State :=
  { s with io := { s.io with trace := [], result := .nothing, flushed := none } }

/-- The timestamp of an operation becomes the latest one (R13; log entry 7). -/
def State.setClock (now : Time) (s : State) : State := { s with io := { s.io with clock := now } }

/-- An operation that touches neither the array nor the clock. -/
def run (k : State → State) (s : State) : Step := .next (k s.begin)

/-- An operation that accesses the byte array (R60; log entry 12). -/
def runArray (k : State → State) (s : State) : Step :=
  if s.bs.insideArray then run k s else .fault .outsideArray

/-- An operation with a timestamp: a `now` below an earlier one is refused (R13, U2; log entry 7). -/
def runAt (now : Time) (k : State → State) (s : State) : Step :=
  if s.io.clock.toNat ≤ now.toNat then run (fun s => k (s.setClock now)) s else .refused .clockRanBackward

/-- An operation with a timestamp that accesses the byte array. -/
def runArrayAt (now : Time) (k : State → State) (s : State) : Step :=
  if s.bs.insideArray then runAt now k s else .fault .outsideArray

/-! ## ByteStream primitives (spec/40_bytestream_ops.md) -/

/-- The ByteStream replaced. -/
def State.withBs (bs : ByteStream) (s : State) : State := { s with bs := bs }

/-- `BS.APPEND(b)` (R112). With `wi > size` the bytes between become valid with free values (corner case (c), U4;
log entry 5). -/
def State.append (b : Byte) (s : State) : State :=
  if s.bs.wi < s.bs.capacity then
    let gap := s.bs.wi - s.bs.size
    { s with
      bs := { s.bs with
        mem := (s.bs.mem.fillFree s.io.freeNext s.bs.size gap).write s.bs.wi b
        wi := s.bs.wi + 1
        size := max s.bs.size (s.bs.wi + 1) }
      io := { s.io with freeNext := s.io.freeNext + gap } }
  else s.emit .bufferOverflow

/-- Successive appends, in order (R123 to R125). -/
def State.appendAll (bytes : List Byte) (s : State) : State := bytes.foldl (fun s b => s.append b) s

/-- `BS.SETRI(i)` (R132). -/
def State.setReader (i : Int) (s : State) : State :=
  s.withBs { s.bs with ri := clampIndex i s.bs.size }

/-- `BS.SETWI(i)` (R133). -/
def State.setWriter (i : Int) (s : State) : State :=
  s.withBs { s.bs with wi := clampIndex i s.bs.capacity }

/-- `BS.CLEAR()` (R134). -/
def State.clear (s : State) : State := s.withBs { s.bs with size := 0, ri := 0, wi := 0 }

/-- `BS.COMPACT()` (R135). -/
def State.compact (s : State) : State :=
  let n := s.bs.size - s.bs.ri
  s.withBs { s.bs with mem := s.bs.mem.copyDown s.bs.ri 0 n, size := n, ri := 0, wi := n }

/-- Whether `BS.RESIZE` can grant the capacity asked for (R131, D7). -/
def resizable (n : Int) : Bool := decide (0 ≤ n) && decide (n ≤ Config.params.capMax)

/-- `BS.RESIZE(n)` on the state (R131); a request that cannot be granted changes nothing. -/
def State.resize (n : Int) (s : State) : State :=
  if resizable n then
    s.withBs { s.bs with
      capacity := n.toNat
      size := min s.bs.size n.toNat
      wi := min s.bs.wi n.toNat
      ri := min s.bs.ri (min s.bs.size n.toNat) }
  else s.emit .allocFail

/-- The status `BS.RESIZE(n)` returns (R131). -/
def resizeStatus (n : Int) : Status := if resizable n then .ok else .allocFail

/-- A wide read on the state: the word, and the state with the reader index advanced (R115 to R117). -/
def State.readWord (w n : Nat) (s : State) : BitVec w × State :=
  let r := s.bs.readWord w n
  (r.1, s.withBs r.2)

/-! ## Intents (R45) -/

/-- `issue setIndicator(c)`. -/
def State.issueIndicator (c : Code) (s : State) : State := { s with out := { s.out with ind := c, dirty := true } }

/-- `issue setDetail(d)`. -/
def State.issueDetail (d : Code) (s : State) : State := { s with out := { s.out with det := d, dirty := true } }

/-- `issue setDigits(v)`. -/
def State.issueDigits (v : Digits) (s : State) : State := { s with out := { s.out with dig := v, dirty := true } }

/-- The tone register written (R46): the buzzer driver sees it at once (R47). -/
def State.setTone (t : Tone) (s : State) : State := { s with out := { s.out with tone := t } }

/-! ## The device state -/

/-- The DeviceState replaced. -/
def State.withDev (d : DeviceState) (s : State) : State := { s with dev := d }

/-- The buzzer schedule replaced. -/
def State.withBz (bz : Buzzer) (s : State) : State := { s with bz := bz }

/-- `issue setDigits(digitsOf(S))`. -/
def State.redisplayDigits (s : State) : State := s.issueDigits (digitsOf s.dev)

/-- `sound(n, now)` (R240): a count below 1 leaves a running schedule alone. The end time takes a free value when
`TIME_W` bits cannot hold it (log entry 6). -/
def State.sound (n : Word32) (now : Time) (s : State) : State :=
  if 1 ≤ n.toInt then
    { s with
      bz := ⟨true, now, scheduleEnd n now (Config.freeTime s.io.freeNext)⟩
      io := { s.io with freeNext := s.io.freeNext + 1 } }
  else s

/-- `enterBlank()` (R212). -/
def State.enterBlank (s : State) : State :=
  ((((s.withDev { s.dev with mode := .blank }).issueIndicator 0).issueDetail 0).issueDigits .blank)

/-- The indicator of a full redisplay: code 3 issues nothing (R245). -/
def State.redisplayIndicator (s : State) : State :=
  if s.dev.colour != 3 then s.issueIndicator s.dev.colour else s

/-- The detail of a full redisplay: code 3 issues nothing (R245). -/
def State.redisplayDetail (s : State) : State :=
  if s.dev.detail != 3 then s.issueDetail s.dev.detail else s

/-- `fullRedisplay()` (R245). -/
def State.fullRedisplay (s : State) : State := s.redisplayIndicator.redisplayDetail.redisplayDigits

/-! ## The emergency stop, the block's only trap (R277, R278) -/

/-- Taking the emergency stop (R203): the countdown and the buzzer are cancelled, the fixed alert starts, the block
enters Blank. It saves nothing (R277). -/
def State.takeEstop (now : Time) (s : State) : State :=
  let s := s.withDev { s.dev with countdown := false }
  let s := (s.withBz { s.bz with active := false }).setTone .off
  (s.sound Config.params.estopPulses now).enterBlank

/-- The end of a buzzer schedule (R243), through which the block leaves Blank after an emergency stop or any other
stop; there is no other return (R278). -/
def State.endSchedule (s : State) : State :=
  let s := ((s.withBz { s.bz with active := false }).setTone .off).emit .buzzerEnd
  if s.dev.countdown then s else (s.withDev { s.dev with mode := .idle }).fullRedisplay

/-! ## The control loop, and fetching a request (log entry 1) -/

/-- The operations of one pass, in the order of the control loop (R251, R98): the inputs are sampled, every byte the
transport has ready is received, the tick logic runs, the display is flushed. -/
def Pass.ops (p : Pass) : List Instr :=
  .sample p.mp :: p.rx.map (fun a => .rx a.1 a.2) ++ [.tick p.now p.vol, .flush]

/-- `PASS @now mp= vol= rx=` (R98): a pass with one timestamp. -/
def Pass.atOnce (now : Time) (mp : Matchplay) (vol : Volume) (bytes : List Byte) : Pass :=
  ⟨mp, bytes.map (fun b => (b, now)), now, vol⟩

/-- The control loop goes on to its next pass when nothing of the last one is left to run (R251). -/
def State.openPass (s : State) : State :=
  match s.io.input, s.io.passes with
  | [], p :: ps => { s with io := { s.io with input := p.ops.map encode, passes := ps } }
  | _, _ => s

/-- The oldest request, and the state without it. -/
def State.nextRequest (s : State) : Option (Request × State) :=
  match s.openPass.io.input with
  | [] => none
  | r :: rest => some (r, { s.openPass with io := { s.openPass.io with input := rest } })

/-- A request placed where the next step takes it. -/
def State.place (r : Request) (s : State) : State := { s with io := { s.io with input := r :: s.io.input } }

end Sys2Proof.Machine
end

