-- ==== Sys2Proof/Machine/Loop.lean ====
section
/-! DEFINITION. The time-driven side and the rest of the control loop (spec/45_tick_and_loop.md): `TICK`, `SAMPLE`,
`FLUSH`, `RESET`. -/

namespace Sys2Proof.Machine

/-- The decrement of a countdown event (R232). -/
def countdownDecrement (now : Time) (s : State) : State :=
  let s := (s.withDev { s.dev with time := s.dev.time - 1 }).redisplayDigits
  (s.withDev { s.dev with lastTickTime := now }).emit .countdownDec

/-- The end of a countdown (R234). -/
def countdownEnd (now : Time) (s : State) : State :=
  let s := s.sound s.dev.endNumBeeps now
  if s.dev.countdownContinues then
    (s.withDev { s.dev with countdownContinues := false, lastTickTime := now }).emit .countdownEndContinue
  else ((s.withDev { s.dev with countdown := false }).enterBlank).emit .countdownEnd

/-- Part A of `TICK`, the countdown (R230 to R234). -/
def tickCountdown (now : Time) (s : State) : State :=
  if countdownDue now s.dev then
    if 1 < s.dev.time.toInt then countdownDecrement now s else countdownEnd now s
  else s

/-- The toggling of the tone (R242). -/
def toggleTone (now : Time) (vol : Volume) (s : State) : State :=
  if toneWanted now s.bz.startTime then
    if s.out.tone = .off then s.setTone (toneOf vol) else s
  else
    if s.out.tone = .off then s else s.setTone .off

/-- Part B of `TICK`, the buzzer (R241 to R243). -/
def tickBuzzer (now : Time) (vol : Volume) (s : State) : State :=
  if s.bz.active then
    if scheduleElapsed now s.bz then s.endSchedule else toggleTone now vol s
  else s

/-- The flush (R252): the display driver takes the three intents as they stand (R47). -/
def flushDisplay (s : State) : State :=
  if s.flushDue then
    { s with
      out := { s.out with dirty := false }
      io := { s.io with flushed := some ⟨s.out.ind, s.out.det, s.out.dig⟩ } }.emit .flush
  else s

/-- `RESET` (R253): every piece of state at the value of R50. The passes and operations still to come stay to
come, and no free value is taken twice (log entries 1, 5). -/
def resetAll (s : State) : State :=
  { State.reset with io := { Io.reset with input := s.io.input, passes := s.io.passes, freeNext := s.io.freeNext } }

/-! ## Meanings -/

/-- `RESET()` (R253). -/
def execReset (s : State) : Step := run resetAll s

/-- `SAMPLE(mp)` (R250). -/
def execSample (mp : Matchplay) (s : State) : Step :=
  run (fun s => s.withDev { s.dev with matchplayMode := mp }) s

/-- `TICK(now, vol)` (R230): the countdown, then the buzzer. -/
def execTick (now : Time) (vol : Volume) (s : State) : Step :=
  runAt now (fun s => tickBuzzer now vol (tickCountdown now s)) s

/-- `FLUSH()` (R252). -/
def execFlush (s : State) : Step := run flushDisplay s

end Sys2Proof.Machine
end

