-- ==== Sys2Proof/Machine/Commands.lean ====
section
/-! DEFINITION. The command side of the DeviceStateMachine (spec/44_command_dispatch.md): the five classes, their
dispatch, and the meanings of `APPLY`, `CW` and the `CMD.*` rows. -/

namespace Sys2Proof.Machine

/-! ## Field updates common to CMD.UPDATE, CMD.START and CMD.STOP -/

/-- R205 and R206: the sticky flag, then the plain mirrors. -/
def State.mirrorFields (c : Command) (s : State) : State :=
  s.withDev { s.dev with
    countdownContinues := stickyContinues s.dev.countdownContinues c.countdownContinues
    lastEnd := c.lastEnd
    startNumBeeps := c.startBeeps
    endNumBeeps := c.endBeeps }

/-- R207 for the colour: on a change the code is stored, and issued unless it is 3. -/
def State.updateColour (c : Command) (s : State) : State :=
  if c.colour != s.dev.colour then
    let s := s.withDev { s.dev with colour := c.colour }
    if c.colour != 3 then s.issueIndicator c.colour else s
  else s

/-- R207 for the detail. -/
def State.updateDetail (c : Command) (s : State) : State :=
  if c.detail != s.dev.detail then
    let s := s.withDev { s.dev with detail := c.detail }
    if c.detail != 3 then s.issueDetail c.detail else s
  else s

/-- R208: time and timeEnabled, on a change of either. -/
def State.updateTime (c : Command) (s : State) : State :=
  if clampTime c.time != s.dev.time || c.timeEnabled != s.dev.timeEnabled then
    (s.withDev { s.dev with time := clampTime c.time, timeEnabled := c.timeEnabled }).redisplayDigits
  else s

/-- Rules R205 to R208 in the order of R200. -/
def State.updateFields (c : Command) (s : State) : State :=
  (((s.mirrorFields c).updateColour c).updateDetail c).updateTime c

/-! ## The five classes -/

/-- `CMD.REJECT` (R201): nothing but the label. -/
def rejectBody (s : State) : State := s.emit .semanticReject

/-- `CMD.ESTOP` (R203): no other field of the Command is used (R204). -/
def estopBody (now : Time) (s : State) : State := (s.takeEstop now).emit .cmdEstop

/-- The edge action of `CMD.START` (R209). -/
def startEdge (now : Time) (s : State) : State :=
  let s := s.withDev { s.dev with lastTickTime := now, time := preDecrement s.dev.time }
  let s := s.redisplayDigits.sound s.dev.startNumBeeps now
  s.withDev { s.dev with countdown := true, mode := .counting }

/-- `CMD.START` (R209). -/
def startBody (c : Command) (now : Time) (s : State) : State := (startEdge now (s.updateFields c)).emit .cmdStart

/-- The edge action of `CMD.STOP` (R210). -/
def stopEdge (now : Time) (s : State) : State :=
  let s := s.sound s.dev.endNumBeeps now
  (s.withDev { s.dev with countdown := false }).enterBlank

/-- `CMD.STOP` (R210). -/
def stopBody (c : Command) (now : Time) (s : State) : State := (stopEdge now (s.updateFields c)).emit .cmdStop

/-- `CMD.UPDATE` (R211). -/
def updateBody (c : Command) (s : State) : State := (s.updateFields c).emit .cmdUpdate

/-- The body of a class. -/
def classBody (cls : CmdClass) (c : Command) (now : Time) (s : State) : State :=
  match cls with
  | .reject => rejectBody s
  | .estop => estopBody now s
  | .start => startBody c now s
  | .stop => stopBody c now s
  | .update => updateBody c s

/-- The stage `APPLY` (R200): the Command runs as the class the state gives it. -/
def applyStage (c : Command) (now : Time) (s : State) : State := classBody (classify c s.dev) c now s

/-! ## Meanings -/

/-- `APPLY(C, now)` (R200). -/
def execApply (c : Command) (now : Time) (s : State) : Step := runAt now (applyStage c now) s

/-- `CW` (R86, R87): the control word and its three integers are decoded and applied, as those of a valid frame
(log entry 11). -/
def execControlWord (cw time startBeeps endBeeps : Word32) (now : Time) (s : State) : Step :=
  runAt now (applyStage (Command.ofWords cw time startBeeps endBeeps) now) s

/-- `CMD.REJECT` (R201). A Command that the state puts in another class runs as that class (R88; log entry 10). -/
def execCmdReject (c : Command) (now : Time) (s : State) : Step :=
  runAt now (fun s => if classify c s.dev = .reject then rejectBody s else applyStage c now s) s

/-- `CMD.ESTOP` (R203); otherwise the class of R88 (log entry 10). -/
def execCmdEstop (c : Command) (now : Time) (s : State) : Step :=
  runAt now (fun s => if classify c s.dev = .estop then estopBody now s else applyStage c now s) s

/-- `CMD.START` (R209); otherwise the class of R88 (log entry 10). -/
def execCmdStart (c : Command) (now : Time) (s : State) : Step :=
  runAt now (fun s => if classify c s.dev = .start then startBody c now s else applyStage c now s) s

/-- `CMD.STOP` (R210); otherwise the class of R88 (log entry 10). -/
def execCmdStop (c : Command) (now : Time) (s : State) : Step :=
  runAt now (fun s => if classify c s.dev = .stop then stopBody c now s else applyStage c now s) s

/-- `CMD.UPDATE` (R211); otherwise the class of R88 (log entry 10). -/
def execCmdUpdate (c : Command) (now : Time) (s : State) : Step :=
  runAt now (fun s => if classify c s.dev = .update then updateBody c s else applyStage c now s) s

end Sys2Proof.Machine
end

