-- ==== Sys2Proof/Machine/Pipeline.lean ====
section
/-! DEFINITION. The ingestion pipeline: `RX` and its stages (spec/41_frame_sync.md, spec/42_frame_validate.md,
spec/43_command_decode.md), and the reception of a whole frame (spec/30_encoding.md R81). -/

namespace Sys2Proof.Machine

/-- The stage `SYNC` (R152 to R154): when due, the header check; a match records the length byte, a mismatch drops
the oldest byte. -/
def syncStage (s : State) : State :=
  if s.headerDue then
    if s.bs.startsWithMagic then { s with expected := some (s.bs.peek 4) }.emit .headerLock
    else ((s.setReader 1).compact).emit .framingNoise
  else s

/-- The stage `DECODE` (R185, R186): the Command, and the state with the reader index advanced. -/
def decodeStage (s : State) : Command × State :=
  let cw := s.readWord 32 4
  let t := cw.2.readWord 32 4
  let sb := t.2.readWord 32 4
  let eb := sb.2.readWord 32 4
  (Command.ofWords cw.1 t.1 sb.1 eb.1, eb.2)

/-- The checksum of the frame in the buffer, as transmitted, and the state with the reader index after it (R171,
R172). -/
def readChecksum (s : State) : Word32 × State := (s.setReader Config.params.hdrLen).readWord 32 4

/-- Disposal of a frame (R176). -/
def dispose (s : State) : State := { s.clear with expected := none }

/-- The stage `VALIDATE` (R170). -/
def validateStage (now : Time) (s : State) : State :=
  let ck := readChecksum s
  let sum := ck.2.bs.payloadSum (ck.2.bs.size - ck.2.bs.ri)
  if ck.1 = sum then
    let d := decodeStage (ck.2.emit .frameOk)
    dispose (applyStage d.1 now d.2)
  else dispose (ck.2.emit .checksumFail)

/-- Step 3 of `RX` (R155): a complete frame is validated at once. -/
def completionStage (now : Time) (s : State) : State :=
  if s.frameComplete then validateStage now s else s

/-- `RX(b, now)` (R150): append, header check, completion check. -/
def receive (now : Time) (b : Byte) (s : State) : State := completionStage now (syncStage (s.append b))

/-- Successive `RX` at one timestamp (R98). -/
def receiveAll (now : Time) (bytes : List Byte) (s : State) : State := bytes.foldl (fun s b => receive now b s) s

/-! ## Meanings -/

/-- `RX(b, now)` (R150). -/
def execRx (b : Byte) (now : Time) (s : State) : Step := runArrayAt now (receive now b) s

/-- `SYNC` (R152), run by itself (log entry 9). -/
def execSync (s : State) : Step := runArray syncStage s

/-- `VALIDATE(now)` (R170), run by itself (log entry 9). -/
def execValidate (now : Time) (s : State) : Step := runArrayAt now (validateStage now) s

/-- `DECODE()` (R185), run by itself (log entry 9). -/
def execDecode (s : State) : Step :=
  runArray (fun s => (decodeStage s).2.setResult (.command (decodeStage s).1)) s

/-- `F` (R81): the frame's bytes received one after the other at one timestamp (R98; log entry 11). -/
def execFrame (f : Frame) (now : Time) (s : State) : Step := runArrayAt now (receiveAll now f.bytes) s

end Sys2Proof.Machine
end

