-- ==== Sys2Proof/Machine/Stream.lean ====
section
/-! DEFINITION. The meanings of the 24 ByteStream primitives (spec/40_bytestream_ops.md). -/

namespace Sys2Proof.Machine

/-- `BS.APPEND(b)` (R112). -/
def execBsAppend (b : Byte) (s : State) : Step := runArray (fun s => s.append b) s

/-- `BS.PEEK(off)` (R113). -/
def execBsPeek (off : Word16) (s : State) : Step :=
  runArray (fun s => s.setResult (.byte (s.bs.peek off.toNat))) s

/-- `BS.CONSUME()` (R114). -/
def execBsConsume (s : State) : Step :=
  runArray (fun s => (s.withBs s.bs.consume.2).setResult (.byte s.bs.consume.1)) s

/-- A wide read whose result is made from the word read. -/
def State.readInto (w n : Nat) (mk : BitVec w → Result) (s : State) : State :=
  (s.readWord w n).2.setResult (mk (s.readWord w n).1)

/-- `BS.RDU16()` (R115). -/
def execBsRdu16 (s : State) : Step := runArray (fun s => s.readInto 16 2 .u16) s

/-- `BS.RDU32()` (R116). -/
def execBsRdu32 (s : State) : Step := runArray (fun s => s.readInto 32 4 .u32) s

/-- `BS.RDU64()` (R117). -/
def execBsRdu64 (s : State) : Step := runArray (fun s => s.readInto 64 8 .u64) s

/-- `BS.RDI16()` (R118): `sext_16`. -/
def execBsRdi16 (s : State) : Step := runArray (fun s => s.readInto 16 2 (fun v => .signed v.toInt)) s

/-- `BS.RDI32()` (R119): `sext_32`. -/
def execBsRdi32 (s : State) : Step := runArray (fun s => s.readInto 32 4 (fun v => .signed v.toInt)) s

/-- `BS.RDI64()` (R120): `sext_64`. -/
def execBsRdi64 (s : State) : Step := runArray (fun s => s.readInto 64 8 (fun v => .signed v.toInt)) s

/-- `BS.RDF32()` (R121): the pattern, unchanged. -/
def execBsRdf32 (s : State) : Step := runArray (fun s => s.readInto 32 4 .f32) s

/-- `BS.RDF64()` (R122): the pattern, unchanged. -/
def execBsRdf64 (s : State) : Step := runArray (fun s => s.readInto 64 8 .f64) s

/-- `BS.WRU16(v)` (R123). -/
def execBsWru16 (v : Word16) (s : State) : Step := runArray (fun s => s.appendAll (beBytes 2 v.toNat)) s

/-- `BS.WRU32(v)` (R124). -/
def execBsWru32 (v : Word32) (s : State) : Step := runArray (fun s => s.appendAll (beBytes 4 v.toNat)) s

/-- `BS.WRU64(v)` (R125). -/
def execBsWru64 (v : Word64) (s : State) : Step := runArray (fun s => s.appendAll (beBytes 8 v.toNat)) s

/-- `BS.WRI16(v)` (R126): `v mod 2^16` of the signed value. -/
def execBsWri16 (v : Word16) (s : State) : Step :=
  runArray (fun s => s.appendAll (beBytes 2 (signedPattern 16 v.toInt))) s

/-- `BS.WRI32(v)` (R127): `v mod 2^32` of the signed value. -/
def execBsWri32 (v : Word32) (s : State) : Step :=
  runArray (fun s => s.appendAll (beBytes 4 (signedPattern 32 v.toInt))) s

/-- `BS.WRI64(v)` (R128): `v mod 2^64` of the signed value. -/
def execBsWri64 (v : Word64) (s : State) : Step :=
  runArray (fun s => s.appendAll (beBytes 8 (signedPattern 64 v.toInt))) s

/-- `BS.WRF32(v)` (R129): the pattern, unchanged. -/
def execBsWrf32 (v : Word32) (s : State) : Step := runArray (fun s => s.appendAll (beBytes 4 v.toNat)) s

/-- `BS.WRF64(v)` (R130): the pattern, unchanged. -/
def execBsWrf64 (v : Word64) (s : State) : Step := runArray (fun s => s.appendAll (beBytes 8 v.toNat)) s

/-- `BS.RESIZE(newCapacity)` (R131). -/
def execBsResize (n : Word32) (s : State) : Step :=
  run (fun s => (s.resize n.toInt).setResult (.status (resizeStatus n.toInt))) s

/-- `BS.SETRI(i)` (R132). -/
def execBsSetri (i : Word32) (s : State) : Step := run (fun s => s.setReader i.toInt) s

/-- `BS.SETWI(i)` (R133). -/
def execBsSetwi (i : Word32) (s : State) : Step := run (fun s => s.setWriter i.toInt) s

/-- `BS.CLEAR()` (R134). -/
def execBsClear (s : State) : Step := run State.clear s

/-- `BS.COMPACT()` (R135). -/
def execBsCompact (s : State) : Step := runArray State.compact s

end Sys2Proof.Machine
end

