-- ==== Sys2Proof/Machine/Dispatch.lean ====
section
/-! DEFINITION. The dispatch of an operation to its meaning, one arm per row of spec/opcode_table.json. -/

namespace Sys2Proof.Machine

def exec (i : Instr) (s : State) : Host.Outcome State Fault Refusal :=
  match i with
  | .reset => Sys2Proof.Machine.execReset s
  | .sample mp => Sys2Proof.Machine.execSample mp s
  | .rx b now => Sys2Proof.Machine.execRx b now s
  | .tick now vol => Sys2Proof.Machine.execTick now vol s
  | .flush => Sys2Proof.Machine.execFlush s
  | .sync => Sys2Proof.Machine.execSync s
  | .validate now => Sys2Proof.Machine.execValidate now s
  | .decode => Sys2Proof.Machine.execDecode s
  | .apply c now => Sys2Proof.Machine.execApply c now s
  | .bsAppend b => Sys2Proof.Machine.execBsAppend b s
  | .bsPeek off => Sys2Proof.Machine.execBsPeek off s
  | .bsConsume => Sys2Proof.Machine.execBsConsume s
  | .bsRdu16 => Sys2Proof.Machine.execBsRdu16 s
  | .bsRdu32 => Sys2Proof.Machine.execBsRdu32 s
  | .bsRdu64 => Sys2Proof.Machine.execBsRdu64 s
  | .bsRdi16 => Sys2Proof.Machine.execBsRdi16 s
  | .bsRdi32 => Sys2Proof.Machine.execBsRdi32 s
  | .bsRdi64 => Sys2Proof.Machine.execBsRdi64 s
  | .bsRdf32 => Sys2Proof.Machine.execBsRdf32 s
  | .bsRdf64 => Sys2Proof.Machine.execBsRdf64 s
  | .bsWru16 v => Sys2Proof.Machine.execBsWru16 v s
  | .bsWru32 v => Sys2Proof.Machine.execBsWru32 v s
  | .bsWru64 v => Sys2Proof.Machine.execBsWru64 v s
  | .bsWri16 v => Sys2Proof.Machine.execBsWri16 v s
  | .bsWri32 v => Sys2Proof.Machine.execBsWri32 v s
  | .bsWri64 v => Sys2Proof.Machine.execBsWri64 v s
  | .bsWrf32 v => Sys2Proof.Machine.execBsWrf32 v s
  | .bsWrf64 v => Sys2Proof.Machine.execBsWrf64 v s
  | .bsResize n => Sys2Proof.Machine.execBsResize n s
  | .bsSetri k => Sys2Proof.Machine.execBsSetri k s
  | .bsSetwi k => Sys2Proof.Machine.execBsSetwi k s
  | .bsClear => Sys2Proof.Machine.execBsClear s
  | .bsCompact => Sys2Proof.Machine.execBsCompact s
  | .frame f now => Sys2Proof.Machine.execFrame f now s
  | .controlWord cw t sb eb now => Sys2Proof.Machine.execControlWord cw t sb eb now s
  | .cmdReject c now => Sys2Proof.Machine.execCmdReject c now s
  | .cmdEstop c now => Sys2Proof.Machine.execCmdEstop c now s
  | .cmdStart c now => Sys2Proof.Machine.execCmdStart c now s
  | .cmdStop c now => Sys2Proof.Machine.execCmdStop c now s
  | .cmdUpdate c now => Sys2Proof.Machine.execCmdUpdate c now s

end Sys2Proof.Machine
end

