-- ==== Sys2Proof/Machine/Step.lean ====
section
/-! DEFINITION. One step: the control loop's next operation is taken, decoded and run (spec/00_scope.md R8,
spec/45_tick_and_loop.md R251; log entries 1 to 3). -/

namespace Sys2Proof.Machine

/-- One step of the machine: one operation. The operations of a pass come in the order of the control loop (R251,
`Pass.ops`). With no request and no pass to make the block does nothing: between operations nothing happens (R8, R276;
log entry 3). -/
def step (s : State) : Host.Outcome State Fault Refusal :=
  match s.nextRequest with
  | none => .next s
  | some (r, s') =>
    match decode r with
    | .ok i => exec i s'
    | .error e => .refused (.undecodable e)

/-- The state with a word of the opcode table placed as the next request (log entries 1, 2). -/
def State.withFetchWord (s : State) (nbits w : Nat) : State := s.place (tableRequest nbits w)

end Sys2Proof.Machine
end

