-- ==== Sys2Proof/Machine/Pass.lean ====
section
/-! DEFINITION. Runs: operations, passes of the control loop (spec/45_tick_and_loop.md R251) and steps, one after the
other. -/

namespace Sys2Proof.Machine

/-- Operations run one after the other, stopping at the first fault or refusal. -/
def execAll : List Instr → State → Step
  | [], s => .next s
  | i :: is, s =>
    match exec i s with
    | .next t => execAll is t
    | .fault r => .fault r
    | .refused r => .refused r

/-- One pass of the control loop (R251). -/
def runPass (p : Pass) (s : State) : Step := execAll p.ops s

/-- The control loop over its passes (R251). -/
def runLoop : List Pass → State → Step
  | [], s => .next s
  | p :: ps, s =>
    match runPass p s with
    | .next t => runLoop ps t
    | .fault r => .fault r
    | .refused r => .refused r

/-- `n` steps of the machine, stopping at the first fault or refusal. -/
def stepN : Nat → State → Step
  | 0, s => .next s
  | n + 1, s =>
    match step s with
    | .next t => stepN n t
    | .fault r => .fault r
    | .refused r => .refused r

/-- The steps one pass takes: `SAMPLE`, one `RX` a byte, `TICK`, `FLUSH`. -/
def Pass.steps (p : Pass) : Nat := p.rx.length + 3

end Sys2Proof.Machine
end

