-- ==== Sys2Proof/Safety.lean ====
section
/-! DEFINITION. What counts as a safe state and a safe run, in the terms claims use: the invariants of
spec/10_state.md, the environment's duties (spec/70_reset_and_hazards.md R302), and the views of the state that
statements speak of. -/

namespace Sys2Proof.Machine

/-! ## Views of the state -/

/-- The valid bytes of the ByteStream, in order (R23). -/
def ByteStream.bytes (bs : ByteStream) : List Byte := (List.range bs.size).map bs.mem.read

/-- The bytes not yet read (R24). -/
def ByteStream.unread (bs : ByteStream) : List Byte := bs.bytes.drop bs.ri

/-- The state the spec gives the machine (R20), the model's own fields put aside. -/
def State.arch (s : State) : State := { s with io := Io.reset }

/-- Nothing of `S`, `bz` and `O` differs: what 44_command_dispatch.md R202 calls an unmodified DeviceState. -/
abbrev State.SameDevice (s t : State) : Prop := t.dev = s.dev ∧ t.bz = s.bz ∧ t.out = s.out

/-- Nothing of the ByteStream and of `expected` differs. -/
abbrev State.SameIngest (s t : State) : Prop := t.bs = s.bs ∧ t.expected = s.expected

/-- The digits intent is blank or a number up to `DIGIT_MAX` (R44). -/
def Digits.inRange : Digits → Bool
  | .blank => true
  | .value n => decide (n.toNat ≤ Config.params.digitMax)

/-! ## Invariants -/

/-- R25 and R137, with `capacity` within the array (R22), the memory in canonical form, and no byte listed outside
the array (R60). -/
abbrev ByteStream.Inv (bs : ByteStream) : Prop :=
  bs.ri ≤ bs.size ∧ bs.size ≤ bs.capacity ∧ bs.wi ≤ bs.capacity ∧ bs.capacity ≤ Config.params.capMax ∧
    bs.mem.wf = true ∧ bs.mem.all (fun c => decide (c.1 < Config.params.capMax)) = true

/-- R32 (a countdown is active exactly in Counting) and R35 (`S.time` is not negative). -/
abbrev DeviceState.Inv (d : DeviceState) : Prop :=
  (d.countdown = true ↔ d.mode = .counting) ∧ 0 ≤ d.time.toInt

/-- R43, R44: the display intents stay within what the display driver knows. -/
abbrev Outputs.Inv (o : Outputs) : Prop := o.ind ≠ 3 ∧ o.det ≠ 3 ∧ o.dig.inRange = true

/-- R39: the schedule does not end before it starts. -/
abbrev Buzzer.Inv (bz : Buzzer) : Prop := bz.startTime.toNat ≤ bz.endTime.toNat

/-- The stored anchors are earlier timestamps (R13, R231): no elapsed time is negative. -/
abbrev State.AnchorsPast (s : State) : Prop :=
  s.dev.lastTickTime.toNat ≤ s.io.clock.toNat ∧ s.bz.startTime.toNat ≤ s.io.clock.toNat

/-- What every operation keeps. -/
abbrev State.Inv (s : State) : Prop :=
  s.bs.Inv ∧ s.dev.Inv ∧ s.out.Inv ∧ s.bz.Inv ∧ s.AnchorsPast

/-- What holds between port operations (the second invariant of R25, R22, the phase invariant of R27, R152 to R155):
nothing is read ahead, the writer is at the end, a collected frame starts with the magic and its length byte, and it
is not complete. -/
abbrev State.PortInv (s : State) : Prop :=
  s.bs.ri = 0 ∧ s.bs.wi = s.bs.size ∧ s.bs.capacity = Config.params.cap ∧ s.bs.size ≤ s.bs.capacity ∧
    (s.expected = none → s.bs.size ≤ 4) ∧
    (s.expected ≠ none → 5 ≤ s.bs.size ∧ s.bs.startsWithMagic = true ∧ s.expected = some (s.bs.peek 4)) ∧
    s.frameComplete = false

/-! ## The environment's duties and safe runs -/

/-- The clock does not run backward (R302 (c)): `now` is not below the largest timestamp given since reset. -/
abbrev State.TimeOk (s : State) (now : Time) : Prop := s.io.clock.toNat ≤ now.toNat

/-- A step is safe when it neither faults nor refuses. -/
def SafeStep (s : State) : Prop := ∃ t, step s = .next t

/-- The clock duty of a whole pass (R251, R302 (c)): its timestamps do not decrease, from the latest one on. -/
abbrev Pass.OnTime (p : Pass) (s : State) : Prop :=
  (s.io.clock :: p.rx.map Prod.snd ++ [p.now]).Pairwise (fun a b => a.toNat ≤ b.toNat)

end Sys2Proof.Machine

namespace Sys2Proof

/-- The timestamp an operation carries (R48). -/
def Instr.timestamp : Instr → Option Time
  | .rx _ now => some now
  | .tick now _ => some now
  | .validate now => some now
  | .apply _ now => some now
  | .frame _ now => some now
  | .controlWord _ _ _ _ now => some now
  | .cmdReject _ now => some now
  | .cmdEstop _ now => some now
  | .cmdStart _ now => some now
  | .cmdStop _ now => some now
  | .cmdUpdate _ now => some now
  | _ => none

/-- The operation keeps the clock duty (R302 (c)). -/
def Instr.onTime (i : Instr) (s : Machine.State) : Bool :=
  match i.timestamp with
  | some now => decide (s.TimeOk now)
  | none => true

/-- The port operations of R94, which the control loop asks for (R251). -/
def Instr.isPort : Instr → Bool
  | .reset | .sample _ | .rx _ _ | .tick _ _ | .flush => true
  | _ => false

end Sys2Proof
end

