-- ==== Sys2Proof/Certificates/Slice0/Obligations.lean ====
section
/-! DEFINITION. The statements for the provers, each from the numbered rules of spec/. The names of
`Sys2Proof.Claims` say in arithmetic and list terms what the rules say in words, so that a statement does not lean on
the function it is about. -/

namespace Sys2Proof.Claims

open Sys2Proof.Machine

/-- The number that bytes stand for, most significant first (R64). -/
def beValue (l : List Byte) : Nat := l.foldl (fun v b => v * 256 + b.toNat) 0

/-- The first `n` bytes of a list, filled with zero bytes on the right (R62, R116). -/
def firstBytes (n : Nat) (l : List Byte) : List Byte := (l ++ List.replicate n 0).take n

/-- The 32-bit big-endian word at offset `k`, missing bytes zero (R87, R190). -/
def wordAt (l : List Byte) (k : Nat) : Word32 := BitVec.ofNat 32 (beValue (firstBytes 4 (l.drop k)))

/-- The sum of bytes taken as unsigned values (R173). -/
def byteSum (l : List Byte) : Nat := (l.map BitVec.toNat).sum

/-- The checksum field at offset 5 equals the sum of the bytes from offset 9 on, modulo 2^32 (R81, R173). -/
abbrev ChecksumOk (frame : List Byte) : Prop := wordAt frame 5 = BitVec.ofNat 32 (byteSum (frame.drop 9))

/-- The Command carried by a frame: control word at offset 9, then the three integers (R63, R186). -/
def frameCommand (frame : List Byte) : Command :=
  Command.ofWords (wordAt frame 9) (wordAt frame 13) (wordAt frame 17) (wordAt frame 21)

/-- What the digits show for a time (R208, R44). -/
def shown (enabled : Bool) (time : Int) : Digits :=
  if enabled then .value (BitVec.ofNat 10 (min time.toNat 999)) else .blank

/-- The guard of R201: the Command carries the matchplay flag and another pair than the unit's mode. -/
abbrev Guarded (c : Command) (d : DeviceState) : Prop := c.matchplay = true ∧ c.detail ≠ d.matchplayMode.code

/-- The DeviceState after the field updates of R205 to R208. -/
def fieldsDev (c : Command) (d : DeviceState) : DeviceState :=
  { d with
    countdownContinues := d.countdownContinues || c.countdownContinues
    lastEnd := c.lastEnd
    startNumBeeps := c.startBeeps
    endNumBeeps := c.endBeeps
    colour := c.colour
    detail := c.detail
    time := BitVec.ofInt 32 (max c.time.toInt 0)
    timeEnabled := c.timeEnabled }

/-- R207, R208: whether the Command changes the stored colour, the stored detail, the stored time or timeEnabled. -/
abbrev ColourChanges (c : Command) (d : DeviceState) : Prop := c.colour ≠ d.colour ∧ c.colour ≠ 3

abbrev DetailChanges (c : Command) (d : DeviceState) : Prop := c.detail ≠ d.detail ∧ c.detail ≠ 3

abbrev TimeChanges (c : Command) (d : DeviceState) : Prop :=
  max c.time.toInt 0 ≠ d.time.toInt ∨ c.timeEnabled ≠ d.timeEnabled

/-- The output registers after the field updates of R207 and R208: each intent only on a change, code 3 never. -/
def fieldsOut (c : Command) (d : DeviceState) (o : Outputs) : Outputs :=
  { ind := if ColourChanges c d then c.colour else o.ind
    det := if DetailChanges c d then c.detail else o.det
    dig := if TimeChanges c d then shown c.timeEnabled (max c.time.toInt 0) else o.dig
    tone := o.tone
    dirty := o.dirty || decide (ColourChanges c d ∨ DetailChanges c d ∨ TimeChanges c d) }

/-- The output registers of the Blank display (R212). -/
def blankOut (o : Outputs) : Outputs := { o with ind := 0, det := 0, dig := .blank, dirty := true }

/-- The output registers after a full redisplay (R245). -/
def redisplayOut (d : DeviceState) (o : Outputs) : Outputs :=
  { o with
    ind := if d.colour = 3 then o.ind else d.colour
    det := if d.detail = 3 then o.det else d.detail
    dig := shown d.timeEnabled d.time.toInt
    dirty := true }

/-- What `sound(n, now)` does to the schedule (R240): nothing for a count below 1, else a window of `n * 1000` ms;
where 64 bits do not hold its end, the end is only not before the start (log entry 6). -/
def Sounded (n : Int) (now : Time) (old new : Buzzer) : Prop :=
  if n < 1 then new = old
  else new.active = true ∧ new.startTime = now ∧ now.toNat ≤ new.endTime.toNat ∧
    (now.toNat + n.toNat * 1000 < 2 ^ 64 → new.endTime.toNat = now.toNat + n.toNat * 1000)

/-- A countdown event is due (R231): Counting, and 1000 ms have passed since the anchor. -/
abbrev Due (now : Time) (d : DeviceState) : Prop := d.mode = .counting ∧ d.lastTickTime.toNat + 1000 ≤ now.toNat

/-- A running schedule whose end has been reached (R243). -/
abbrev Elapsed (now : Time) (bz : Buzzer) : Prop := bz.active = true ∧ bz.endTime.toNat ≤ now.toNat

/-- The tone after a `TICK` that finds the running schedule not yet ended (R242). -/
def toggled (now : Time) (vol : Volume) (bz : Buzzer) (tone : Tone) : Tone :=
  if (now.toNat - bz.startTime.toNat) / 500 % 2 = 0 then
    (if tone = .off then (match vol with | .mute => .off | .quiet => .quiet | .loud => .loud) else tone)
  else .off

/-- The tone after part B of a `TICK` (R241 to R243). -/
def toneAfter (now : Time) (vol : Volume) (bz : Buzzer) (tone : Tone) : Tone :=
  if bz.active then (if bz.endTime.toNat ≤ now.toNat then .off else toggled now vol bz tone) else tone

/-- Two states that agree in all but the bytes of the array at or above `size` (U1). -/
abbrev SameButStale (s t : State) : Prop :=
  t.bs.bytes = s.bs.bytes ∧ t = { s with bs := { s.bs with mem := t.bs.mem } }

/-- Two states that agree in all but `S.lastEnd` (R31). -/
abbrev SameButLastEnd (s t : State) : Prop := t = { s with dev := { s.dev with lastEnd := t.dev.lastEnd } }

/-- The block waits for a frame with nothing in its buffer: right after reset or after the disposal of a frame. -/
abbrev Waiting (s : State) : Prop := s.expected = none ∧ s.bs.size = 0

/-- `RX` of each byte at one timestamp (R98). -/
def rxAll (now : Time) (bytes : List Byte) : List Instr := bytes.map (fun b => Instr.rx b now)

/-- One bit of one byte of a list flipped. -/
def flipBit (l : List Byte) (k j : Nat) : List Byte := l.modify k (fun b => b ^^^ BitVec.ofNat 8 (2 ^ j))

/-- The stream holds no occurrence of the magic. -/
abbrev NoMagic (l : List Byte) : Prop := ¬ Config.magic <:+: l

end Sys2Proof.Claims

open Sys2Proof Sys2Proof.Machine Sys2Proof.Claims

/-! ## Steps, stops, encodings -/

/-- A step takes the oldest request and runs the operation it decodes to; with no request and no pass to make nothing
happens; a request that encodes no operation is refused (the model's choices: log entries 1, 3). -/
def Obligations.StepRunsDecodedRequest : Prop :=
  (∀ (s : State) (r : Request) (rest : List Request) (i : Instr), s.io.input = r :: rest → decode r = .ok i →
      step s = exec i { s with io := { s.io with input := rest } }) ∧
  (∀ s : State, s.io.input = [] → s.io.passes = [] → step s = .next s) ∧
  (∀ (s : State) (r : Request) (rest : List Request) (e : DecodeError), s.io.input = r :: rest →
      decode r = .error e → step s = .refused (.undecodable e))

/-- Every operation completes in a state inside the array when its timestamp keeps the clock duty; and it stops
only outside these (the model's choices: log entries 7, 12). -/
def Obligations.EveryOperationCompletesWithinDuties : Prop :=
  ∀ (i : Instr) (s : State),
    (s.bs.insideArray = true → i.onTime s = true → ∃ t, exec i s = .next t) ∧
    (∀ r, exec i s = .fault r → s.bs.insideArray = false) ∧
    (∀ r, exec i s = .refused r → r = .clockRanBackward ∧ i.onTime s = false)

/-- Decode and encode agree, for every well-formed operation with every operand (the requests' bytes are the model's,
log entry 2, over the codes of R94 to R96 and the frame of R81). -/
def Obligations.DecodeOfEncodeIsIdentity : Prop :=
  ∀ i : Instr, i.wf = true → decode (encode i) = .ok i

/-- Five requests written out from 30_encoding.md R81, R94 to R96 decode to the operations they stand for (operand
bytes as log entry 2 lays them out), and two are refused: an operation-select byte that R94 to R96 do not give, and
input code 3, whose refusal is the model's choice (U6, log entry 14). -/
def Obligations.SpecWordsDecode : Prop :=
  decode ⟨.opsel, [0x01, 0x01]⟩ = .ok (.sample .ab) ∧
  decode ⟨.opsel, [0x02, 0xA4, 0, 0, 0, 0, 0, 0, 0x27, 0x10]⟩ = .ok (.rx 0xA4 10000) ∧
  decode ⟨.opsel, [0x24]⟩ = .ok .bsRdu32 ∧
  decode ⟨.opsel, [0x34, 0xFF, 0xFF, 0xFF, 0xFF]⟩ = .ok (.bsSetri (-1)) ∧
  decode ⟨.opsel, [0x05]⟩ = .error (.unknownOpsel 0x05) ∧
  decode ⟨.opsel, [0x01, 0x03]⟩ = .error (.badInputCode 0x03) ∧
  decode ⟨.frame, [0xA4, 0x11, 0xE4, 0xD8, 0x06, 0x01, 0, 0, 0, 0, 0, 0, 0, 0x07]⟩ = .ok (.frame ⟨6, [1]⟩ 7)

/-- R186, R187, R86: the Command's fields as bits of the control word, in arithmetic. -/
def Obligations.ControlWordFieldLayout : Prop :=
  ∀ (cw t sb eb : Word32),
    let c := Command.ofWords cw t sb eb
    c.timeEnabled = decide (cw.toNat % 2 = 1) ∧
    c.colour.toNat = cw.toNat / 2 % 4 ∧
    c.detail.toNat = cw.toNat / 8 % 4 ∧
    c.countdownActive = decide (cw.toNat / 32 % 2 = 1) ∧
    c.matchplay = decide (cw.toNat / 64 % 2 = 1) ∧
    c.emergencyStop = decide (cw.toNat / 128 % 2 = 1) ∧
    c.lastEnd = decide (cw.toNat / 256 % 2 = 1) ∧
    c.countdownContinues = decide (cw.toNat / 512 % 2 = 1) ∧
    c.time = t ∧ c.startBeeps = sb ∧ c.endBeeps = eb

/-- R188, R93 (the spec's decision D12): two control words that agree in bits 9:0 do the same. -/
def Obligations.UpperControlWordBitsIgnored : Prop :=
  ∀ (cw cw' t sb eb : Word32) (now : Time) (s : State), cw.toNat % 1024 = cw'.toNat % 1024 →
    exec (.controlWord cw t sb eb now) s = exec (.controlWord cw' t sb eb now) s

/-! ## Reset, sampling, flushing -/

/-- `RESET` leaves every piece of state at the value of R50 (the spec's decision D30), the array with nothing listed
(the model's choice, log entry 4); what the environment still asks for stays (log entry 1). -/
def Obligations.ResetLeavesResetValues : Prop :=
  ∀ s : State, ∃ t, exec .reset s = .next t ∧
    t.bs = { mem := [], capacity := 256, size := 0, ri := 0, wi := 0 } ∧
    t.expected = none ∧
    t.dev = { mode := .blank, countdownContinues := false, lastEnd := false, countdown := false, detail := 0,
              colour := 0, timeEnabled := false, time := 0, startNumBeeps := 0, endNumBeeps := 0,
              matchplayMode := .none, lastTickTime := 0 } ∧
    t.bz = { active := false, startTime := 0, endTime := 0 } ∧
    t.out = { ind := 0, det := 0, dig := .blank, tone := .off, dirty := true } ∧
    t.io.input = s.io.input ∧ t.io.passes = s.io.passes ∧ t.arch = State.reset.arch

/-- `SAMPLE(mp)` writes the matchplay mode and nothing else (R250 with the spec's decision D27). -/
def Obligations.SampleStoresMatchplayMode : Prop :=
  ∀ (mp : Matchplay) (s : State), ∃ t, exec (.sample mp) s = .next t ∧
    t.arch = { s.arch with dev := { s.dev with matchplayMode := mp } } ∧ t.io.trace = []

/-- `FLUSH` (R252, the spec's decision D26): exactly when an intent is pending and no frame is being assembled, the
display driver takes the three intents and the dirty flag clears; nothing else changes. -/
def Obligations.FlushOnlyWhenDirtyAndHunting : Prop :=
  ∀ s : State, ∃ t, exec .flush s = .next t ∧
    (if s.out.dirty = true ∧ s.expected = none then
      t.arch = { s.arch with out := { s.out with dirty := false } } ∧
      t.io.flushed = some ⟨s.out.ind, s.out.det, s.out.dig⟩ ∧ t.io.trace = [.flush]
    else t.arch = s.arch ∧ t.io.flushed = none ∧ t.io.trace = [])

/-! ## The tick -/

/-- R232: a countdown event with more than one second left decrements the time, redisplays it and moves the anchor to
`now`; the buzzer part touches only the tone and the active flag (the spec's decisions D17, D20, D39). -/
def Obligations.TickDecrementsCountdown : Prop :=
  ∀ (now : Time) (vol : Volume) (s : State), s.TimeOk now → s.dev.countdown = true → Due now s.dev →
    1 < s.dev.time.toInt →
    ∃ t, exec (.tick now vol) s = .next t ∧
      t.dev.time.toInt = s.dev.time.toInt - 1 ∧
      t.dev = { s.dev with time := t.dev.time, lastTickTime := now } ∧
      t.out = { s.out with
        dig := shown s.dev.timeEnabled (s.dev.time.toInt - 1)
        dirty := true
        tone := toneAfter now vol s.bz s.out.tone } ∧
      t.bz = { s.bz with active := s.bz.active && !decide (Elapsed now s.bz) } ∧
      s.SameIngest t ∧
      t.io.trace = .countdownDec :: (if Elapsed now s.bz then [.buzzerEnd] else [])

/-- R234 without the continue flag: the end beeps start, the countdown stops, the block enters Blank; when no end beep
sounds and an older schedule has ended, the same `TICK` goes on to Idle (R254; the spec's decisions D16, D18, D20,
D23). -/
def Obligations.TickEndsCountdown : Prop :=
  ∀ (now : Time) (vol : Volume) (s : State), s.TimeOk now → s.dev.countdown = true → Due now s.dev →
    0 ≤ s.dev.time.toInt → s.dev.time.toInt ≤ 1 → s.dev.countdownContinues = false →
    ∃ t, exec (.tick now vol) s = .next t ∧ s.SameIngest t ∧
      (1 ≤ s.dev.endNumBeeps.toInt → now.toNat + s.dev.endNumBeeps.toInt.toNat * 1000 < 2 ^ 64 →
        t.dev = { s.dev with countdown := false, mode := .blank } ∧
        t.bz.active = true ∧ t.bz.startTime = now ∧
        t.bz.endTime.toNat = now.toNat + s.dev.endNumBeeps.toInt.toNat * 1000 ∧
        t.out = { blankOut s.out with tone := toneAfter now vol t.bz s.out.tone } ∧
        t.io.trace = [.countdownEnd]) ∧
      (s.dev.endNumBeeps.toInt < 1 → ¬ Elapsed now s.bz →
        t.dev = { s.dev with countdown := false, mode := .blank } ∧ t.bz = s.bz ∧
        t.out = { blankOut s.out with tone := toneAfter now vol s.bz s.out.tone } ∧
        t.io.trace = [.countdownEnd]) ∧
      (s.dev.endNumBeeps.toInt < 1 → Elapsed now s.bz →
        t.dev = { s.dev with countdown := false, mode := .idle } ∧ t.bz = { s.bz with active := false } ∧
        t.out = { redisplayOut s.dev (blankOut s.out) with tone := .off } ∧
        t.io.trace = [.countdownEnd, .buzzerEnd])

/-- R234 with the continue flag: the end beeps start, the flag is consumed, the block stays Counting with the anchor
at `now` and the time as it is; no display intent is issued (the spec's decisions D18, D19, D20). -/
def Obligations.TickContinuesCountdown : Prop :=
  ∀ (now : Time) (vol : Volume) (s : State), s.TimeOk now → s.dev.countdown = true → Due now s.dev →
    s.dev.time.toInt ≤ 1 → s.dev.countdownContinues = true →
    ∃ t, exec (.tick now vol) s = .next t ∧ s.SameIngest t ∧
      t.dev = { s.dev with countdownContinues := false, lastTickTime := now } ∧
      t.out.ind = s.out.ind ∧ t.out.det = s.out.det ∧ t.out.dig = s.out.dig ∧ t.out.dirty = s.out.dirty ∧
      .countdownEndContinue ∈ t.io.trace ∧
      (∃ b, Sounded s.dev.endNumBeeps.toInt now s.bz b ∧
        t.bz = { b with active := b.active && !decide (Elapsed now b) } ∧
        t.out.tone = toneAfter now vol b s.out.tone)

/-- R242: while the schedule runs, an even phase of 500 ms wants the tone on (the volume is read when the tone is
off), an odd phase wants it off; nothing else changes (the spec's decision D17). -/
def Obligations.TickTogglesTone : Prop :=
  ∀ (now : Time) (vol : Volume) (s : State), s.TimeOk now → ¬ Due now s.dev → s.bz.active = true →
    now.toNat < s.bz.endTime.toNat →
    ∃ t, exec (.tick now vol) s = .next t ∧
      t.arch = { s.arch with out := { s.out with tone := toggled now vol s.bz s.out.tone } } ∧ t.io.trace = []

/-- R243: at the schedule's end the tone goes off; with no countdown active the block enters Idle and shows the stored
state in full, otherwise the mode and the display stay (the spec's decisions D23, D39). -/
def Obligations.TickEndsSchedule : Prop :=
  ∀ (now : Time) (vol : Volume) (s : State), s.TimeOk now → ¬ Due now s.dev → Elapsed now s.bz →
    0 ≤ s.dev.time.toInt →
    ∃ t, exec (.tick now vol) s = .next t ∧ s.SameIngest t ∧ t.bz = { s.bz with active := false } ∧
      t.io.trace = [.buzzerEnd] ∧
      (if s.dev.countdown = true then t.dev = s.dev ∧ t.out = { s.out with tone := .off }
      else t.dev = { s.dev with mode := .idle } ∧ t.out = { redisplayOut s.dev s.out with tone := .off })

/-- R230, corner case: a `TICK` with neither condition true changes nothing at all. -/
def Obligations.TickWithNothingDueChangesNothing : Prop :=
  ∀ (now : Time) (vol : Volume) (s : State), s.TimeOk now → ¬ Due now s.dev → s.bz.active = false →
    ∃ t, exec (.tick now vol) s = .next t ∧ t.arch = s.arch ∧ t.io.trace = []

/-- R235: a start command with time `T >= 2` at `t0` and ticks every 1000 ms show `T - 1 - k` after `k` ticks, and the
tick number `T - 1` is the countdown's end (an inference of the spec from R231, R232, R234, R209). -/
def Obligations.CountdownCadence : Prop :=
  ∀ (c : Command) (t0 : Time) (vol : Volume) (s : State) (k : Nat), s.Inv → s.TimeOk t0 → ¬ Guarded c s.dev →
    c.emergencyStop = false → c.countdownActive = true → s.dev.countdown = false → 2 ≤ c.time.toInt →
    t0.toNat + k * 1000 < 2 ^ 64 →
    let ticks := (List.range k).map (fun j => Instr.tick (BitVec.ofNat 64 (t0.toNat + (j + 1) * 1000)) vol)
    ((k : Int) < c.time.toInt - 1 → ∃ t, execAll (.apply c t0 :: ticks) s = .next t ∧ t.dev.mode = .counting ∧
      t.dev.time.toInt = c.time.toInt - 1 - k ∧ t.out.dig = shown c.timeEnabled (c.time.toInt - 1 - k)) ∧
    ((k : Int) = c.time.toInt - 1 → ∃ t, execAll (.apply c t0 :: ticks) s = .next t ∧
      (if s.dev.countdownContinues = true ∨ c.countdownContinues = true then .countdownEndContinue ∈ t.io.trace
      else .countdownEnd ∈ t.io.trace ∧ t.dev.countdown = false))

/-! ## ByteStream primitives -/

/-- R112: a byte is stored at the writer, which moves on, and the size is the larger of its old value and the new
writer index (the spec's decision D3); a full buffer drops it. No other valid byte changes. -/
def Obligations.AppendStoresAtWriter : Prop :=
  ∀ (b : Byte) (s : State), s.bs.Inv → ∃ t, exec (.bsAppend b) s = .next t ∧ s.SameDevice t ∧
    t.expected = s.expected ∧ t.bs.ri = s.bs.ri ∧ t.bs.capacity = s.bs.capacity ∧
    (if s.bs.wi < s.bs.capacity then
      t.bs.wi = s.bs.wi + 1 ∧ t.bs.size = max s.bs.size (s.bs.wi + 1) ∧ t.bs.mem.read s.bs.wi = b ∧
      (∀ p, p < s.bs.size → p ≠ s.bs.wi → t.bs.mem.read p = s.bs.mem.read p) ∧
      (∀ p, s.bs.wi < p → t.bs.mem.read p = s.bs.mem.read p) ∧ t.io.trace = []
    else t.bs = s.bs ∧ t.io.trace = [.bufferOverflow])

/-- R113: a peek returns the unread byte at its offset, or zero beyond the valid bytes, and changes nothing. -/
def Obligations.PeekReturnsUnreadByteOrZero : Prop :=
  ∀ (off : Word16) (s : State), s.bs.insideArray = true → ∃ t, exec (.bsPeek off) s = .next t ∧ t.arch = s.arch ∧
    t.io.result = .byte (s.bs.unread.getD off.toNat 0) ∧ t.io.trace = []

/-- R114: a consume returns the next unread byte and moves past it, or returns zero and stays (the spec's decision
D4). -/
def Obligations.ConsumeReturnsNextByteOrZero : Prop :=
  ∀ s : State, s.bs.insideArray = true → ∃ t, exec .bsConsume s = .next t ∧
    t.arch = { s.arch with bs := { s.bs with ri := s.bs.ri + min 1 s.bs.unread.length } } ∧
    t.io.result = .byte (s.bs.unread.getD 0 0) ∧ t.io.trace = []

/-- R115, R116, R117, R121, R122: a wide read returns the next bytes, most significant first, zero bytes in place of
those beyond the valid ones, and moves past the valid bytes it took; the float accessors return the pattern. -/
def Obligations.WideReadsAreBigEndian : Prop :=
  ∀ s : State, s.bs.insideArray = true →
    let reads := fun (i : Instr) (n : Nat) (res : Nat → Result) => ∃ t, exec i s = .next t ∧
      t.arch = { s.arch with bs := { s.bs with ri := s.bs.ri + min n s.bs.unread.length } } ∧
      t.io.result = res (beValue (firstBytes n s.bs.unread)) ∧ t.io.trace = []
    reads .bsRdu16 2 (fun v => .u16 (BitVec.ofNat 16 v)) ∧ reads .bsRdu32 4 (fun v => .u32 (BitVec.ofNat 32 v)) ∧
    reads .bsRdu64 8 (fun v => .u64 (BitVec.ofNat 64 v)) ∧ reads .bsRdf32 4 (fun v => .f32 (BitVec.ofNat 32 v)) ∧
    reads .bsRdf64 8 (fun v => .f64 (BitVec.ofNat 64 v))

/-- R118, R119, R120: a signed read is the unsigned one read in two's complement (general knowledge, G1). -/
def Obligations.SignedReadsAreTwosComplement : Prop :=
  ∀ s : State, s.bs.insideArray = true →
    let reads := fun (i : Instr) (n : Nat) => ∃ t, exec i s = .next t ∧
      t.arch = { s.arch with bs := { s.bs with ri := s.bs.ri + min n s.bs.unread.length } } ∧ t.io.trace = [] ∧
      let v := beValue (firstBytes n s.bs.unread)
      t.io.result = .signed (if v < 2 ^ (8 * n - 1) then (v : Int) else (v : Int) - 2 ^ (8 * n))
    reads .bsRdi16 2 ∧ reads .bsRdi32 4 ∧ reads .bsRdi64 8

/-- R123 to R130: a wide write stores its bytes, most significant first, as far as the capacity goes, drops the rest
with one event each, and changes no byte beyond, and no valid byte before, those it stores (the spec's decisions D3,
D41). -/
def Obligations.WideWritesAreBigEndian : Prop :=
  ∀ s : State, s.bs.Inv →
    let writes := fun (i : Instr) (n v : Nat) =>
      let k := min n (s.bs.capacity - s.bs.wi)
      ∃ t, exec i s = .next t ∧ s.SameDevice t ∧ t.expected = s.expected ∧ t.bs.ri = s.bs.ri ∧
        t.bs.capacity = s.bs.capacity ∧ t.bs.wi = s.bs.wi + k ∧
        t.bs.size = (if k = 0 then s.bs.size else max s.bs.size (s.bs.wi + k)) ∧
        (∀ j, j < k → (t.bs.mem.read (s.bs.wi + j)).toNat = v / 256 ^ (n - 1 - j) % 256) ∧
        (∀ p, p < s.bs.size ∧ p < s.bs.wi ∨ s.bs.wi + k ≤ p → t.bs.mem.read p = s.bs.mem.read p) ∧
        t.io.trace = List.replicate (n - k) .bufferOverflow
    (∀ v, writes (.bsWru16 v) 2 v.toNat) ∧ (∀ v, writes (.bsWru32 v) 4 v.toNat) ∧
    (∀ v, writes (.bsWru64 v) 8 v.toNat) ∧
    (∀ v, writes (.bsWri16 v) 2 (v.toInt % 65536).toNat) ∧ (∀ v, writes (.bsWri32 v) 4 (v.toInt % 4294967296).toNat) ∧
    (∀ v, writes (.bsWri64 v) 8 (v.toInt % 18446744073709551616).toNat) ∧
    (∀ v, writes (.bsWrf32 v) 4 v.toNat) ∧ (∀ v, writes (.bsWrf64 v) 8 v.toNat)

/-- R136, an inference of the spec: every value written at the end of the buffer is read back, whatever its width and
kind. -/
def Obligations.WriteThenReadRoundTrip : Prop :=
  ∀ s : State, s.bs.Inv → s.bs.wi = s.bs.size → s.bs.ri = s.bs.size →
    let back := fun (w r : Instr) (n : Nat) (res : Result) => s.bs.size + n ≤ s.bs.capacity →
      ∃ t u, exec w s = .next t ∧ exec r t = .next u ∧ u.io.result = res ∧ u.bs.ri = u.bs.size
    (∀ v, back (.bsWru16 v) .bsRdu16 2 (.u16 v)) ∧ (∀ v, back (.bsWru32 v) .bsRdu32 4 (.u32 v)) ∧
    (∀ v, back (.bsWru64 v) .bsRdu64 8 (.u64 v)) ∧ (∀ v, back (.bsWri16 v) .bsRdi16 2 (.signed v.toInt)) ∧
    (∀ v, back (.bsWri32 v) .bsRdi32 4 (.signed v.toInt)) ∧ (∀ v, back (.bsWri64 v) .bsRdi64 8 (.signed v.toInt)) ∧
    (∀ v, back (.bsWrf32 v) .bsRdf32 4 (.f32 v)) ∧ (∀ v, back (.bsWrf64 v) .bsRdf64 8 (.f64 v))

/-- R131: a capacity the array can hold is granted, with the counters clamped and the bytes kept; any other request
fails with the status and changes nothing (the spec's decision D7). -/
def Obligations.ResizeGrantsOrFailsUnchanged : Prop :=
  ∀ (n : Word32) (s : State), ∃ t, exec (.bsResize n) s = .next t ∧
    (if 0 ≤ n.toInt ∧ n.toInt ≤ 256 then
      t.arch = { s.arch with
        bs := { s.bs with
          capacity := n.toInt.toNat
          size := min s.bs.size n.toInt.toNat
          wi := min s.bs.wi n.toInt.toNat
          ri := min s.bs.ri (min s.bs.size n.toInt.toNat) } } ∧
      t.io.result = .status .ok ∧ t.io.trace = []
    else t.arch = s.arch ∧ t.io.result = .status .allocFail ∧ t.io.trace = [.allocFail])

/-- R132: the reader index is set, clamped into 0 to `size` (the operand is signed by the spec's decision D6). -/
def Obligations.SetReaderClamps : Prop :=
  ∀ (i : Word32) (s : State), ∃ t, exec (.bsSetri i) s = .next t ∧ t.io.trace = [] ∧
    t.arch = { s.arch with bs := { s.bs with ri := t.bs.ri } } ∧
    (t.bs.ri : Int) = min (max i.toInt 0) s.bs.size

/-- R133: the writer index is set, clamped into 0 to `capacity`; the size is not changed. -/
def Obligations.SetWriterClamps : Prop :=
  ∀ (i : Word32) (s : State), ∃ t, exec (.bsSetwi i) s = .next t ∧ t.io.trace = [] ∧
    t.arch = { s.arch with bs := { s.bs with wi := t.bs.wi } } ∧
    (t.bs.wi : Int) = min (max i.toInt 0) s.bs.capacity

/-- R134: the three counters are zero, the capacity and the bytes of the array stay; every read then returns zero. -/
def Obligations.ClearZeroesCountersOnly : Prop :=
  ∀ s : State, ∃ t, exec .bsClear s = .next t ∧ t.io.trace = [] ∧
    t.arch = { s.arch with bs := { s.bs with size := 0, ri := 0, wi := 0 } } ∧
    (s.bs.insideArray = true → ∀ off : Word16, ∃ u, exec (.bsPeek off) t = .next u ∧ u.io.result = .byte 0) ∧
    (s.bs.insideArray = true →
      ∀ r ∈ [(Instr.bsConsume, Result.byte 0), (.bsRdu16, .u16 0), (.bsRdu32, .u32 0), (.bsRdu64, .u64 0),
        (.bsRdi16, .signed 0), (.bsRdi32, .signed 0), (.bsRdi64, .signed 0), (.bsRdf32, .f32 0), (.bsRdf64, .f64 0)],
      ∃ u, exec r.1 t = .next u ∧ u.io.result = r.2)

/-- R135: the unread bytes become the whole buffer; nothing at or above the moved bytes is written. -/
def Obligations.CompactKeepsUnreadBytes : Prop :=
  ∀ s : State, s.bs.Inv → ∃ t, exec .bsCompact s = .next t ∧ t.io.trace = [] ∧
    t.bs.bytes = s.bs.unread ∧ t.bs.size = s.bs.size - s.bs.ri ∧ t.bs.ri = 0 ∧ t.bs.wi = t.bs.size ∧
    (∀ p, t.bs.size ≤ p → t.bs.mem.read p = s.bs.mem.read p) ∧
    t.arch = { s.arch with bs := { t.bs with capacity := s.bs.capacity } }

/-! ## The pipeline -/

/-- R152 to R154, the stage `SYNC` with the reader at the start: with five bytes and no header matched, the magic
records the length byte, anything else drops exactly the oldest byte; at any other time nothing happens (the spec's
decision D8). -/
def Obligations.SyncLocksOrDropsOldestByte : Prop :=
  ∀ s : State, s.bs.Inv → s.bs.ri = 0 → ∃ t, exec .sync s = .next t ∧ s.SameDevice t ∧
    (if s.expected = none ∧ s.bs.size = 5 then
      if s.bs.bytes.take 4 = [0xA4, 0x11, 0xE4, 0xD8] then
        t.bs = s.bs ∧ t.expected = some (s.bs.mem.read 4) ∧ t.io.trace = [.headerLock]
      else t.bs.bytes = s.bs.bytes.tail ∧ t.bs.size = 4 ∧ t.bs.wi = 4 ∧ t.bs.ri = 0 ∧
        t.bs.capacity = s.bs.capacity ∧ (∀ p, 4 ≤ p → t.bs.mem.read p = s.bs.mem.read p) ∧ t.expected = none ∧
        t.io.trace = [.framingNoise]
    else s.SameIngest t ∧ t.io.trace = [])

/-- R151, R255 (an inference of the spec): a byte that completes no header and no frame is appended, or dropped when
the buffer is full. -/
def Obligations.RxGathersBytes : Prop :=
  ∀ (b : Byte) (now : Time) (s : State), s.bs.Inv → s.PortInv → s.TimeOk now →
    (s.expected = none → s.bs.size < 4) → (∀ l, s.expected = some l → s.bs.size + 1 ≠ l.toNat) →
    ∃ t, exec (.rx b now) s = .next t ∧ s.SameDevice t ∧ t.expected = s.expected ∧ t.bs.ri = 0 ∧
      t.bs.wi = t.bs.size ∧ t.bs.capacity = s.bs.capacity ∧
      (if s.bs.size < s.bs.capacity then t.bs.bytes = s.bs.bytes ++ [b] ∧
        (∀ p, s.bs.size < p → t.bs.mem.read p = s.bs.mem.read p) ∧ t.io.trace = []
      else t.bs = s.bs ∧ t.io.trace = [.bufferOverflow])

/-- R153, R154 in an `RX`: the fifth byte brings the header check; a mismatch drops the oldest byte, a match records
the byte as the length (the spec's decision D8). -/
def Obligations.RxChecksHeader : Prop :=
  ∀ (b : Byte) (now : Time) (s : State), s.bs.Inv → s.PortInv → s.TimeOk now → s.expected = none → s.bs.size = 4 →
    ∃ t, exec (.rx b now) s = .next t ∧ (∀ p, 4 < p → t.bs.mem.read p = s.bs.mem.read p) ∧
      (if s.bs.bytes = [0xA4, 0x11, 0xE4, 0xD8] then
        (b ≠ 5 → s.SameDevice t ∧ t.expected = some b ∧ t.bs.bytes = s.bs.bytes ++ [b] ∧ t.bs.ri = 0 ∧
          t.bs.wi = 5 ∧ t.bs.capacity = s.bs.capacity ∧ t.io.trace = [.headerLock])
      else s.SameDevice t ∧ t.expected = none ∧ t.bs.bytes = s.bs.bytes.tail ++ [b] ∧ t.bs.ri = 0 ∧ t.bs.wi = 4 ∧
        t.bs.capacity = s.bs.capacity ∧ t.io.trace = [.framingNoise])

/-- R155, R170, R176: the byte that completes a frame has it validated at once: its Command is applied when the
checksum holds, and the buffer is empty afterwards either way (the spec's decisions D9, D10). -/
def Obligations.RxCompletesFrame : Prop :=
  ∀ (b : Byte) (now : Time) (s : State) (l : Byte), s.bs.Inv → s.PortInv → s.TimeOk now →
    (s.expected = some l ∧ s.bs.size + 1 = l.toNat ∨
      s.expected = none ∧ s.bs.bytes = [0xA4, 0x11, 0xE4, 0xD8] ∧ l = 5 ∧ b = 5) →
    ∃ t u, exec (.rx b now) s = .next t ∧ exec (.apply (frameCommand (s.bs.bytes ++ [b])) now) s = .next u ∧
      t.expected = none ∧ t.bs.bytes = [] ∧ t.bs.ri = 0 ∧ t.bs.wi = 0 ∧ t.bs.capacity = s.bs.capacity ∧
      (∀ p, p ≠ s.bs.size → t.bs.mem.read p = s.bs.mem.read p) ∧
      (if ChecksumOk (s.bs.bytes ++ [b]) then u.SameDevice t ∧ ([.frameOk] ++ u.io.trace) <:+ t.io.trace
      else s.SameDevice t ∧ t.io.trace = [.checksumFail])

/-- R175: a frame whose checksum does not match is discarded silently: `S`, `bz` and `O` are untouched, the buffer is
cleared and the block hunts again. -/
def Obligations.ValidateDiscardsBadChecksum : Prop :=
  ∀ (now : Time) (s : State) (l : Byte), s.bs.Inv → s.TimeOk now → s.bs.ri = 0 → s.expected = some l →
    s.bs.size = l.toNat → 5 ≤ s.bs.size → ¬ ChecksumOk s.bs.bytes →
    ∃ t, exec (.validate now) s = .next t ∧ s.SameDevice t ∧ t.expected = none ∧
      t.bs = { s.bs with size := 0, ri := 0, wi := 0 } ∧ t.io.trace = [.checksumFail]

/-- R174, R176: a frame whose checksum matches has its Command applied, and is disposed of; a short payload is filled
with zero bytes (R190, the spec's decision D10). -/
def Obligations.ValidateAppliesGoodFrame : Prop :=
  ∀ (now : Time) (s : State) (l : Byte), s.bs.Inv → s.TimeOk now → s.bs.ri = 0 → s.expected = some l →
    s.bs.size = l.toNat → 5 ≤ s.bs.size → ChecksumOk s.bs.bytes →
    ∃ t u, exec (.validate now) s = .next t ∧ exec (.apply (frameCommand s.bs.bytes) now) s = .next u ∧
      u.SameDevice t ∧ t.expected = none ∧ t.bs = { s.bs with size := 0, ri := 0, wi := 0 } ∧
      t.io.trace = .frameOk :: u.io.trace

/-- R185, R190: `DECODE` reads four big-endian words from the reader index on, zero-filled, and moves past them (the
spec's decision D10). -/
def Obligations.DecodeReadsFourWords : Prop :=
  ∀ s : State, s.bs.insideArray = true → ∃ t, exec .decode s = .next t ∧ t.io.trace = [] ∧
    t.io.result = .command (Command.ofWords (wordAt s.bs.unread 0) (wordAt s.bs.unread 4) (wordAt s.bs.unread 8)
      (wordAt s.bs.unread 12)) ∧
    t.arch = { s.arch with bs := { s.bs with ri := s.bs.ri + min 16 s.bs.unread.length } }

/-- R98, R81: receiving a frame is receiving its bytes one after the other at one timestamp (the model's reading of
the row `F`, log entry 11). -/
def Obligations.FrameIsItsBytesReceived : Prop :=
  ∀ (f : Frame) (now : Time) (s : State), s.bs.Inv → s.TimeOk now →
    ∃ t u, exec (.frame f now) s = .next t ∧
      execAll (rxAll now ([0xA4, 0x11, 0xE4, 0xD8, f.len] ++ f.rest)) s = .next u ∧ t.arch = u.arch

/-- R157, an inference of the spec: after any noise that holds no magic, a well-formed frame with a good checksum is
received whole and its Command is applied, once. -/
def Obligations.ResyncDeliversFrame : Prop :=
  ∀ (noise : List Byte) (f : Frame) (now : Time) (s : State), s.Inv → s.PortInv → s.TimeOk now → Waiting s →
    NoMagic noise → f.lengthOk = true → 5 ≤ f.len.toNat → ChecksumOk f.bytes →
    ∃ t u, execAll (rxAll now (noise ++ f.bytes)) s = .next t ∧ exec (.apply (frameCommand f.bytes) now) s = .next u ∧
      u.SameDevice t ∧ Waiting t

/-- R179, an inference of the spec: one flipped payload bit makes an otherwise valid frame be discarded: no Command is
emitted. -/
def Obligations.PayloadBitFlipDiscardsFrame : Prop :=
  ∀ (f : Frame) (k j : Nat) (now : Time) (s : State), s.Inv → s.PortInv → s.TimeOk now → Waiting s →
    f.lengthOk = true → ChecksumOk f.bytes → 4 ≤ k → k < f.rest.length → j < 8 →
    ∃ t, exec (.frame { f with rest := flipBit f.rest k j } now) s = .next t ∧ s.SameDevice t ∧ Waiting t ∧
      t.io.trace = [.headerLock, .checksumFail]

/-- R156: a header whose length byte is below 5 locks the receiver up: whatever port operations but `RESET` follow, no
frame is ever recognised and nothing is flushed (the spec's decision D9, log entry 15). -/
def Obligations.ShortLengthByteLocksUp : Prop :=
  ∀ (l : Byte) (is : List Instr) (s t : State), s.bs.Inv → s.PortInv → s.expected = some l → l.toNat < 5 →
    (∀ i ∈ is, i.isPort = true ∧ i ≠ .reset) → is ≠ [] → execAll is s = .next t →
    t.expected = some l ∧ t.io.flushed = none ∧ s.bs.size ≤ t.bs.size ∧ .frameOk ∉ t.io.trace ∧
      .checksumFail ∉ t.io.trace

/-! ## The command classes -/

/-- R201: a Command the guard rejects leaves everything as it was, whatever else it carries; every other Command is
not rejected, asked for as `CMD.REJECT` or not (that such a request runs as the class of R88 is the model's choice, log
entry 10). -/
def Obligations.GuardedCommandChangesNothing : Prop :=
  ∀ (c : Command) (now : Time) (s : State), s.TimeOk now →
    ∃ t, exec (.apply c now) s = .next t ∧ exec (.cmdReject c now) s = .next t ∧
      (if Guarded c s.dev then t.arch = s.arch ∧ t.io.trace = [.semanticReject] else .semanticReject ∉ t.io.trace)

/-- R203, R204: the emergency stop cancels countdown and buzzer, sounds the five-pulse alert and enters Blank; it uses
no other field of the Command; the tone is off at once and comes on at the next `TICK`, as the volume says. -/
def Obligations.EmergencyStopEffect : Prop :=
  ∀ (c : Command) (now : Time) (s : State), s.TimeOk now → ¬ Guarded c s.dev → c.emergencyStop = true →
    ∃ t, exec (.apply c now) s = .next t ∧ exec (.cmdEstop c now) s = .next t ∧ s.SameIngest t ∧
      t.dev = { s.dev with countdown := false, mode := .blank } ∧
      t.bz.active = true ∧ t.bz.startTime = now ∧
      t.out = { ind := 0, det := 0, dig := .blank, tone := .off, dirty := true } ∧ t.io.trace = [.cmdEstop] ∧
      (now.toNat + 5000 < 2 ^ 64 → t.bz.endTime.toNat = now.toNat + 5000 ∧
        ∀ (later : Time) (vol : Volume), now.toNat ≤ later.toNat → later.toNat < now.toNat + 500 →
          ∃ u, exec (.tick later vol) t = .next u ∧
            u.out.tone = (match vol with | .mute => .off | .quiet => .quiet | .loud => .loud))

/-- R205 to R209: a countdown start stores the Command's fields, anchors the tick clock, pre-decrements the time, shows
it, sounds the start beeps and enters Counting (the spec's decisions D13 to D16, D21, D22, D40). -/
def Obligations.StartCommandEffect : Prop :=
  ∀ (c : Command) (now : Time) (s : State), s.TimeOk now → ¬ Guarded c s.dev → c.emergencyStop = false →
    s.dev.countdown = false → c.countdownActive = true →
    ∃ t, exec (.apply c now) s = .next t ∧ exec (.cmdStart c now) s = .next t ∧ s.SameIngest t ∧
      t.dev = { fieldsDev c s.dev with
        time := BitVec.ofInt 32 (max (max c.time.toInt 0 - 1) 0), lastTickTime := now, countdown := true,
        mode := .counting } ∧
      Sounded c.startBeeps.toInt now s.bz t.bz ∧
      t.out = { fieldsOut c s.dev s.out with
        dig := shown c.timeEnabled (max (max c.time.toInt 0 - 1) 0), dirty := true } ∧
      t.io.trace = [.cmdStart]

/-- R205 to R208 and R210: an explicit stop stores the Command's fields, sounds its end beeps and enters Blank (the
spec's decisions D13 to D16, D21, D22, D24). -/
def Obligations.StopCommandEffect : Prop :=
  ∀ (c : Command) (now : Time) (s : State), s.TimeOk now → ¬ Guarded c s.dev → c.emergencyStop = false →
    s.dev.countdown = true → c.countdownActive = false →
    ∃ t, exec (.apply c now) s = .next t ∧ exec (.cmdStop c now) s = .next t ∧ s.SameIngest t ∧
      t.dev = { fieldsDev c s.dev with countdown := false, mode := .blank } ∧
      Sounded c.endBeeps.toInt now s.bz t.bz ∧ t.out = blankOut s.out ∧ t.io.trace = [.cmdStop]

/-- R205 to R208 and R211: a plain update stores the Command's fields and issues an intent only for what changes
(the spec's decisions D13 to D15, D21, D22, D25, D40). -/
def Obligations.UpdateCommandEffect : Prop :=
  ∀ (c : Command) (now : Time) (s : State), s.TimeOk now → ¬ Guarded c s.dev → c.emergencyStop = false →
    c.countdownActive = s.dev.countdown →
    ∃ t, exec (.apply c now) s = .next t ∧ exec (.cmdUpdate c now) s = .next t ∧ s.SameIngest t ∧
      t.dev = fieldsDev c s.dev ∧ t.bz = s.bz ∧ t.out = fieldsOut c s.dev s.out ∧ t.io.trace = [.cmdUpdate]

/-- R88: a Command asked for as any class runs as the class the state gives it (log entry 10). -/
def Obligations.ClassRequestRunsAsDispatched : Prop :=
  ∀ (cls : CmdClass) (c : Command) (now : Time) (s : State), exec (cls.instr c now) s = exec (.apply c now) s

/-- R86, R87: a control word with its three integers runs as the Command whose fields they carry (log entry 11). -/
def Obligations.ControlWordRunsAsItsCommand : Prop :=
  ∀ (c : Command) (hi : Word32) (now : Time) (s : State), s.TimeOk now →
    ∃ t, exec (.controlWord (c.controlWord ||| (hi <<< 10)) c.time c.startBeeps c.endBeeps now) s = .next t ∧
      exec (.apply c now) s = .next t

/-! ## Rules about the whole machine -/

/-- The invariant of R25, R32, R35, R39, R43 and R44 (D14, D15 and an inference of the spec among them), with the
memory in canonical form, is kept by every step. -/
def Obligations.StepKeepsInvariant : Prop :=
  ∀ s t : State, s.Inv → step s = .next t → t.Inv

/-- The machine right after reset satisfies the invariant, and is between port operations. -/
def Obligations.ResetSatisfiesInvariant : Prop := State.reset.Inv ∧ State.reset.PortInv

/-- R25, R27, R22: between port operations nothing is read ahead, the writer is at the end, the buffer is short while
hunting, and a collected frame starts with the magic and its length byte. -/
def Obligations.PortOperationsKeepDiscipline : Prop :=
  ∀ (i : Instr) (s t : State), s.bs.Inv → s.PortInv → i.isPort = true → exec i s = .next t → t.PortInv

/-- R62, U1: bytes at or above `size` never matter: states that differ only there stay so under every operation, with
the same results and events. -/
def Obligations.StaleBytesNeverMatter : Prop :=
  ∀ (i : Instr) (s s' t : State), s.bs.mem.wf = true → s'.bs.mem.wf = true → SameButStale s s' →
    exec i s = .next t → ∃ t', exec i s' = .next t' ∧ SameButStale t t'

/-- R31, D36: nothing reads `S.lastEnd`: states that differ only there stay so under every operation. -/
def Obligations.LastEndIsNeverRead : Prop :=
  ∀ (i : Instr) (s s' t : State), SameButLastEnd s s' → exec i s = .next t →
    ∃ t', exec i s' = .next t' ∧ SameButLastEnd t t'

/-- R30: the continue flag is set by an accepted Command that carries it, and no operation clears it but a continued
countdown end and `RESET` (the spec's decision D22). -/
def Obligations.ContinueFlagIsSticky : Prop :=
  (∀ (i : Instr) (s t : State), exec i s = .next t → s.dev.countdownContinues = true →
    t.dev.countdownContinues = false →
    i = .reset ∨ ((∃ now vol, i = .tick now vol) ∧ .countdownEndContinue ∈ t.io.trace)) ∧
  (∀ (c : Command) (now : Time) (s : State), s.TimeOk now → ¬ Guarded c s.dev → c.emergencyStop = false →
    c.countdownContinues = true → ∃ t, exec (.apply c now) s = .next t ∧ t.dev.countdownContinues = true)

/-- R37: the matchplay mode is written only by `SAMPLE` and by reset; R22: the capacity only by `BS.RESIZE` and by
reset. -/
def Obligations.WritersOfModeAndCapacity : Prop :=
  ∀ (i : Instr) (s t : State), exec i s = .next t → i ≠ .reset →
    ((∀ mp, i ≠ .sample mp) → t.dev.matchplayMode = s.dev.matchplayMode) ∧
    ((∀ n, i ≠ .bsResize n) → t.bs.capacity = s.bs.capacity)

/-- R254: the display mode changes only by its named causes: to Idle by the end of a schedule in a `TICK`, to Counting
by a start, to Blank by reset, an emergency stop, an explicit stop or a countdown end (an inference of the spec). -/
def Obligations.ModeChangesOnlyByNamedCauses : Prop :=
  ∀ (i : Instr) (s t : State), exec i s = .next t → t.dev.mode ≠ s.dev.mode →
    match t.dev.mode with
    | .idle => (∃ now vol, i = .tick now vol) ∧ .buzzerEnd ∈ t.io.trace
    | .counting => .cmdStart ∈ t.io.trace
    | .blank => i = .reset ∨ .cmdEstop ∈ t.io.trace ∨ .cmdStop ∈ t.io.trace ∨ .countdownEnd ∈ t.io.trace

/-- R277, R278: the emergency stop's alert leads to Idle: the first `TICK` at least 5000 ms later, with nothing in
between, shows the stored state again (the spec's decisions D16, D23, D39). -/
def Obligations.EmergencyStopLeadsToIdle : Prop :=
  ∀ (c : Command) (now later : Time) (vol : Volume) (s : State), s.TimeOk now → ¬ Guarded c s.dev →
    c.emergencyStop = true → 0 ≤ s.dev.time.toInt → now.toNat + 5000 ≤ later.toNat →
    ∃ t, execAll [.apply c now, .tick later vol] s = .next t ∧
      t.dev = { s.dev with countdown := false, mode := .idle } ∧ t.bz.active = false ∧
      t.out = { redisplayOut s.dev (blankOut s.out) with tone := .off }

/-! ## The control loop -/

/-- R251 (the spec's decision D34): when nothing is left to run, a step begins the control loop's next pass. It runs
`SAMPLE`, and leaves to follow, in this order, one `RX` for each byte, one `TICK`, one `FLUSH` (that passes and their
operations stand in lists is the model's choice, log entry 1). -/
def Obligations.StepBeginsPassInLoopOrder : Prop :=
  ∀ (s : State) (p : Pass) (ps : List Pass), s.io.input = [] → s.io.passes = p :: ps →
    step s = exec (.sample p.mp) { s with io := { s.io with
      input := p.rx.map (fun a => encode (.rx a.1 a.2)) ++ [encode (.tick p.now p.vol), encode .flush]
      passes := ps } }

/-- R251, R98 (`PASS`): one step for each byte and three more run the whole pass, `SAMPLE`, the `RX` of each byte,
`TICK`, `FLUSH`, and nothing else (log entry 1). -/
def Obligations.StepsRunWholePass : Prop :=
  ∀ (s : State) (p : Pass) (ps : List Pass), s.io.input = [] → s.io.passes = p :: ps →
    stepN (p.rx.length + 3) s =
      execAll (.sample p.mp :: p.rx.map (fun a => .rx a.1 a.2) ++ [.tick p.now p.vol, .flush])
        { s with io := { s.io with passes := ps } }

/-- R251: the steps of the machine run the passes of the control loop one after the other, each to its end, and stop
where a pass stops (log entry 1). -/
def Obligations.StepsRunPassesInTurn : Prop :=
  ∀ s : State, s.io.input = [] →
    stepN ((s.io.passes.map (fun p => p.rx.length + 3)).sum) s =
      runLoop s.io.passes { s with io := { s.io with passes := [] } }

/-- R251, R252, R302 (the spec's decisions D26, D27, D34): a pass whose timestamps do not decrease completes; every
byte of it, and its `TICK`, meet the matchplay mode it sampled; and its `FLUSH` shows what stands after its `TICK`,
exactly when an intent is pending and no frame is being assembled. -/
def Obligations.PassCompletesAndFlushesLast : Prop :=
  ∀ (p : Pass) (s : State), s.bs.Inv → p.OnTime s →
    let before := fun k : Nat => .sample p.mp :: (p.rx.take k).map (fun a => Instr.rx a.1 a.2)
    (∀ k, ∃ v, execAll (before k) s = .next v ∧ v.dev.matchplayMode = p.mp) ∧
    ∃ u t, execAll (before p.rx.length ++ [.tick p.now p.vol]) s = .next u ∧ u.dev.matchplayMode = p.mp ∧
      u.io.clock = p.now ∧ runPass p s = .next t ∧
      (if u.out.dirty = true ∧ u.expected = none then
        t.arch = { u.arch with out := { u.out with dirty := false } } ∧
        t.io.flushed = some ⟨u.out.ind, u.out.det, u.out.dig⟩
      else t.arch = u.arch ∧ t.io.flushed = none)
end

