-- ==== Sys2Proof/Laws/Bytes.lean ====
section
/-! SUPPORT. Laws of the big-endian helpers of Sys2Proof/Decode.lean: what is written byte by byte is read back. -/

namespace Sys2Proof

@[simp] theorem length_beBytes (n v : Nat) : (beBytes n v).length = n := by
  induction n with
  | zero => rfl
  | succ n ih => simp [beBytes, ih]

/-- Reading `n` bytes big-endian gives back the last `n` bytes written, after the value already read. -/
theorem takeBE_beBytes (n v acc : Nat) (rest : List Byte) :
    takeBE n acc (beBytes n v ++ rest) = some (acc * 256 ^ n + v % 256 ^ n, rest) := by
  induction n generalizing acc with
  | zero => simp [beBytes, takeBE, Nat.mod_one]
  | succ n ih =>
    have hpow : v % 256 ^ (n + 1) = v / 256 ^ n % 256 * 256 ^ n + v % 256 ^ n := by
      rw [Nat.pow_succ, Nat.mod_mul, Nat.add_comm, Nat.mul_comm]
    simp only [beBytes, List.cons_append, takeBE, ih, BitVec.toNat_ofNat, hpow]
    congr 2
    ring

theorem takeBytes_append (xs rest : List Byte) : takeBytes xs.length (xs ++ rest) = some (xs, rest) := by
  induction xs with
  | nil => rfl
  | cons x xs ih => simp [takeBytes, ih]

/-- A word of `w` bits written in `n` bytes that hold it is read back. -/
theorem takeWord_beBytes {w : Nat} (n : Nat) (v : BitVec w) (rest : List Byte) (h : 2 ^ w = 256 ^ n) :
    takeWord w n (beBytes n v.toNat ++ rest) = .ok (v, rest) := by
  have hv : v.toNat % 256 ^ n = v.toNat := Nat.mod_eq_of_lt (h ▸ v.isLt)
  simp [takeWord, takeBE_beBytes, hv]

@[simp] theorem takeWord8 (v : BitVec 8) (rest : List Byte) :
    takeWord 8 1 (v :: rest) = .ok (v, rest) := by
  simp [takeWord, takeBE]

@[simp] theorem finish_nil (i : Instr) : finish i [] = .ok i := rfl

@[simp] theorem matchplay_ofByte_code (mp : Matchplay) : Matchplay.ofByte (mp.code.setWidth 8) = some mp := by
  cases mp <;> rfl

@[simp] theorem volume_ofByte_code (v : Volume) : Volume.ofByte (v.code.setWidth 8) = some v := by
  cases v <;> rfl

/-- A Command's control word and integers carry the Command. -/
@[simp] theorem Command.ofWords_controlWord (c : Command) :
    Command.ofWords c.controlWord c.time c.startBeeps c.endBeeps = c := by
  obtain ⟨te, col, det, ca, mp, es, le, cc, t, sb, eb⟩ := c
  simp only [Command.ofWords, Command.controlWord, BitVec.getLsbD_append, Command.mk.injEq, and_true]
  refine ⟨by simp, ?_, ?_, by simp, by simp, by simp, by simp, by simp⟩
  all_goals
    ext i hi
    simp only [BitVec.getElem_extractLsb', BitVec.getLsbD_append]
    interval_cases i <;> simp

end Sys2Proof
end

