-- ==== Sys2Proof/Laws/Memory.lean ====
section
/-! SUPPORT. Laws of the byte array: a byte written is read back, no other byte moves, and every memory operation keeps
the canonical form (`Memory.wf`). -/

namespace Sys2Proof.Machine

@[simp] theorem Memory.read_nil (a : Nat) : Memory.read [] a = Memory.unlisted := rfl

@[simp] theorem Memory.read_cons (k : Nat) (v : Byte) (m : Memory) (a : Nat) :
    Memory.read ((k, v) :: m) a = if k = a then v else m.read a := rfl

/-- An address below every listed one holds the unlisted byte. -/
theorem Memory.read_of_wfAbove {m : Memory} {lo a : Nat} (h : m.wfAbove lo = true) (ha : a < lo) :
    m.read a = Memory.unlisted := by
  induction m generalizing lo with
  | nil => rfl
  | cons c m ih =>
    obtain ⟨k, v⟩ := c
    simp only [Memory.wfAbove, Bool.and_eq_true, decide_eq_true_eq] at h
    obtain ⟨⟨hk, -⟩, hm⟩ := h
    rw [Memory.read_cons, if_neg (by omega)]
    exact ih hm (by omega)

theorem Memory.wfAbove_mono {m : Memory} {lo lo' : Nat} (h : m.wfAbove lo = true) (hle : lo' ≤ lo) :
    m.wfAbove lo' = true := by
  cases m with
  | nil => rfl
  | cons c m =>
    obtain ⟨k, v⟩ := c
    simp only [Memory.wfAbove, Bool.and_eq_true, decide_eq_true_eq] at h ⊢
    exact ⟨⟨by omega, h.1.2⟩, h.2⟩

theorem Memory.read_consCell (a : Nat) (v : Byte) (m : Memory) (b : Nat) (h : m.read a = Memory.unlisted) :
    (Memory.consCell a v m).read b = if b = a then v else m.read b := by
  unfold Memory.consCell
  split
  · rename_i hv
    split
    · rename_i hb
      rw [hb, h, hv]
    · rfl
  · rw [Memory.read_cons]
    simp only [eq_comm]

theorem Memory.wfAbove_consCell {a lo : Nat} {v : Byte} {m : Memory} (h : m.wfAbove (a + 1) = true) (hlo : lo ≤ a) :
    (Memory.consCell a v m).wfAbove lo = true := by
  unfold Memory.consCell
  split
  · exact Memory.wfAbove_mono h (by omega)
  · rename_i hv
    simp [Memory.wfAbove, hlo, hv, h]

/-- Read after write, in a memory in canonical form. -/
theorem Memory.read_write_wf {m : Memory} {lo : Nat} (h : m.wfAbove lo = true) (a : Nat) (v : Byte) (b : Nat) :
    (m.write a v).read b = if b = a then v else m.read b := by
  induction m generalizing lo with
  | nil => exact Memory.read_consCell a v [] b rfl
  | cons c m ih =>
    obtain ⟨k, w⟩ := c
    have h' := h
    simp only [Memory.wfAbove, Bool.and_eq_true, decide_eq_true_eq] at h'
    obtain ⟨⟨hk, hw⟩, hm⟩ := h'
    unfold Memory.write
    split
    · rename_i hlt
      refine Memory.read_consCell a v _ b ?_
      rw [Memory.read_cons, if_neg (by omega)]
      exact Memory.read_of_wfAbove hm (by omega)
    · split
      · rename_i hak
        subst hak
        rw [Memory.read_consCell a v m b (Memory.read_of_wfAbove hm (by omega)), Memory.read_cons]
        split
        · rfl
        · rw [if_neg (by omega)]
      · rename_i hlt hne
        rw [Memory.read_cons, Memory.read_cons, ih hm]
        by_cases hb : b = a
        · subst hb
          rw [if_neg (by omega), if_pos rfl, if_pos rfl]
        · rw [if_neg hb, if_neg hb]

theorem Memory.wfAbove_write {m : Memory} {lo : Nat} (h : m.wfAbove lo = true) (a : Nat) (ha : lo ≤ a) (v : Byte) :
    (m.write a v).wfAbove lo = true := by
  induction m generalizing lo with
  | nil => exact Memory.wfAbove_consCell rfl ha
  | cons c m ih =>
    obtain ⟨k, w⟩ := c
    have h' := h
    simp only [Memory.wfAbove, Bool.and_eq_true, decide_eq_true_eq] at h'
    obtain ⟨⟨hk, hw⟩, hm⟩ := h'
    unfold Memory.write
    split
    · rename_i hlt
      refine Memory.wfAbove_consCell ?_ ha
      simp [Memory.wfAbove, hw, hm]
      omega
    · split
      · rename_i hak
        subst hak
        exact Memory.wfAbove_consCell hm ha
      · rename_i hlt hne
        simp only [Memory.wfAbove, Bool.and_eq_true, decide_eq_true_eq]
        exact ⟨⟨hk, hw⟩, ih hm (by omega)⟩

/-- A write keeps the canonical form. -/
theorem Memory.wf_write {m : Memory} (h : m.wf = true) (a : Nat) (v : Byte) : (m.write a v).wf = true :=
  Memory.wfAbove_write h a (Nat.zero_le a) v

/-- Read after write. -/
theorem Memory.read_write {m : Memory} (h : m.wf = true) (a : Nat) (v : Byte) (b : Nat) :
    (m.write a v).read b = if b = a then v else m.read b :=
  Memory.read_write_wf h a v b

/-- Filling with free values keeps the canonical form. -/
theorem Memory.wf_fillFree {m : Memory} (h : m.wf = true) (k a n : Nat) : (m.fillFree k a n).wf = true := by
  induction n generalizing m k a with
  | zero => exact h
  | succ n ih => exact ih (Memory.wf_write h a _) (k + 1) (a + 1)

/-- Filling with free values changes no byte outside the range filled. -/
theorem Memory.read_fillFree_outside {m : Memory} (h : m.wf = true) (k a n b : Nat) (hb : b < a ∨ a + n ≤ b) :
    (m.fillFree k a n).read b = m.read b := by
  induction n generalizing m k a with
  | zero => rfl
  | succ n ih =>
    rw [Memory.fillFree, ih (Memory.wf_write h a _) (k + 1) (a + 1) (by omega), Memory.read_write h,
      if_neg (by omega)]

/-- The moved bytes of `BS.COMPACT` keep the canonical form. -/
theorem Memory.wf_copyDown {m : Memory} (h : m.wf = true) (src dst n : Nat) : (m.copyDown src dst n).wf = true := by
  induction n generalizing m src dst with
  | zero => exact h
  | succ n ih => exact ih (Memory.wf_write h dst _) (src + 1) (dst + 1)

/-- What `BS.COMPACT`'s copy does: the destination range takes the source bytes, every other byte stays. -/
theorem Memory.read_copyDown {m : Memory} (h : m.wf = true) (src dst n b : Nat) (hle : dst ≤ src) :
    (m.copyDown src dst n).read b = if dst ≤ b ∧ b < dst + n then m.read (src + (b - dst)) else m.read b := by
  induction n generalizing m src dst with
  | zero => simp [Memory.copyDown]
  | succ n ih =>
    rw [Memory.copyDown, ih (Memory.wf_write h dst _) (src + 1) (dst + 1) (by omega)]
    by_cases hb : b = dst
    · subst hb
      rw [if_neg (by omega), if_pos (by omega), Memory.read_write h, if_pos rfl, Nat.sub_self, Nat.add_zero]
    · by_cases hin : dst + 1 ≤ b ∧ b < dst + 1 + n
      · rw [if_pos hin, if_pos (by omega), Memory.read_write h, if_neg (by omega)]
        congr 1
        omega
      · rw [if_neg hin, if_neg (by omega), Memory.read_write h, if_neg hb]

/-! ## Addresses stay below a bound -/

/-- Every listed address is below `hi`. -/
abbrev Memory.below (m : Memory) (hi : Nat) : Prop := m.all (fun c => decide (c.1 < hi)) = true

theorem Memory.below_consCell {m : Memory} {a hi : Nat} {v : Byte} (h : m.below hi) (ha : a < hi) :
    (Memory.consCell a v m).below hi := by
  unfold Memory.consCell
  split
  · exact h
  · simp only [Memory.below, List.all_cons, Bool.and_eq_true, decide_eq_true_eq]
    exact ⟨ha, h⟩

theorem Memory.below_write {m : Memory} {hi : Nat} (h : m.below hi) (a : Nat) (ha : a < hi) (v : Byte) :
    (m.write a v).below hi := by
  induction m with
  | nil => exact Memory.below_consCell h ha
  | cons c m ih =>
    obtain ⟨k, w⟩ := c
    have h' : k < hi ∧ Memory.below m hi := by
      simpa only [Memory.below, List.all_cons, Bool.and_eq_true, decide_eq_true_eq] using h
    unfold Memory.write
    split
    · exact Memory.below_consCell h ha
    · split
      · exact Memory.below_consCell h'.2 ha
      · simp only [Memory.below, List.all_cons, Bool.and_eq_true, decide_eq_true_eq]
        exact ⟨h'.1, ih h'.2⟩

theorem Memory.below_fillFree {m : Memory} {hi : Nat} (h : m.below hi) (k a n : Nat) (ha : a + n ≤ hi) :
    (m.fillFree k a n).below hi := by
  induction n generalizing m k a with
  | zero => exact h
  | succ n ih => exact ih (Memory.below_write h a (by omega) _) (k + 1) (a + 1) (by omega)

theorem Memory.below_copyDown {m : Memory} {hi : Nat} (h : m.below hi) (src dst n : Nat) (hd : dst + n ≤ hi) :
    (m.copyDown src dst n).below hi := by
  induction n generalizing m src dst with
  | zero => exact h
  | succ n ih => exact ih (Memory.below_write h dst (by omega) _) (src + 1) (dst + 1) (by omega)

end Sys2Proof.Machine
end

