-- ==== Sys2Proof/Laws/State.lean ====
section
/-! SUPPORT. One lemma per field per update of the state, each true by unfolding, so that no later proof unfolds a
record update; and what the shared operations leave alone. -/

namespace Sys2Proof.Machine

/-! ### `emit` -/

@[simp] theorem State.emit_bs (e : Event) (s : State) : (s.emit e).bs = s.bs := rfl
@[simp] theorem State.emit_expected (e : Event) (s : State) : (s.emit e).expected = s.expected := rfl
@[simp] theorem State.emit_dev (e : Event) (s : State) : (s.emit e).dev = s.dev := rfl
@[simp] theorem State.emit_bz (e : Event) (s : State) : (s.emit e).bz = s.bz := rfl
@[simp] theorem State.emit_out (e : Event) (s : State) : (s.emit e).out = s.out := rfl
@[simp] theorem State.emit_io_input (e : Event) (s : State) : (s.emit e).io.input = s.io.input := rfl
@[simp] theorem State.emit_io_passes (e : Event) (s : State) : (s.emit e).io.passes = s.io.passes := rfl
@[simp] theorem State.emit_io_trace (e : Event) (s : State) : (s.emit e).io.trace = s.io.trace ++ [e] := rfl
@[simp] theorem State.emit_io_result (e : Event) (s : State) : (s.emit e).io.result = s.io.result := rfl
@[simp] theorem State.emit_io_flushed (e : Event) (s : State) : (s.emit e).io.flushed = s.io.flushed := rfl
@[simp] theorem State.emit_io_clock (e : Event) (s : State) : (s.emit e).io.clock = s.io.clock := rfl
@[simp] theorem State.emit_io_freeNext (e : Event) (s : State) : (s.emit e).io.freeNext = s.io.freeNext := rfl

/-! ### `setResult` -/

@[simp] theorem State.setResult_bs (r : Result) (s : State) : (s.setResult r).bs = s.bs := rfl
@[simp] theorem State.setResult_expected (r : Result) (s : State) : (s.setResult r).expected = s.expected := rfl
@[simp] theorem State.setResult_dev (r : Result) (s : State) : (s.setResult r).dev = s.dev := rfl
@[simp] theorem State.setResult_bz (r : Result) (s : State) : (s.setResult r).bz = s.bz := rfl
@[simp] theorem State.setResult_out (r : Result) (s : State) : (s.setResult r).out = s.out := rfl
@[simp] theorem State.setResult_io_input (r : Result) (s : State) : (s.setResult r).io.input = s.io.input := rfl
@[simp] theorem State.setResult_io_passes (r : Result) (s : State) : (s.setResult r).io.passes = s.io.passes := rfl
@[simp] theorem State.setResult_io_trace (r : Result) (s : State) : (s.setResult r).io.trace = s.io.trace := rfl
@[simp] theorem State.setResult_io_result (r : Result) (s : State) : (s.setResult r).io.result = r := rfl
@[simp] theorem State.setResult_io_flushed (r : Result) (s : State) : (s.setResult r).io.flushed = s.io.flushed := rfl
@[simp] theorem State.setResult_io_clock (r : Result) (s : State) : (s.setResult r).io.clock = s.io.clock := rfl
@[simp] theorem State.setResult_io_freeNext (r : Result) (s : State) : (s.setResult r).io.freeNext = s.io.freeNext :=
  rfl

/-! ### `begin` -/

@[simp] theorem State.begin_bs (s : State) : (s.begin).bs = s.bs := rfl
@[simp] theorem State.begin_expected (s : State) : (s.begin).expected = s.expected := rfl
@[simp] theorem State.begin_dev (s : State) : (s.begin).dev = s.dev := rfl
@[simp] theorem State.begin_bz (s : State) : (s.begin).bz = s.bz := rfl
@[simp] theorem State.begin_out (s : State) : (s.begin).out = s.out := rfl
@[simp] theorem State.begin_io_input (s : State) : (s.begin).io.input = s.io.input := rfl
@[simp] theorem State.begin_io_passes (s : State) : (s.begin).io.passes = s.io.passes := rfl
@[simp] theorem State.begin_io_trace (s : State) : (s.begin).io.trace = [] := rfl
@[simp] theorem State.begin_io_result (s : State) : (s.begin).io.result = .nothing := rfl
@[simp] theorem State.begin_io_flushed (s : State) : (s.begin).io.flushed = none := rfl
@[simp] theorem State.begin_io_clock (s : State) : (s.begin).io.clock = s.io.clock := rfl
@[simp] theorem State.begin_io_freeNext (s : State) : (s.begin).io.freeNext = s.io.freeNext := rfl

/-! ### `setClock` -/

@[simp] theorem State.setClock_bs (now : Time) (s : State) : (s.setClock now).bs = s.bs := rfl
@[simp] theorem State.setClock_expected (now : Time) (s : State) : (s.setClock now).expected = s.expected := rfl
@[simp] theorem State.setClock_dev (now : Time) (s : State) : (s.setClock now).dev = s.dev := rfl
@[simp] theorem State.setClock_bz (now : Time) (s : State) : (s.setClock now).bz = s.bz := rfl
@[simp] theorem State.setClock_out (now : Time) (s : State) : (s.setClock now).out = s.out := rfl
@[simp] theorem State.setClock_io_input (now : Time) (s : State) : (s.setClock now).io.input = s.io.input := rfl
@[simp] theorem State.setClock_io_passes (now : Time) (s : State) : (s.setClock now).io.passes = s.io.passes := rfl
@[simp] theorem State.setClock_io_trace (now : Time) (s : State) : (s.setClock now).io.trace = s.io.trace := rfl
@[simp] theorem State.setClock_io_result (now : Time) (s : State) : (s.setClock now).io.result = s.io.result := rfl
@[simp] theorem State.setClock_io_flushed (now : Time) (s : State) : (s.setClock now).io.flushed = s.io.flushed := rfl
@[simp] theorem State.setClock_io_clock (now : Time) (s : State) : (s.setClock now).io.clock = now := rfl
@[simp] theorem State.setClock_io_freeNext (now : Time) (s : State) : (s.setClock now).io.freeNext = s.io.freeNext :=
  rfl

/-! ### `withBs` -/

@[simp] theorem State.withBs_bs (bs : ByteStream) (s : State) : (s.withBs bs).bs = bs := rfl
@[simp] theorem State.withBs_expected (bs : ByteStream) (s : State) : (s.withBs bs).expected = s.expected := rfl
@[simp] theorem State.withBs_dev (bs : ByteStream) (s : State) : (s.withBs bs).dev = s.dev := rfl
@[simp] theorem State.withBs_bz (bs : ByteStream) (s : State) : (s.withBs bs).bz = s.bz := rfl
@[simp] theorem State.withBs_out (bs : ByteStream) (s : State) : (s.withBs bs).out = s.out := rfl
@[simp] theorem State.withBs_io (bs : ByteStream) (s : State) : (s.withBs bs).io = s.io := rfl

/-! ### `issueIndicator` -/

@[simp] theorem State.issueIndicator_bs (c : Code) (s : State) : (s.issueIndicator c).bs = s.bs := rfl
@[simp] theorem State.issueIndicator_expected (c : Code) (s : State) : (s.issueIndicator c).expected = s.expected := rfl
@[simp] theorem State.issueIndicator_dev (c : Code) (s : State) : (s.issueIndicator c).dev = s.dev := rfl
@[simp] theorem State.issueIndicator_bz (c : Code) (s : State) : (s.issueIndicator c).bz = s.bz := rfl
@[simp] theorem State.issueIndicator_out_ind (c : Code) (s : State) : (s.issueIndicator c).out.ind = c := rfl
@[simp] theorem State.issueIndicator_out_det (c : Code) (s : State) : (s.issueIndicator c).out.det = s.out.det := rfl
@[simp] theorem State.issueIndicator_out_dig (c : Code) (s : State) : (s.issueIndicator c).out.dig = s.out.dig := rfl
@[simp] theorem State.issueIndicator_out_tone (c : Code) (s : State) : (s.issueIndicator c).out.tone = s.out.tone := rfl
@[simp] theorem State.issueIndicator_out_dirty (c : Code) (s : State) : (s.issueIndicator c).out.dirty = true := rfl
@[simp] theorem State.issueIndicator_io (c : Code) (s : State) : (s.issueIndicator c).io = s.io := rfl

/-! ### `issueDetail` -/

@[simp] theorem State.issueDetail_bs (c : Code) (s : State) : (s.issueDetail c).bs = s.bs := rfl
@[simp] theorem State.issueDetail_expected (c : Code) (s : State) : (s.issueDetail c).expected = s.expected := rfl
@[simp] theorem State.issueDetail_dev (c : Code) (s : State) : (s.issueDetail c).dev = s.dev := rfl
@[simp] theorem State.issueDetail_bz (c : Code) (s : State) : (s.issueDetail c).bz = s.bz := rfl
@[simp] theorem State.issueDetail_out_ind (c : Code) (s : State) : (s.issueDetail c).out.ind = s.out.ind := rfl
@[simp] theorem State.issueDetail_out_det (c : Code) (s : State) : (s.issueDetail c).out.det = c := rfl
@[simp] theorem State.issueDetail_out_dig (c : Code) (s : State) : (s.issueDetail c).out.dig = s.out.dig := rfl
@[simp] theorem State.issueDetail_out_tone (c : Code) (s : State) : (s.issueDetail c).out.tone = s.out.tone := rfl
@[simp] theorem State.issueDetail_out_dirty (c : Code) (s : State) : (s.issueDetail c).out.dirty = true := rfl
@[simp] theorem State.issueDetail_io (c : Code) (s : State) : (s.issueDetail c).io = s.io := rfl

/-! ### `issueDigits` -/

@[simp] theorem State.issueDigits_bs (v : Digits) (s : State) : (s.issueDigits v).bs = s.bs := rfl
@[simp] theorem State.issueDigits_expected (v : Digits) (s : State) : (s.issueDigits v).expected = s.expected := rfl
@[simp] theorem State.issueDigits_dev (v : Digits) (s : State) : (s.issueDigits v).dev = s.dev := rfl
@[simp] theorem State.issueDigits_bz (v : Digits) (s : State) : (s.issueDigits v).bz = s.bz := rfl
@[simp] theorem State.issueDigits_out_ind (v : Digits) (s : State) : (s.issueDigits v).out.ind = s.out.ind := rfl
@[simp] theorem State.issueDigits_out_det (v : Digits) (s : State) : (s.issueDigits v).out.det = s.out.det := rfl
@[simp] theorem State.issueDigits_out_dig (v : Digits) (s : State) : (s.issueDigits v).out.dig = v := rfl
@[simp] theorem State.issueDigits_out_tone (v : Digits) (s : State) : (s.issueDigits v).out.tone = s.out.tone := rfl
@[simp] theorem State.issueDigits_out_dirty (v : Digits) (s : State) : (s.issueDigits v).out.dirty = true := rfl
@[simp] theorem State.issueDigits_io (v : Digits) (s : State) : (s.issueDigits v).io = s.io := rfl

/-! ### `setTone` -/

@[simp] theorem State.setTone_bs (t : Tone) (s : State) : (s.setTone t).bs = s.bs := rfl
@[simp] theorem State.setTone_expected (t : Tone) (s : State) : (s.setTone t).expected = s.expected := rfl
@[simp] theorem State.setTone_dev (t : Tone) (s : State) : (s.setTone t).dev = s.dev := rfl
@[simp] theorem State.setTone_bz (t : Tone) (s : State) : (s.setTone t).bz = s.bz := rfl
@[simp] theorem State.setTone_out_ind (t : Tone) (s : State) : (s.setTone t).out.ind = s.out.ind := rfl
@[simp] theorem State.setTone_out_det (t : Tone) (s : State) : (s.setTone t).out.det = s.out.det := rfl
@[simp] theorem State.setTone_out_dig (t : Tone) (s : State) : (s.setTone t).out.dig = s.out.dig := rfl
@[simp] theorem State.setTone_out_tone (t : Tone) (s : State) : (s.setTone t).out.tone = t := rfl
@[simp] theorem State.setTone_out_dirty (t : Tone) (s : State) : (s.setTone t).out.dirty = s.out.dirty := rfl
@[simp] theorem State.setTone_io (t : Tone) (s : State) : (s.setTone t).io = s.io := rfl

/-! ### `withDev` -/

@[simp] theorem State.withDev_bs (d : DeviceState) (s : State) : (s.withDev d).bs = s.bs := rfl
@[simp] theorem State.withDev_expected (d : DeviceState) (s : State) : (s.withDev d).expected = s.expected := rfl
@[simp] theorem State.withDev_dev (d : DeviceState) (s : State) : (s.withDev d).dev = d := rfl
@[simp] theorem State.withDev_bz (d : DeviceState) (s : State) : (s.withDev d).bz = s.bz := rfl
@[simp] theorem State.withDev_out (d : DeviceState) (s : State) : (s.withDev d).out = s.out := rfl
@[simp] theorem State.withDev_io (d : DeviceState) (s : State) : (s.withDev d).io = s.io := rfl

/-! ### `withBz` -/

@[simp] theorem State.withBz_bs (bz : Buzzer) (s : State) : (s.withBz bz).bs = s.bs := rfl
@[simp] theorem State.withBz_expected (bz : Buzzer) (s : State) : (s.withBz bz).expected = s.expected := rfl
@[simp] theorem State.withBz_dev (bz : Buzzer) (s : State) : (s.withBz bz).dev = s.dev := rfl
@[simp] theorem State.withBz_bz (bz : Buzzer) (s : State) : (s.withBz bz).bz = bz := rfl
@[simp] theorem State.withBz_out (bz : Buzzer) (s : State) : (s.withBz bz).out = s.out := rfl
@[simp] theorem State.withBz_io (bz : Buzzer) (s : State) : (s.withBz bz).io = s.io := rfl

end Sys2Proof.Machine
end

