-- ==== Sys2Proof/Laws/Ops.lean ====
section
/-! SUPPORT. One lemma per shared operation that says once what it can do: how an operation begins, the ByteStream
primitives, the intents and the schedule. Proofs about instructions cite these instead of unfolding the operations. -/

namespace Sys2Proof.Machine

/-! ## How an operation runs -/

theorem run_eq_next {k : State → State} {s t : State} : run k s = .next t ↔ t = k s.begin := by
  unfold run
  exact ⟨fun h => (Host.Outcome.next.inj h).symm, fun h => h ▸ rfl⟩

theorem runArray_eq_next {k : State → State} {s t : State} :
    runArray k s = .next t ↔ s.bs.insideArray = true ∧ t = k s.begin := by
  unfold runArray
  split
  · rename_i h
    exact run_eq_next.trans ⟨fun ht => ⟨h, ht⟩, fun ht => ht.2⟩
  · rename_i h
    exact Iff.intro (fun ht => by cases ht) (fun ht => absurd ht.1 h)

theorem runAt_eq_next {now : Time} {k : State → State} {s t : State} :
    runAt now k s = .next t ↔ s.TimeOk now ∧ t = k (s.begin.setClock now) := by
  unfold runAt
  split
  · rename_i h
    exact run_eq_next.trans ⟨fun ht => ⟨h, ht⟩, fun ht => ht.2⟩
  · rename_i h
    exact Iff.intro (fun ht => by cases ht) (fun ht => absurd ht.1 h)

theorem runArrayAt_eq_next {now : Time} {k : State → State} {s t : State} :
    runArrayAt now k s = .next t ↔
      s.bs.insideArray = true ∧ s.TimeOk now ∧ t = k (s.begin.setClock now) := by
  unfold runArrayAt
  split
  · rename_i h
    exact runAt_eq_next.trans ⟨fun ht => ⟨h, ht⟩, fun ht => ht.2⟩
  · rename_i h
    exact Iff.intro (fun ht => by cases ht) (fun ht => absurd ht.1 h)

/-- The invariant keeps the ByteStream inside the array. -/
theorem ByteStream.Inv.insideArray {bs : ByteStream} (h : bs.Inv) : bs.insideArray = true := by
  obtain ⟨-, h2, -, h4, -⟩ := h
  simp only [ByteStream.insideArray, Bool.and_eq_true, decide_eq_true_eq]
  omega

/-! ## Reading the ByteStream -/

@[simp] theorem ByteStream.length_bytes (bs : ByteStream) : bs.bytes.length = bs.size := by
  simp [ByteStream.bytes]

/-- A position reads as the valid byte there, or as zero beyond the valid bytes (R62). -/
theorem ByteStream.readAt_eq_getD (bs : ByteStream) (p : Nat) : bs.readAt p = bs.bytes.getD p 0 := by
  unfold ByteStream.readAt ByteStream.bytes
  by_cases h : p < bs.size
  · simp [h]
  · simp [h]

theorem ByteStream.peek_eq_getD (bs : ByteStream) (off : Nat) : bs.peek off = bs.unread.getD off 0 := by
  simp [ByteStream.peek, ByteStream.unread, ByteStream.readAt_eq_getD, List.getD_eq_getElem?_getD]

@[simp] theorem ByteStream.length_unread (bs : ByteStream) : bs.unread.length = bs.size - bs.ri := by
  simp [ByteStream.unread]

/-- A consume either returns the next unread byte and moves past it, or returns zero and stays (R114). -/
theorem ByteStream.consume_eq (bs : ByteStream) :
    bs.consume = (bs.unread.getD 0 0, { bs with ri := bs.ri + min 1 bs.unread.length }) := by
  unfold ByteStream.consume
  split
  · rename_i h
    have : min 1 (bs.size - bs.ri) = 1 := by omega
    simp [ByteStream.unread, ByteStream.bytes, h, List.getD_eq_getElem?_getD, this]
  · rename_i h
    have : bs.size - bs.ri = 0 := by omega
    simp [ByteStream.unread, ByteStream.bytes, List.getD_eq_getElem?_getD, this]

/-- The unread bytes after the reader has moved. -/
theorem ByteStream.unread_move (bs : ByteStream) (k : Nat) :
    ({ bs with ri := bs.ri + k } : ByteStream).unread = bs.unread.drop k := by
  simp [ByteStream.unread, ByteStream.bytes, Nat.add_comm]

/-- A wide read moves the reader past the valid bytes it took (R115 to R117). -/
theorem ByteStream.consumeBE_snd (n acc : Nat) (bs : ByteStream) :
    (bs.consumeBE n acc).2 = { bs with ri := bs.ri + min n bs.unread.length } := by
  induction n generalizing acc bs with
  | zero => simp [ByteStream.consumeBE]
  | succ n ih =>
    simp only [ByteStream.consumeBE, ih, ByteStream.consume_eq, ByteStream.length_unread]
    congr 1
    omega

/-- The value of a wide read: the bytes taken, most significant first, zeros where there are none (R116). -/
theorem ByteStream.consumeBE_fst (n acc : Nat) (bs : ByteStream) :
    (bs.consumeBE n acc).1 =
      ((bs.unread ++ List.replicate n 0).take n).foldl (fun v (b : Byte) => v * 256 + b.toNat) acc := by
  induction n generalizing acc bs with
  | zero => simp [ByteStream.consumeBE]
  | succ n ih =>
    simp only [ByteStream.consumeBE, ih, ByteStream.consume_eq, ByteStream.unread_move]
    cases h : bs.unread with
    | nil => simp [List.replicate_succ, List.take_replicate]
    | cons b rest =>
      have h1 : List.take n (rest ++ 0 :: List.replicate n 0) = List.take n (rest ++ List.replicate n (0 : Byte)) := by
        rw [← List.replicate_succ, List.replicate_succ', ← List.append_assoc, List.take_append_of_le_length (by simp)]
      rw [List.cons_append, List.take_succ_cons, List.foldl_cons, List.replicate_succ, h1]
      rfl

/-! ## Writing the ByteStream -/

/-- The pattern written for a signed value is the pattern it was read from (R126 to R128). -/
theorem signedPattern_toInt {w : Nat} (v : BitVec w) : signedPattern w v.toInt = v.toNat := by
  rw [signedPattern, ← BitVec.toNat_ofInt, BitVec.ofInt_toInt]

@[simp] theorem State.append_dev (b : Byte) (s : State) : (s.append b).dev = s.dev := by
  unfold State.append; split <;> rfl
@[simp] theorem State.append_bz (b : Byte) (s : State) : (s.append b).bz = s.bz := by
  unfold State.append; split <;> rfl
@[simp] theorem State.append_out (b : Byte) (s : State) : (s.append b).out = s.out := by
  unfold State.append; split <;> rfl
@[simp] theorem State.append_expected (b : Byte) (s : State) : (s.append b).expected = s.expected := by
  unfold State.append; split <;> rfl
@[simp] theorem State.append_ri (b : Byte) (s : State) : (s.append b).bs.ri = s.bs.ri := by
  unfold State.append; split <;> rfl
@[simp] theorem State.append_capacity (b : Byte) (s : State) : (s.append b).bs.capacity = s.bs.capacity := by
  unfold State.append; split <;> rfl
@[simp] theorem State.append_clock (b : Byte) (s : State) : (s.append b).io.clock = s.io.clock := by
  unfold State.append; split <;> rfl

theorem State.append_full {b : Byte} {s : State} (h : ¬ s.bs.wi < s.bs.capacity) :
    s.append b = s.emit .bufferOverflow := by
  simp [State.append, h]

theorem State.append_trace {b : Byte} {s : State} (h : s.bs.wi < s.bs.capacity) :
    (s.append b).io.trace = s.io.trace := by
  simp [State.append, h]

theorem State.append_wi {b : Byte} {s : State} (h : s.bs.wi < s.bs.capacity) :
    (s.append b).bs.wi = s.bs.wi + 1 := by
  simp [State.append, h]

theorem State.append_size {b : Byte} {s : State} (h : s.bs.wi < s.bs.capacity) :
    (s.append b).bs.size = max s.bs.size (s.bs.wi + 1) := by
  simp [State.append, h]

/-- An append with no gap before the writer is one write, and takes no free value. -/
theorem State.append_noGap {b : Byte} {s : State} (h : s.bs.wi < s.bs.capacity) (hw : s.bs.wi ≤ s.bs.size) :
    s.append b = s.withBs
      { s.bs with mem := s.bs.mem.write s.bs.wi b, wi := s.bs.wi + 1, size := max s.bs.size (s.bs.wi + 1) } := by
  have : s.bs.wi - s.bs.size = 0 := by omega
  simp [State.append, h, this, Memory.fillFree, State.withBs]

/-- The bytes an append leaves: the new byte at the writer, every other byte but those of a gap as before. -/
theorem State.append_read {b : Byte} {s : State} (hm : s.bs.mem.wf = true) (h : s.bs.wi < s.bs.capacity) (p : Nat)
    (hp : p < s.bs.size ∨ s.bs.wi ≤ p) :
    (s.append b).bs.mem.read p = if p = s.bs.wi then b else s.bs.mem.read p := by
  simp only [State.append, h, if_true]
  rw [Memory.read_write (Memory.wf_fillFree hm _ _ _), Memory.read_fillFree_outside hm _ _ _ _ (by omega)]

/-- An append at the end of the valid bytes puts the byte after them. -/
theorem State.append_bytes {b : Byte} {s : State} (hm : s.bs.mem.wf = true) (h : s.bs.wi < s.bs.capacity)
    (hw : s.bs.wi = s.bs.size) : (s.append b).bs.bytes = s.bs.bytes ++ [b] := by
  have hsz : (s.append b).bs.size = s.bs.size + 1 := by rw [State.append_size h]; omega
  unfold ByteStream.bytes
  rw [hsz, List.range_succ, List.map_append]
  congr 1
  · refine List.map_congr_left fun p hp => ?_
    have hp' : p < s.bs.size := by simpa using hp
    rw [State.append_read hm h p (Or.inl hp'), if_neg (by omega)]
  · simp [State.append_read hm h s.bs.size (Or.inr (by omega)), hw]

/-- An append keeps the ByteStream's invariant. -/
theorem State.append_inv {b : Byte} {s : State} (h : s.bs.Inv) : (s.append b).bs.Inv := by
  obtain ⟨h1, h2, h3, h4, h5, h6⟩ := h
  by_cases hw : s.bs.wi < s.bs.capacity
  · refine ⟨?_, ?_, ?_, ?_, ?_, ?_⟩
    · rw [State.append_ri, State.append_size hw]; omega
    · rw [State.append_capacity, State.append_size hw]; omega
    · rw [State.append_capacity, State.append_wi hw]; omega
    · rw [State.append_capacity]; exact h4
    · simp only [State.append, hw, if_true]
      exact Memory.wf_write (Memory.wf_fillFree h5 _ _ _) _ _
    · simp only [State.append, hw, if_true]
      exact Memory.below_write (Memory.below_fillFree h6 _ _ _ (by omega)) _ (by omega) _
  · rw [State.append_full hw]
    exact ⟨h1, h2, h3, h4, h5, h6⟩

/-- What successive appends do (R123 to R125): the bytes go to the writer on, as far as the capacity lets them, the rest is
dropped with one event each, and nothing else moves but the bytes of a gap before the writer. -/
structure Appended (bytes : List Byte) (s t : State) : Prop where
  dev : t.dev = s.dev
  bz : t.bz = s.bz
  out : t.out = s.out
  expected : t.expected = s.expected
  ri : t.bs.ri = s.bs.ri
  capacity : t.bs.capacity = s.bs.capacity
  wi : t.bs.wi = s.bs.wi + min bytes.length (s.bs.capacity - s.bs.wi)
  size : t.bs.size = if min bytes.length (s.bs.capacity - s.bs.wi) = 0 then s.bs.size
    else max s.bs.size (s.bs.wi + min bytes.length (s.bs.capacity - s.bs.wi))
  stored : ∀ j, j < min bytes.length (s.bs.capacity - s.bs.wi) → t.bs.mem.read (s.bs.wi + j) = bytes.getD j 0
  kept : ∀ p, p < s.bs.size ∧ p < s.bs.wi ∨ s.bs.wi + min bytes.length (s.bs.capacity - s.bs.wi) ≤ p →
    t.bs.mem.read p = s.bs.mem.read p
  trace : t.io.trace = s.io.trace ++
    List.replicate (bytes.length - min bytes.length (s.bs.capacity - s.bs.wi)) .bufferOverflow
  inv : t.bs.Inv

theorem State.appendAll_spec (bytes : List Byte) (s : State) (h : s.bs.Inv) :
    Appended bytes s (s.appendAll bytes) := by
  induction bytes generalizing s with
  | nil =>
    exact ⟨rfl, rfl, rfl, rfl, rfl, rfl, by simp [State.appendAll], by simp [State.appendAll], by simp, fun _ _ => rfl,
      by simp [State.appendAll], h⟩
  | cons b bytes ih =>
    have hm := h.2.2.2.2.1
    have e : s.appendAll (b :: bytes) = (s.append b).appendAll bytes := rfl
    rw [e]
    obtain ⟨h1, h2, h3, h4, h5, h6, h7, h8, h9, h10, h11, h12⟩ := ih _ (State.append_inv (b := b) h)
    by_cases hw : s.bs.wi < s.bs.capacity
    · have hwi := State.append_wi (b := b) hw
      have hsz := State.append_size (b := b) hw
      have hcap := State.append_capacity b s
      rw [hwi, hcap] at h7 h8
      have hk : min (bytes.length + 1) (s.bs.capacity - s.bs.wi) =
          min bytes.length (s.bs.capacity - (s.bs.wi + 1)) + 1 := by omega
      refine ⟨by simp [h1], by simp [h2], by simp [h3], by simp [h4], by simp [h5], by simp [h6],
        ?_, ?_, ?_, ?_, ?_, h12⟩
      · rw [h7]; simp; omega
      · rw [h8, hsz, List.length_cons, hk]
        split <;> simp <;> omega
      · intro j hj
        rw [List.length_cons, hk] at hj
        cases j with
        | zero =>
          have := h10 s.bs.wi (by rw [hsz, hwi]; omega)
          rw [Nat.add_zero, this, State.append_read hm hw _ (Or.inr (Nat.le_refl _)), if_pos rfl]; rfl
        | succ j =>
          have := h9 j (by rw [hwi, hcap]; omega)
          rw [hwi] at this
          rw [← Nat.add_assoc, Nat.add_right_comm, this]; rfl
      · intro p hout
        rw [List.length_cons, hk] at hout
        rw [h10 p (by rw [hsz, hwi, hcap]; omega), State.append_read hm hw _ (by omega), if_neg (by omega)]
      · rw [h11, State.append_trace hw, hwi, hcap, List.length_cons, hk]
        congr 2; omega
    · rw [State.append_full hw] at *
      have hz : min (bytes.length+1) (s.bs.capacity - s.bs.wi) = 0 := by omega
      have hz' : min bytes.length (s.bs.capacity - s.bs.wi) = 0 := by omega
      simp only [State.emit_bs, State.emit_dev, State.emit_out, State.emit_bz, State.emit_expected,
        State.emit_io_trace, hz'] at *
      refine ⟨h1, h2, h3, h4, h5, h6, by simp [h7, hz], by simp [h8, hz], ?_, ?_, ?_, h12⟩
      · intro j hj; rw [List.length_cons, hz] at hj; omega
      · intro p hout; rw [List.length_cons, hz] at hout; exact h10 p (by omega)
      · rw [h11, List.length_cons, hz]; simp [List.replicate_succ]

/-- The bytes after `BS.COMPACT` are the unread ones (R135). -/
theorem State.compact_bytes {s : State} (hm : s.bs.mem.wf = true) : s.compact.bs.bytes = s.bs.unread := by
  apply List.ext_getElem
  · simp [State.compact]
  · intro p h1 h2
    have hp : p < s.bs.size - s.bs.ri := by simpa using h2
    simp [State.compact, ByteStream.bytes, ByteStream.unread, Memory.read_copyDown hm, hp]

theorem State.compact_inv {s : State} (h : s.bs.Inv) : s.compact.bs.Inv := by
  obtain ⟨h1, h2, h3, h4, h5, h6⟩ := h
  refine ⟨Nat.zero_le _, ?_, ?_, h4, Memory.wf_copyDown h5 _ _ _, Memory.below_copyDown h6 _ _ _ ?_⟩
  all_goals
    simp [State.compact]
    omega

theorem State.resize_inv {s : State} (n : Int) (h : s.bs.Inv) : (s.resize n).bs.Inv := by
  obtain ⟨h1, h2, h3, h4, h5, h6⟩ := h
  unfold State.resize
  split
  · rename_i hn
    simp only [resizable, Bool.and_eq_true, decide_eq_true_eq] at hn
    refine ⟨?_, ?_, ?_, ?_, h5, h6⟩
    all_goals
      simp
      try omega
  · exact ⟨h1, h2, h3, h4, h5, h6⟩

theorem State.setReader_inv {s : State} (i : Int) (h : s.bs.Inv) : (s.setReader i).bs.Inv := by
  obtain ⟨h1, h2, h3, h4, h5, h6⟩ := h
  exact ⟨by simp [State.setReader, clampIndex], h2, h3, h4, h5, h6⟩

theorem State.setWriter_inv {s : State} (i : Int) (h : s.bs.Inv) : (s.setWriter i).bs.Inv := by
  obtain ⟨h1, h2, h3, h4, h5, h6⟩ := h
  exact ⟨h1, h2, by simp [State.setWriter, clampIndex], h4, h5, h6⟩

theorem State.clear_inv {s : State} (h : s.bs.Inv) : s.clear.bs.Inv := by
  obtain ⟨h1, h2, h3, h4, h5, h6⟩ := h
  exact ⟨Nat.le_refl _, Nat.zero_le _, Nat.zero_le _, h4, h5, h6⟩

/-- A wide read moves the reader and nothing else. -/
theorem State.readWord_snd (w n : Nat) (s : State) :
    (s.readWord w n).2 = s.withBs { s.bs with ri := s.bs.ri + min n s.bs.unread.length } := by
  simp [State.readWord, ByteStream.readWord, ByteStream.consumeBE_snd]

/-! ## The schedule -/

@[simp] theorem State.sound_bs (n : Word32) (now : Time) (s : State) : (s.sound n now).bs = s.bs := by
  unfold State.sound; split <;> rfl
@[simp] theorem State.sound_expected (n : Word32) (now : Time) (s : State) :
    (s.sound n now).expected = s.expected := by unfold State.sound; split <;> rfl
@[simp] theorem State.sound_dev (n : Word32) (now : Time) (s : State) : (s.sound n now).dev = s.dev := by
  unfold State.sound; split <;> rfl
@[simp] theorem State.sound_out (n : Word32) (now : Time) (s : State) : (s.sound n now).out = s.out := by
  unfold State.sound; split <;> rfl
@[simp] theorem State.sound_trace (n : Word32) (now : Time) (s : State) :
    (s.sound n now).io.trace = s.io.trace := by unfold State.sound; split <;> rfl
@[simp] theorem State.sound_clock (n : Word32) (now : Time) (s : State) :
    (s.sound n now).io.clock = s.io.clock := by unfold State.sound; split <;> rfl
@[simp] theorem State.sound_flushed (n : Word32) (now : Time) (s : State) :
    (s.sound n now).io.flushed = s.io.flushed := by unfold State.sound; split <;> rfl

/-- A schedule never ends before it starts (R39), whatever free value stands for an end that does not fit. -/
theorem le_scheduleEnd (n : Word32) (now free : Time) : now.toNat ≤ (scheduleEnd n now free).toNat := by
  unfold scheduleEnd
  split
  · rename_i h
    have h64 : Config.params.timeW = 64 := rfl
    rw [BitVec.toNat_ofNat, Nat.mod_eq_of_lt (by rw [h64] at h; exact h)]
    exact Nat.le_add_right _ _
  · split
    · assumption
    · exact Nat.le_refl _

/-- What `sound` does to the schedule (R240): nothing for a count below 1, else a new one from `now`. -/
theorem State.sound_bz_cases (n : Word32) (now : Time) (s : State) :
    (n.toInt < 1 ∧ (s.sound n now).bz = s.bz) ∨
      (1 ≤ n.toInt ∧ (s.sound n now).bz.active = true ∧ (s.sound n now).bz.startTime = now ∧
        now.toNat ≤ (s.sound n now).bz.endTime.toNat ∧
        (now.toNat + n.toInt.toNat * 1000 < 2 ^ 64 →
          (s.sound n now).bz.endTime.toNat = now.toNat + n.toInt.toNat * 1000)) := by
  by_cases h : 1 ≤ n.toInt
  · refine Or.inr ⟨h, ?_⟩
    simp only [State.sound, h, if_true, true_and]
    refine ⟨le_scheduleEnd _ _ _, fun hfit => ?_⟩
    have he : exactEnd n now = now.toNat + n.toInt.toNat * 1000 := rfl
    have h64 : Config.params.timeW = 64 := rfl
    rw [scheduleEnd, he, h64, if_pos hfit, BitVec.toNat_ofNat, Nat.mod_eq_of_lt hfit]
  · exact Or.inl ⟨by omega, by simp [State.sound, h]⟩

/-! ## Blank, redisplay, the emergency stop -/

@[simp] theorem State.enterBlank_bs (s : State) : s.enterBlank.bs = s.bs := rfl
@[simp] theorem State.enterBlank_expected (s : State) : s.enterBlank.expected = s.expected := rfl
@[simp] theorem State.enterBlank_dev (s : State) : s.enterBlank.dev = { s.dev with mode := .blank } := rfl
@[simp] theorem State.enterBlank_bz (s : State) : s.enterBlank.bz = s.bz := rfl
@[simp] theorem State.enterBlank_io (s : State) : s.enterBlank.io = s.io := rfl
/-- Blank shows the red indicator, no detail, no digits (R212). -/
@[simp] theorem State.enterBlank_out (s : State) :
    s.enterBlank.out = { s.out with ind := 0, det := 0, dig := .blank, dirty := true } := rfl

@[simp] theorem State.redisplayDigits_bs (s : State) : s.redisplayDigits.bs = s.bs := rfl
@[simp] theorem State.redisplayDigits_expected (s : State) : s.redisplayDigits.expected = s.expected := rfl
@[simp] theorem State.redisplayDigits_dev (s : State) : s.redisplayDigits.dev = s.dev := rfl
@[simp] theorem State.redisplayDigits_bz (s : State) : s.redisplayDigits.bz = s.bz := rfl
@[simp] theorem State.redisplayDigits_io (s : State) : s.redisplayDigits.io = s.io := rfl
@[simp] theorem State.redisplayDigits_out (s : State) :
    s.redisplayDigits.out = { s.out with dig := digitsOf s.dev, dirty := true } := rfl

@[simp] theorem State.fullRedisplay_bs (s : State) : s.fullRedisplay.bs = s.bs := by
  unfold State.fullRedisplay State.redisplayDetail State.redisplayIndicator
  (repeat' split) <;> rfl
@[simp] theorem State.fullRedisplay_expected (s : State) : s.fullRedisplay.expected = s.expected := by
  unfold State.fullRedisplay State.redisplayDetail State.redisplayIndicator
  (repeat' split) <;> rfl
@[simp] theorem State.fullRedisplay_dev (s : State) : s.fullRedisplay.dev = s.dev := by
  unfold State.fullRedisplay State.redisplayDetail State.redisplayIndicator
  (repeat' split) <;> rfl
@[simp] theorem State.fullRedisplay_bz (s : State) : s.fullRedisplay.bz = s.bz := by
  unfold State.fullRedisplay State.redisplayDetail State.redisplayIndicator
  (repeat' split) <;> rfl
@[simp] theorem State.fullRedisplay_io (s : State) : s.fullRedisplay.io = s.io := by
  unfold State.fullRedisplay State.redisplayDetail State.redisplayIndicator
  (repeat' split) <;> rfl
/-- A full redisplay shows the stored fields, code 3 leaving the shown one (R245). -/
theorem State.fullRedisplay_out (s : State) :
    s.fullRedisplay.out =
      { s.out with
        ind := if s.dev.colour = 3 then s.out.ind else s.dev.colour
        det := if s.dev.detail = 3 then s.out.det else s.dev.detail
        dig := digitsOf s.dev
        dirty := true } := by
  unfold State.fullRedisplay State.redisplayDetail State.redisplayIndicator
  split <;> rename_i h1 <;> split <;> rename_i h2 <;> simp only [bne_iff_ne, ne_eq, Decidable.not_not] at h1 h2
  · rw [if_neg h1, if_neg (show ¬ s.dev.detail = 3 from h2)]; rfl
  · rw [if_neg h1, if_pos (show s.dev.detail = 3 from h2)]; rfl
  · rw [if_pos h1, if_neg h2]; rfl
  · rw [if_pos h1, if_pos h2]; rfl

@[simp] theorem State.takeEstop_bs (now : Time) (s : State) : (s.takeEstop now).bs = s.bs := by
  simp [State.takeEstop]
@[simp] theorem State.takeEstop_expected (now : Time) (s : State) : (s.takeEstop now).expected = s.expected := by
  simp [State.takeEstop]
@[simp] theorem State.takeEstop_dev (now : Time) (s : State) :
    (s.takeEstop now).dev = { s.dev with countdown := false, mode := .blank } := by
  simp [State.takeEstop]
@[simp] theorem State.takeEstop_out (now : Time) (s : State) :
    (s.takeEstop now).out = { ind := 0, det := 0, dig := .blank, tone := .off, dirty := true } := by
  simp [State.takeEstop, State.setTone]
@[simp] theorem State.takeEstop_trace (now : Time) (s : State) : (s.takeEstop now).io.trace = s.io.trace := by
  simp [State.takeEstop]
@[simp] theorem State.takeEstop_clock (now : Time) (s : State) : (s.takeEstop now).io.clock = s.io.clock := by
  simp [State.takeEstop]

@[simp] theorem State.endSchedule_bs (s : State) : s.endSchedule.bs = s.bs := by
  unfold State.endSchedule; simp only; split <;> simp
@[simp] theorem State.endSchedule_expected (s : State) : s.endSchedule.expected = s.expected := by
  unfold State.endSchedule; simp only; split <;> simp
@[simp] theorem State.endSchedule_bz (s : State) : s.endSchedule.bz = { s.bz with active := false } := by
  unfold State.endSchedule; simp only; split <;> simp
@[simp] theorem State.endSchedule_clock (s : State) : s.endSchedule.io.clock = s.io.clock := by
  unfold State.endSchedule; simp only; split <;> simp
@[simp] theorem State.endSchedule_trace (s : State) : s.endSchedule.io.trace = s.io.trace ++ [.buzzerEnd] := by
  unfold State.endSchedule; simp only; split <;> simp
/-- Only an inactive countdown lets the end of a schedule enter Idle (R243). -/
theorem State.endSchedule_dev (s : State) :
    s.endSchedule.dev = if s.dev.countdown then s.dev else { s.dev with mode := .idle } := by
  unfold State.endSchedule
  cases h : s.dev.countdown <;> simp [h]

/-! ## The field updates of an accepted Command -/

theorem State.updateFields_ingest (c : Command) (s : State) :
    (s.updateFields c).bs = s.bs ∧ (s.updateFields c).expected = s.expected ∧ (s.updateFields c).bz = s.bz ∧
      (s.updateFields c).io = s.io := by
  unfold State.updateFields State.updateTime State.updateDetail State.updateColour State.mirrorFields
  refine ⟨?_, ?_, ?_, ?_⟩ <;> (repeat' split) <;> rfl

/-- The DeviceState after the field updates (R205 to R208): every field takes the Command's value, the time clamped
at zero, the continue flag kept once set. -/
theorem State.updateFields_dev (c : Command) (s : State) :
    (s.updateFields c).dev =
      { s.dev with
        countdownContinues := s.dev.countdownContinues || c.countdownContinues
        lastEnd := c.lastEnd
        startNumBeeps := c.startBeeps
        endNumBeeps := c.endBeeps
        colour := c.colour
        detail := c.detail
        time := clampTime c.time
        timeEnabled := c.timeEnabled } := by
  have h1 : ∀ s : State, (s.updateColour c).dev = { s.dev with colour := c.colour } := by
    intro s
    unfold State.updateColour
    split
    · simp only
      split <;> rfl
    · rename_i h
      simp only [bne_iff_ne, ne_eq, Decidable.not_not] at h
      rw [h]
  have h2 : ∀ s : State, (s.updateDetail c).dev = { s.dev with detail := c.detail } := by
    intro s
    unfold State.updateDetail
    split
    · simp only
      split <;> rfl
    · rename_i h
      simp only [bne_iff_ne, ne_eq, Decidable.not_not] at h
      rw [h]
  have h3 : ∀ s : State,
      (s.updateTime c).dev = { s.dev with time := clampTime c.time, timeEnabled := c.timeEnabled } := by
    intro s
    unfold State.updateTime
    split
    · rfl
    · rename_i h
      simp only [Bool.or_eq_true, bne_iff_ne, not_or, Decidable.not_not] at h
      rw [h.1, h.2]
  simp [State.updateFields, h1, h2, h3, State.mirrorFields, stickyContinues]

end Sys2Proof.Machine
end

