-- ==== Sys2Proof/Laws/Exec.lean ====
section
/-! SUPPORT. What `exec` does, said once for all operations: it begins the operation, lets the clock reach its
timestamp, and applies one state function; it stops only outside the array or on a clock that runs backward. Proofs over
all operations start from `exec_eq_next` and go on by cases of `effectOf`. -/

namespace Sys2Proof.Machine

/-- The operations that access the byte array. -/
def usesArray : Instr → Bool
  | .reset | .sample _ | .tick _ _ | .flush | .apply _ _ => false
  | .bsResize _ | .bsSetri _ | .bsSetwi _ | .bsClear => false
  | .controlWord _ _ _ _ _ => false
  | .cmdReject _ _ | .cmdEstop _ _ | .cmdStart _ _ | .cmdStop _ _ | .cmdUpdate _ _ => false
  | _ => true

/-- The state an operation starts on: trace, result and flush pulse empty, the clock at its timestamp. -/
def State.start (i : Instr) (s : State) : State :=
  match i.timestamp with
  | some now => s.begin.setClock now
  | none => s.begin

@[simp] theorem State.start_bs (i : Instr) (s : State) : (s.start i).bs = s.bs := by
  unfold State.start; split <;> rfl
@[simp] theorem State.start_expected (i : Instr) (s : State) : (s.start i).expected = s.expected := by
  unfold State.start; split <;> rfl
@[simp] theorem State.start_dev (i : Instr) (s : State) : (s.start i).dev = s.dev := by
  unfold State.start; split <;> rfl
@[simp] theorem State.start_bz (i : Instr) (s : State) : (s.start i).bz = s.bz := by
  unfold State.start; split <;> rfl
@[simp] theorem State.start_out (i : Instr) (s : State) : (s.start i).out = s.out := by
  unfold State.start; split <;> rfl
@[simp] theorem State.start_trace (i : Instr) (s : State) : (s.start i).io.trace = [] := by
  unfold State.start; split <;> rfl
@[simp] theorem State.start_result (i : Instr) (s : State) : (s.start i).io.result = .nothing := by
  unfold State.start; split <;> rfl
@[simp] theorem State.start_flushed (i : Instr) (s : State) : (s.start i).io.flushed = none := by
  unfold State.start; split <;> rfl
@[simp] theorem State.start_freeNext (i : Instr) (s : State) : (s.start i).io.freeNext = s.io.freeNext := by
  unfold State.start; split <;> rfl
@[simp] theorem State.start_input (i : Instr) (s : State) : (s.start i).io.input = s.io.input := by
  unfold State.start; split <;> rfl
@[simp] theorem State.start_passes (i : Instr) (s : State) : (s.start i).io.passes = s.io.passes := by
  unfold State.start; split <;> rfl
theorem State.start_clock (i : Instr) (s : State) :
    (s.start i).io.clock = i.timestamp.getD s.io.clock := by
  unfold State.start; split <;> rename_i h <;> rw [h] <;> rfl

/-- What each operation does to the state it starts on. -/
def effectOf (i : Instr) (s : State) : State :=
  match i with
  | .reset => resetAll s
  | .sample mp => s.withDev { s.dev with matchplayMode := mp }
  | .rx b now => receive now b s
  | .tick now vol => tickBuzzer now vol (tickCountdown now s)
  | .flush => flushDisplay s
  | .sync => syncStage s
  | .validate now => validateStage now s
  | .decode => (decodeStage s).2.setResult (.command (decodeStage s).1)
  | .apply c now => applyStage c now s
  | .bsAppend b => s.append b
  | .bsPeek off => s.setResult (.byte (s.bs.peek off.toNat))
  | .bsConsume => (s.withBs s.bs.consume.2).setResult (.byte s.bs.consume.1)
  | .bsRdu16 => s.readInto 16 2 .u16
  | .bsRdu32 => s.readInto 32 4 .u32
  | .bsRdu64 => s.readInto 64 8 .u64
  | .bsRdi16 => s.readInto 16 2 (fun v => .signed v.toInt)
  | .bsRdi32 => s.readInto 32 4 (fun v => .signed v.toInt)
  | .bsRdi64 => s.readInto 64 8 (fun v => .signed v.toInt)
  | .bsRdf32 => s.readInto 32 4 .f32
  | .bsRdf64 => s.readInto 64 8 .f64
  | .bsWru16 v => s.appendAll (beBytes 2 v.toNat)
  | .bsWru32 v => s.appendAll (beBytes 4 v.toNat)
  | .bsWru64 v => s.appendAll (beBytes 8 v.toNat)
  | .bsWri16 v => s.appendAll (beBytes 2 (signedPattern 16 v.toInt))
  | .bsWri32 v => s.appendAll (beBytes 4 (signedPattern 32 v.toInt))
  | .bsWri64 v => s.appendAll (beBytes 8 (signedPattern 64 v.toInt))
  | .bsWrf32 v => s.appendAll (beBytes 4 v.toNat)
  | .bsWrf64 v => s.appendAll (beBytes 8 v.toNat)
  | .bsResize n => (s.resize n.toInt).setResult (.status (resizeStatus n.toInt))
  | .bsSetri k => s.setReader k.toInt
  | .bsSetwi k => s.setWriter k.toInt
  | .bsClear => s.clear
  | .bsCompact => s.compact
  | .frame f now => receiveAll now f.bytes s
  | .controlWord cw t sb eb now => applyStage (Command.ofWords cw t sb eb) now s
  | .cmdReject c now => applyStage c now s
  | .cmdEstop c now => applyStage c now s
  | .cmdStart c now => applyStage c now s
  | .cmdStop c now => applyStage c now s
  | .cmdUpdate c now => applyStage c now s

/-- Asking for a class is asking for the Command: the state gives the class (R88; log entry 10). -/
theorem applyStage_of_class (cls : CmdClass) (c : Command) (now : Time) (s : State) :
    (if classify c s.dev = cls then classBody cls c now s else applyStage c now s) = applyStage c now s := by
  split
  · rename_i h
    rw [applyStage, h]
  · rfl

theorem applyStage_reject (c : Command) (now : Time) (s : State) :
    (if classify c s.dev = .reject then rejectBody s else applyStage c now s) = applyStage c now s :=
  applyStage_of_class .reject c now s
theorem applyStage_estop (c : Command) (now : Time) (s : State) :
    (if classify c s.dev = .estop then estopBody now s else applyStage c now s) = applyStage c now s :=
  applyStage_of_class .estop c now s
theorem applyStage_start (c : Command) (now : Time) (s : State) :
    (if classify c s.dev = .start then startBody c now s else applyStage c now s) = applyStage c now s :=
  applyStage_of_class .start c now s
theorem applyStage_stop (c : Command) (now : Time) (s : State) :
    (if classify c s.dev = .stop then stopBody c now s else applyStage c now s) = applyStage c now s :=
  applyStage_of_class .stop c now s
theorem applyStage_update (c : Command) (now : Time) (s : State) :
    (if classify c s.dev = .update then updateBody c s else applyStage c now s) = applyStage c now s :=
  applyStage_of_class .update c now s

/-- The four ways an operation runs: with or without the array, with or without a timestamp. -/
theorem exec_via_run {i : Instr} {s t : State} (hu : usesArray i = false) (ht : i.timestamp = none)
    (he : exec i s = run (effectOf i) s) :
    exec i s = .next t ↔
      (usesArray i = true → s.bs.insideArray = true) ∧ i.onTime s = true ∧ t = effectOf i (s.start i) := by
  rw [he, run_eq_next]
  simp [hu, Instr.onTime, ht, State.start]

theorem exec_via_runArray {i : Instr} {s t : State} (hu : usesArray i = true) (ht : i.timestamp = none)
    (he : exec i s = runArray (effectOf i) s) :
    exec i s = .next t ↔
      (usesArray i = true → s.bs.insideArray = true) ∧ i.onTime s = true ∧ t = effectOf i (s.start i) := by
  rw [he, runArray_eq_next]
  simp [hu, Instr.onTime, ht, State.start]

theorem exec_via_runAt {i : Instr} {now : Time} {s t : State} (hu : usesArray i = false)
    (ht : i.timestamp = some now) (he : exec i s = runAt now (effectOf i) s) :
    exec i s = .next t ↔
      (usesArray i = true → s.bs.insideArray = true) ∧ i.onTime s = true ∧ t = effectOf i (s.start i) := by
  rw [he, runAt_eq_next]
  simp [hu, Instr.onTime, ht, State.start]

theorem exec_via_runArrayAt {i : Instr} {now : Time} {s t : State} (hu : usesArray i = true)
    (ht : i.timestamp = some now) (he : exec i s = runArrayAt now (effectOf i) s) :
    exec i s = .next t ↔
      (usesArray i = true → s.bs.insideArray = true) ∧ i.onTime s = true ∧ t = effectOf i (s.start i) := by
  rw [he, runArrayAt_eq_next]
  simp [hu, Instr.onTime, ht, State.start]

/-- When an operation answers a next state, and which. -/
theorem exec_eq_next {i : Instr} {s t : State} :
    exec i s = .next t ↔
      (usesArray i = true → s.bs.insideArray = true) ∧ i.onTime s = true ∧ t = effectOf i (s.start i) := by
  cases i with
  | cmdReject c now => exact exec_via_runAt rfl rfl (congrArg (runAt now · s) (funext (applyStage_reject c now)))
  | cmdEstop c now => exact exec_via_runAt rfl rfl (congrArg (runAt now · s) (funext (applyStage_estop c now)))
  | cmdStart c now => exact exec_via_runAt rfl rfl (congrArg (runAt now · s) (funext (applyStage_start c now)))
  | cmdStop c now => exact exec_via_runAt rfl rfl (congrArg (runAt now · s) (funext (applyStage_stop c now)))
  | cmdUpdate c now => exact exec_via_runAt rfl rfl (congrArg (runAt now · s) (funext (applyStage_update c now)))
  | _ =>
    first
    | exact exec_via_run rfl rfl rfl
    | exact exec_via_runArray rfl rfl rfl
    | exact exec_via_runAt rfl rfl rfl
    | exact exec_via_runArrayAt rfl rfl rfl

/-- An operation runs its effect in one of four ways: on the array or not, with a timestamp or not. -/
theorem exec_cases (i : Instr) :
    i.timestamp = none ∧ (exec i = run (effectOf i) ∨ exec i = runArray (effectOf i)) ∨
      ∃ now, i.timestamp = some now ∧ (exec i = runAt now (effectOf i) ∨ exec i = runArrayAt now (effectOf i)) := by
  cases i with
  | cmdReject c now => exact .inr ⟨now, rfl, .inl (congrArg (runAt now) (funext (applyStage_reject c now)))⟩
  | cmdEstop c now => exact .inr ⟨now, rfl, .inl (congrArg (runAt now) (funext (applyStage_estop c now)))⟩
  | cmdStart c now => exact .inr ⟨now, rfl, .inl (congrArg (runAt now) (funext (applyStage_start c now)))⟩
  | cmdStop c now => exact .inr ⟨now, rfl, .inl (congrArg (runAt now) (funext (applyStage_stop c now)))⟩
  | cmdUpdate c now => exact .inr ⟨now, rfl, .inl (congrArg (runAt now) (funext (applyStage_update c now)))⟩
  | _ =>
    first
    | exact .inl ⟨rfl, .inl rfl⟩
    | exact .inl ⟨rfl, .inr rfl⟩
    | exact .inr ⟨_, rfl, .inl rfl⟩
    | exact .inr ⟨_, rfl, .inr rfl⟩

end Sys2Proof.Machine
end

