-- ==== Sys2Proof/Laws/Pipeline.lean ====
section
/-! SUPPORT. The ingestion pipeline as seen from the device state: every stage but `APPLY` leaves `S`, `bz` and `O`
alone, so that a relation between states that `APPLY` and the ingest steps keep is kept by whole receptions. -/

namespace Sys2Proof.Machine

/-- `t` comes from `s` by ingest work alone: the ByteStream, `expected`, the event labels appended, the free values. -/
structure IngestStep (s t : State) : Prop where
  dev : t.dev = s.dev
  bz : t.bz = s.bz
  out : t.out = s.out
  capacity : t.bs.capacity = s.bs.capacity
  clock : t.io.clock = s.io.clock
  flushed : t.io.flushed = s.io.flushed
  input : t.io.input = s.io.input
  passes : t.io.passes = s.io.passes
  trace : s.io.trace <+: t.io.trace

theorem IngestStep.refl (s : State) : IngestStep s s := ⟨rfl, rfl, rfl, rfl, rfl, rfl, rfl, rfl, List.prefix_refl _⟩

theorem IngestStep.trans {s u t : State} (h : IngestStep s u) (k : IngestStep u t) : IngestStep s t :=
  ⟨k.dev.trans h.dev, k.bz.trans h.bz, k.out.trans h.out, k.capacity.trans h.capacity, k.clock.trans h.clock,
    k.flushed.trans h.flushed, k.input.trans h.input, k.passes.trans h.passes, h.trace.trans k.trace⟩

theorem ingest_emit (e : Event) (s : State) : IngestStep s (s.emit e) :=
  ⟨rfl, rfl, rfl, rfl, rfl, rfl, rfl, rfl, List.prefix_append _ _⟩

theorem ingest_withBs {bs : ByteStream} {s : State} (h : bs.capacity = s.bs.capacity) : IngestStep s (s.withBs bs) :=
  ⟨rfl, rfl, rfl, h, rfl, rfl, rfl, rfl, List.prefix_refl _⟩

theorem ingest_append (b : Byte) (s : State) : IngestStep s (s.append b) := by
  by_cases h : s.bs.wi < s.bs.capacity
  · refine ⟨by simp, by simp, by simp, by simp, by simp, ?_, ?_, ?_, ?_⟩ <;> simp [State.append, h]
  · rw [State.append_full h]
    exact ingest_emit _ s

theorem ingest_appendAll (l : List Byte) (s : State) : IngestStep s (s.appendAll l) := by
  induction l generalizing s with
  | nil => exact IngestStep.refl s
  | cons b l ih => exact (ingest_append b s).trans (ih (s.append b))

theorem ingest_readWord (w n : Nat) (s : State) : IngestStep s (s.readWord w n).2 := by
  rw [State.readWord_snd]
  exact ingest_withBs rfl

theorem ingest_setReader (i : Int) (s : State) : IngestStep s (s.setReader i) := ingest_withBs rfl

theorem ingest_clear (s : State) : IngestStep s s.clear := ingest_withBs rfl

theorem ingest_compact (s : State) : IngestStep s s.compact := ingest_withBs rfl

theorem ingest_dispose (s : State) : IngestStep s (dispose s) :=
  ⟨rfl, rfl, rfl, rfl, rfl, rfl, rfl, rfl, List.prefix_refl _⟩

theorem ingest_sync (s : State) : IngestStep s (syncStage s) := by
  unfold syncStage
  split
  · split
    · exact ⟨rfl, rfl, rfl, rfl, rfl, rfl, rfl, rfl, List.prefix_append _ _⟩
    · exact ((ingest_setReader 1 s).trans (ingest_compact _)).trans (ingest_emit _ _)
  · exact IngestStep.refl s

theorem ingest_readChecksum (s : State) : IngestStep s (readChecksum s).2 :=
  (ingest_setReader _ s).trans (ingest_readWord _ _ _)

theorem ingest_decode (s : State) : IngestStep s (decodeStage s).2 :=
  (((ingest_readWord _ _ s).trans (ingest_readWord _ _ _)).trans (ingest_readWord _ _ _)).trans
    (ingest_readWord _ _ _)

/-- What `VALIDATE` does: ingest work alone when the checksum fails; otherwise ingest work, one `APPLY`, disposal. -/
theorem validateStage_cases (now : Time) (s : State) :
    (IngestStep s (validateStage now s) ∧ .checksumFail ∈ (validateStage now s).io.trace) ∨
      ∃ c u, IngestStep s u ∧ .frameOk ∈ u.io.trace ∧ validateStage now s = dispose (applyStage c now u) := by
  unfold validateStage
  simp only
  split
  · refine Or.inr ⟨_, _, ((ingest_readChecksum s).trans (ingest_emit .frameOk _)).trans (ingest_decode _), ?_, rfl⟩
    exact (ingest_decode _).trace.subset (by simp)
  · refine Or.inl ⟨((ingest_readChecksum s).trans (ingest_emit .checksumFail _)).trans (ingest_dispose _), ?_⟩
    simp [dispose, State.clear]

/-- A relation that ingest work and `APPLY` keep is kept by `VALIDATE`, -/
theorem validateStage_rel {R : State → State → Prop} (htrans : ∀ s u t, R s u → R u t → R s t)
    (hingest : ∀ s t, IngestStep s t → R s t) (now : Time) (happly : ∀ c s, R s (applyStage c now s)) (s : State) :
    R s (validateStage now s) := by
  rcases validateStage_cases now s with ⟨h, -⟩ | ⟨c, u, h, -, e⟩
  · exact hingest _ _ h
  · rw [e]
    exact htrans _ _ _ (hingest _ _ h) (htrans _ _ _ (happly c u) (hingest _ _ (ingest_dispose _)))

/-- by `RX`, -/
theorem receive_rel {R : State → State → Prop} (htrans : ∀ s u t, R s u → R u t → R s t)
    (hingest : ∀ s t, IngestStep s t → R s t) (now : Time) (happly : ∀ c s, R s (applyStage c now s)) (b : Byte)
    (s : State) : R s (receive now b s) := by
  have h := hingest _ _ ((ingest_append b s).trans (ingest_sync (s.append b)))
  unfold receive completionStage
  split
  · exact htrans _ _ _ h (validateStage_rel htrans hingest now happly _)
  · exact h

/-- and by the reception of any number of bytes. -/
theorem receiveAll_rel {R : State → State → Prop} (htrans : ∀ s u t, R s u → R u t → R s t)
    (hingest : ∀ s t, IngestStep s t → R s t) (now : Time) (happly : ∀ c s, R s (applyStage c now s))
    (l : List Byte) (s : State) : R s (receiveAll now l s) := by
  induction l generalizing s with
  | nil => exact hingest _ _ (IngestStep.refl s)
  | cons b l ih => exact htrans _ _ _ (receive_rel htrans hingest now happly b s) (ih (receive now b s))

/-- `APPLY` touches no part of the ByteStream, no `expected`, no clock, no flush pulse. -/
theorem applyStage_ingest (c : Command) (now : Time) (s : State) :
    (applyStage c now s).bs = s.bs ∧ (applyStage c now s).expected = s.expected ∧
      (applyStage c now s).io.clock = s.io.clock ∧ (applyStage c now s).io.flushed = s.io.flushed := by
  obtain ⟨h1, h2, h3, h4⟩ := State.updateFields_ingest c s
  unfold applyStage classBody
  split
  · exact ⟨rfl, rfl, rfl, rfl⟩
  · simp [estopBody, State.takeEstop]
  · simp [startBody, startEdge, h1, h2, h4]
  · simp [stopBody, stopEdge, h1, h2, h4]
  · simp [updateBody, h1, h2, h4]

/-! ## `APPLY` reads nothing of the ingest side -/

/-- The same device with another ByteStream, another `expected`, and labels before its trace. -/
def State.reframe (bs : ByteStream) (ex : Option Byte) (tr : List Event) (s : State) : State :=
  { s with bs := bs, expected := ex, io := { s.io with trace := tr ++ s.io.trace } }

section
variable (bs : ByteStream) (ex : Option Byte) (tr : List Event)

theorem reframe_emit (e : Event) (s : State) : (s.reframe bs ex tr).emit e = (s.emit e).reframe bs ex tr := by
  simp [State.emit, State.reframe, List.append_assoc]

theorem reframe_sound (n : Word32) (now : Time) (s : State) :
    (s.reframe bs ex tr).sound n now = (s.sound n now).reframe bs ex tr := by
  unfold State.sound
  split <;> rfl

theorem reframe_updateFields (c : Command) (s : State) :
    (s.reframe bs ex tr).updateFields c = (s.updateFields c).reframe bs ex tr := by
  have h1 : ∀ s : State, (s.reframe bs ex tr).updateColour c = (s.updateColour c).reframe bs ex tr := by
    intro s
    unfold State.updateColour
    show (if c.colour != s.dev.colour then (if c.colour != 3 then _ else _) else _) = _
    (repeat' split) <;> rfl
  have h2 : ∀ s : State, (s.reframe bs ex tr).updateDetail c = (s.updateDetail c).reframe bs ex tr := by
    intro s
    unfold State.updateDetail
    show (if c.detail != s.dev.detail then (if c.detail != 3 then _ else _) else _) = _
    (repeat' split) <;> rfl
  have h3 : ∀ s : State, (s.reframe bs ex tr).updateTime c = (s.updateTime c).reframe bs ex tr := by
    intro s
    unfold State.updateTime
    show (if clampTime c.time != s.dev.time || c.timeEnabled != s.dev.timeEnabled then _ else _) = _
    (repeat' split) <;> rfl
  unfold State.updateFields
  rw [show (s.reframe bs ex tr).mirrorFields c = (s.mirrorFields c).reframe bs ex tr from rfl, h1, h2, h3]

theorem reframe_takeEstop (now : Time) (s : State) :
    (s.reframe bs ex tr).takeEstop now = (s.takeEstop now).reframe bs ex tr := by
  let cancelled : State → State := fun s =>
    ((s.withDev { s.dev with countdown := false }).withBz { s.bz with active := false }).setTone .off
  show ((cancelled (s.reframe bs ex tr)).sound Config.params.estopPulses now).enterBlank = _
  rw [show cancelled (s.reframe bs ex tr) = (cancelled s).reframe bs ex tr from rfl, reframe_sound]
  rfl

/-- `APPLY` does to the device what it does whatever stands in the ByteStream, and appends its labels. -/
theorem applyStage_reframe (c : Command) (now : Time) (s : State) :
    applyStage c now (s.reframe bs ex tr) = (applyStage c now s).reframe bs ex tr := by
  unfold applyStage
  rw [show classify c (s.reframe bs ex tr).dev = classify c s.dev from rfl]
  unfold classBody
  cases classify c s.dev <;> simp only
  · exact reframe_emit ..
  · unfold estopBody
    rw [reframe_takeEstop]
    exact reframe_emit ..
  · unfold startBody startEdge
    rw [reframe_updateFields]
    simp only
    generalize s.updateFields c = u
    let anchored : State → State := fun u =>
      (u.withDev { u.dev with lastTickTime := now, time := preDecrement u.dev.time }).redisplayDigits
    have h : ∀ n : Word32, (anchored (u.reframe bs ex tr)).sound n now = ((anchored u).sound n now).reframe bs ex tr :=
      fun n => reframe_sound bs ex tr n now (anchored u)
    rw [h, ← reframe_emit]
    rfl
  · unfold stopBody stopEdge
    rw [reframe_updateFields]
    simp only
    rw [reframe_sound, ← reframe_emit]
    rfl
  · unfold updateBody
    rw [reframe_updateFields]
    exact reframe_emit ..

end

end Sys2Proof.Machine
end

