-- ==== Sys2Proof/Laws/Pass.lean ====
section
/-! SUPPORT. The control loop: no operation reads or writes what is still to run, so that a run is the same whatever
follows it; and how runs are put together. -/

namespace Sys2Proof.Machine

/-! ## Runs put together -/

/-- What follows an outcome: `k` of a next state, the same stop otherwise. -/
def Step.bind (o : Step) (k : State → Step) : Step :=
  match o with
  | .next t => k t
  | .fault r => .fault r
  | .refused r => .refused r

@[simp] theorem Step.bind_next (t : State) (k : State → Step) : Step.bind (.next t) k = k t := rfl

theorem Step.bind_assoc (o : Step) (k l : State → Step) :
    Step.bind (Step.bind o k) l = Step.bind o (fun t => Step.bind (k t) l) := by
  cases o <;> rfl

theorem Step.bind_id (o : Step) : Step.bind o .next = o := by cases o <;> rfl

theorem execAll_cons (i : Instr) (is : List Instr) (s : State) :
    execAll (i :: is) s = Step.bind (exec i s) (execAll is) := rfl

theorem execAll_append (is js : List Instr) (s : State) :
    execAll (is ++ js) s = Step.bind (execAll is s) (execAll js) := by
  induction is generalizing s with
  | nil => rfl
  | cons i is ih =>
    rw [List.cons_append, execAll_cons, execAll_cons, Step.bind_assoc]
    exact congrArg _ (funext ih)

theorem runLoop_cons (p : Pass) (ps : List Pass) (s : State) :
    runLoop (p :: ps) s = Step.bind (execAll p.ops s) (runLoop ps) := rfl

theorem stepN_succ (n : Nat) (s : State) : stepN (n + 1) s = Step.bind (step s) (stepN n) := rfl

theorem stepN_add (m n : Nat) (s : State) : stepN (m + n) s = Step.bind (stepN m s) (stepN n) := by
  induction m generalizing s with
  | zero => rw [Nat.zero_add]; rfl
  | succ m ih =>
    rw [Nat.succ_add, stepN_succ, stepN_succ, Step.bind_assoc]
    exact congrArg _ (funext ih)

/-! ## What is still to run is not looked at -/

/-- The same state with other operations and passes still to run. -/
def State.withAsks (input : List Request) (passes : List Pass) (s : State) : State :=
  { s with io := { s.io with input := input, passes := passes } }

/-- An outcome with other operations and passes still to run. -/
def Step.withAsks (input : List Request) (passes : List Pass) (o : Step) : Step :=
  Step.bind o (fun t => .next (t.withAsks input passes))

section
variable (q : List Request) (ps : List Pass)

theorem withAsks_emit (e : Event) (s : State) : (s.withAsks q ps).emit e = (s.emit e).withAsks q ps := rfl

theorem withAsks_setReader (i : Int) (s : State) :
    (s.withAsks q ps).setReader i = (s.setReader i).withAsks q ps := rfl

theorem withAsks_compact (s : State) : (s.withAsks q ps).compact = s.compact.withAsks q ps := rfl

theorem withAsks_emit_expected (e : Event) (l : Option Byte) (s : State) :
    ({ s.withAsks q ps with expected := l }).emit e = (({ s with expected := l } : State).emit e).withAsks q ps := rfl

theorem withAsks_readWord (w n : Nat) (s : State) :
    (s.withAsks q ps).readWord w n = ((s.readWord w n).1, (s.readWord w n).2.withAsks q ps) := rfl

theorem withAsks_decodeStage (s : State) :
    decodeStage (s.withAsks q ps) = ((decodeStage s).1, (decodeStage s).2.withAsks q ps) := by
  simp only [decodeStage, withAsks_readWord]

theorem withAsks_readChecksum (s : State) :
    readChecksum (s.withAsks q ps) = ((readChecksum s).1, (readChecksum s).2.withAsks q ps) := by
  simp only [readChecksum, withAsks_setReader, withAsks_readWord]

theorem withAsks_readInto (w n : Nat) (mk : BitVec w → Result) (s : State) :
    (s.withAsks q ps).readInto w n mk = (s.readInto w n mk).withAsks q ps := rfl

theorem withAsks_append (b : Byte) (s : State) : (s.withAsks q ps).append b = (s.append b).withAsks q ps := by
  unfold State.append
  show (if s.bs.wi < s.bs.capacity then _ else _) = _
  split <;> rfl

theorem withAsks_appendAll (l : List Byte) (s : State) :
    (s.withAsks q ps).appendAll l = (s.appendAll l).withAsks q ps := by
  induction l generalizing s with
  | nil => rfl
  | cons b l ih =>
    show ((s.withAsks q ps).append b).appendAll l = _
    rw [withAsks_append, ih]
    rfl

theorem withAsks_sound (n : Word32) (now : Time) (s : State) :
    (s.withAsks q ps).sound n now = (s.sound n now).withAsks q ps := by
  unfold State.sound
  split <;> rfl

theorem withAsks_fullRedisplay (s : State) : (s.withAsks q ps).fullRedisplay = s.fullRedisplay.withAsks q ps := by
  have h1 : ∀ s : State, (s.withAsks q ps).redisplayIndicator = s.redisplayIndicator.withAsks q ps := by
    intro s
    unfold State.redisplayIndicator
    show (if s.dev.colour != 3 then _ else _) = _
    split <;> rfl
  have h2 : ∀ s : State, (s.withAsks q ps).redisplayDetail = s.redisplayDetail.withAsks q ps := by
    intro s
    unfold State.redisplayDetail
    show (if s.dev.detail != 3 then _ else _) = _
    split <;> rfl
  unfold State.fullRedisplay
  rw [h1, h2]
  rfl

theorem withAsks_updateFields (c : Command) (s : State) :
    (s.withAsks q ps).updateFields c = (s.updateFields c).withAsks q ps := by
  have h1 : ∀ s : State, (s.withAsks q ps).updateColour c = (s.updateColour c).withAsks q ps := by
    intro s
    unfold State.updateColour
    show (if c.colour != s.dev.colour then (if c.colour != 3 then _ else _) else _) = _
    (repeat' split) <;> rfl
  have h2 : ∀ s : State, (s.withAsks q ps).updateDetail c = (s.updateDetail c).withAsks q ps := by
    intro s
    unfold State.updateDetail
    show (if c.detail != s.dev.detail then (if c.detail != 3 then _ else _) else _) = _
    (repeat' split) <;> rfl
  have h3 : ∀ s : State, (s.withAsks q ps).updateTime c = (s.updateTime c).withAsks q ps := by
    intro s
    unfold State.updateTime
    show (if clampTime c.time != s.dev.time || c.timeEnabled != s.dev.timeEnabled then _ else _) = _
    split <;> rfl
  unfold State.updateFields
  rw [show (s.withAsks q ps).mirrorFields c = (s.mirrorFields c).withAsks q ps from rfl, h1, h2, h3]

theorem withAsks_applyStage (c : Command) (now : Time) (s : State) :
    applyStage c now (s.withAsks q ps) = (applyStage c now s).withAsks q ps := by
  unfold applyStage
  rw [show classify c (s.withAsks q ps).dev = classify c s.dev from rfl]
  unfold classBody
  cases classify c s.dev <;> simp only
  · rfl
  · let cancelled : State → State := fun s =>
      ((s.withDev { s.dev with countdown := false }).withBz { s.bz with active := false }).setTone .off
    show (((cancelled s).withAsks q ps).sound Config.params.estopPulses now).enterBlank.emit .cmdEstop = _
    rw [withAsks_sound]
    rfl
  · unfold startBody startEdge
    rw [withAsks_updateFields]
    simp only
    generalize s.updateFields c = u
    let anchored : State → State := fun u =>
      (u.withDev { u.dev with lastTickTime := now, time := preDecrement u.dev.time }).redisplayDigits
    have h : ∀ n : Word32, (anchored (u.withAsks q ps)).sound n now = ((anchored u).sound n now).withAsks q ps :=
      fun n => withAsks_sound q ps n now (anchored u)
    rw [h, ← withAsks_emit]
    rfl
  · unfold stopBody stopEdge
    rw [withAsks_updateFields]
    simp only
    rw [withAsks_sound, ← withAsks_emit]
    rfl
  · unfold updateBody
    rw [withAsks_updateFields]
    rfl

theorem withAsks_syncStage (s : State) : syncStage (s.withAsks q ps) = (syncStage s).withAsks q ps := by
  unfold syncStage
  rw [show (s.withAsks q ps).headerDue = s.headerDue from rfl, show (s.withAsks q ps).bs = s.bs from rfl,
    withAsks_setReader, withAsks_compact, withAsks_emit]
  by_cases h : s.headerDue = true
  · rw [if_pos h, if_pos h]
    by_cases k : s.bs.startsWithMagic = true
    · rw [if_pos k, if_pos k]
      exact withAsks_emit_expected q ps _ _ s
    · rw [if_neg k, if_neg k]
  · rw [if_neg h, if_neg h]

theorem withAsks_validateStage (now : Time) (s : State) :
    validateStage now (s.withAsks q ps) = (validateStage now s).withAsks q ps := by
  unfold validateStage
  rw [withAsks_readChecksum]
  generalize readChecksum s = ck
  simp only [withAsks_emit, withAsks_decodeStage, withAsks_applyStage]
  rw [show (ck.2.withAsks q ps).bs = ck.2.bs from rfl]
  split <;> rfl

theorem withAsks_receive (now : Time) (b : Byte) (s : State) :
    receive now b (s.withAsks q ps) = (receive now b s).withAsks q ps := by
  unfold receive
  rw [withAsks_append, withAsks_syncStage]
  generalize syncStage (s.append b) = u
  unfold completionStage
  rw [show (u.withAsks q ps).frameComplete = u.frameComplete from rfl, withAsks_validateStage]
  split <;> rfl

theorem withAsks_receiveAll (now : Time) (l : List Byte) (s : State) :
    receiveAll now l (s.withAsks q ps) = (receiveAll now l s).withAsks q ps := by
  induction l generalizing s with
  | nil => rfl
  | cons b l ih =>
    show receiveAll now l (receive now b (s.withAsks q ps)) = _
    rw [withAsks_receive, ih]
    rfl

theorem withAsks_tickCountdown (now : Time) (s : State) :
    tickCountdown now (s.withAsks q ps) = (tickCountdown now s).withAsks q ps := by
  unfold tickCountdown
  rw [show countdownDue now (s.withAsks q ps).dev = countdownDue now s.dev from rfl,
    show (s.withAsks q ps).dev = s.dev from rfl]
  have h : countdownEnd now (s.withAsks q ps) = (countdownEnd now s).withAsks q ps := by
    unfold countdownEnd
    rw [show (s.withAsks q ps).dev = s.dev from rfl, withAsks_sound]
    simp only
    generalize s.sound s.dev.endNumBeeps now = u
    rw [show (u.withAsks q ps).dev = u.dev from rfl]
    split <;> rfl
  rw [h]
  (repeat' split) <;> rfl

theorem withAsks_tickBuzzer (now : Time) (vol : Volume) (s : State) :
    tickBuzzer now vol (s.withAsks q ps) = (tickBuzzer now vol s).withAsks q ps := by
  have h1 : (s.withAsks q ps).endSchedule = s.endSchedule.withAsks q ps := by
    let after : State → State := fun u =>
      if u.dev.countdown then u else (u.withDev { u.dev with mode := .idle }).fullRedisplay
    have h : ∀ u : State, after (u.withAsks q ps) = (after u).withAsks q ps := by
      intro u
      show (if u.dev.countdown then u.withAsks q ps
        else ((u.withDev { u.dev with mode := .idle }).withAsks q ps).fullRedisplay) =
        State.withAsks q ps (if u.dev.countdown then u else (u.withDev { u.dev with mode := .idle }).fullRedisplay)
      rw [withAsks_fullRedisplay]
      split <;> rfl
    exact h (((s.withBz { s.bz with active := false }).setTone .off).emit .buzzerEnd)
  have h2 : toggleTone now vol (s.withAsks q ps) = (toggleTone now vol s).withAsks q ps := by
    unfold toggleTone
    show (if toneWanted now s.bz.startTime then (if s.out.tone = .off then _ else _)
      else (if s.out.tone = .off then _ else _)) = _
    (repeat' split) <;> rfl
  unfold tickBuzzer
  rw [h1, h2, show (s.withAsks q ps).bz = s.bz from rfl]
  (repeat' split) <;> rfl

/-- No operation looks at what is still to run, or changes it. -/
theorem withAsks_effectOf (i : Instr) (s : State) : effectOf i (s.withAsks q ps) = (effectOf i s).withAsks q ps := by
  cases i with
  | rx b now => exact withAsks_receive q ps now b s
  | tick now vol =>
    simp only [effectOf]
    rw [withAsks_tickCountdown, withAsks_tickBuzzer]
  | flush =>
    show flushDisplay _ = (flushDisplay s).withAsks q ps
    unfold flushDisplay
    rw [show (s.withAsks q ps).flushDue = s.flushDue from rfl]
    split <;> rfl
  | sync => exact withAsks_syncStage q ps s
  | validate now => exact withAsks_validateStage q ps now s
  | frame f now => exact withAsks_receiveAll q ps now f.bytes s
  | bsResize n =>
    simp only [effectOf]
    unfold State.resize
    split <;> rfl
  | bsAppend b => exact withAsks_append q ps b s
  | bsWru16 v => exact withAsks_appendAll q ps _ s
  | bsWru32 v => exact withAsks_appendAll q ps _ s
  | bsWru64 v => exact withAsks_appendAll q ps _ s
  | bsWri16 v => exact withAsks_appendAll q ps _ s
  | bsWri32 v => exact withAsks_appendAll q ps _ s
  | bsWri64 v => exact withAsks_appendAll q ps _ s
  | bsWrf32 v => exact withAsks_appendAll q ps _ s
  | bsWrf64 v => exact withAsks_appendAll q ps _ s
  | bsRdu16 => exact withAsks_readInto q ps 16 2 .u16 s
  | bsRdu32 => exact withAsks_readInto q ps 32 4 .u32 s
  | bsRdu64 => exact withAsks_readInto q ps 64 8 .u64 s
  | bsRdi16 => exact withAsks_readInto q ps 16 2 (fun v => .signed v.toInt) s
  | bsRdi32 => exact withAsks_readInto q ps 32 4 (fun v => .signed v.toInt) s
  | bsRdi64 => exact withAsks_readInto q ps 64 8 (fun v => .signed v.toInt) s
  | bsRdf32 => exact withAsks_readInto q ps 32 4 .f32 s
  | bsRdf64 => exact withAsks_readInto q ps 64 8 .f64 s
  | bsCompact => exact withAsks_compact q ps s
  | decode =>
    simp only [effectOf, withAsks_decodeStage]
    rfl
  | apply c now => exact withAsks_applyStage q ps c now s
  | controlWord cw t sb eb now => exact withAsks_applyStage q ps _ now s
  | cmdReject c now => exact withAsks_applyStage q ps c now s
  | cmdEstop c now => exact withAsks_applyStage q ps c now s
  | cmdStart c now => exact withAsks_applyStage q ps c now s
  | cmdStop c now => exact withAsks_applyStage q ps c now s
  | cmdUpdate c now => exact withAsks_applyStage q ps c now s
  | _ => rfl

theorem withAsks_run {k : State → State} (hk : ∀ s, k (s.withAsks q ps) = (k s).withAsks q ps) (s : State) :
    run k (s.withAsks q ps) = Step.withAsks q ps (run k s) := congrArg Host.Outcome.next (hk s.begin)

theorem withAsks_runArray {k : State → State} (hk : ∀ s, k (s.withAsks q ps) = (k s).withAsks q ps) (s : State) :
    runArray k (s.withAsks q ps) = Step.withAsks q ps (runArray k s) := by
  unfold runArray
  rw [withAsks_run q ps hk, show (s.withAsks q ps).bs = s.bs from rfl]
  split <;> rfl

theorem withAsks_runAt {now : Time} {k : State → State} (hk : ∀ s, k (s.withAsks q ps) = (k s).withAsks q ps)
    (s : State) : runAt now k (s.withAsks q ps) = Step.withAsks q ps (runAt now k s) := by
  unfold runAt
  rw [withAsks_run q ps (k := fun s => k (s.setClock now)) (fun s => hk (s.setClock now)),
    show (s.withAsks q ps).io.clock = s.io.clock from rfl]
  split <;> rfl

theorem withAsks_runArrayAt {now : Time} {k : State → State} (hk : ∀ s, k (s.withAsks q ps) = (k s).withAsks q ps)
    (s : State) : runArrayAt now k (s.withAsks q ps) = Step.withAsks q ps (runArrayAt now k s) := by
  unfold runArrayAt
  rw [withAsks_runAt q ps hk, show (s.withAsks q ps).bs = s.bs from rfl]
  split <;> rfl

end

/-- An operation runs the same whatever is still to run after it. -/
theorem exec_withAsks (q : List Request) (ps : List Pass) (i : Instr) (s : State) :
    exec i (s.withAsks q ps) = Step.withAsks q ps (exec i s) := by
  have hk := withAsks_effectOf q ps i
  rcases exec_cases i with ⟨-, h | h⟩ | ⟨now, -, h | h⟩ <;> rw [h]
  · exact withAsks_run q ps hk s
  · exact withAsks_runArray q ps hk s
  · exact withAsks_runAt q ps hk s
  · exact withAsks_runArrayAt q ps hk s

/-- So do operations run one after the other. -/
theorem execAll_withAsks (q : List Request) (ps : List Pass) (is : List Instr) (s : State) :
    execAll is (s.withAsks q ps) = Step.withAsks q ps (execAll is s) := by
  induction is generalizing s with
  | nil => rfl
  | cons i is ih =>
    rw [execAll_cons, execAll_cons, exec_withAsks, Step.withAsks, Step.withAsks, Step.bind_assoc, Step.bind_assoc]
    exact congrArg _ (funext ih)

/-! ## What a step takes -/

theorem State.nextRequest_cons {s : State} {r : Request} {rest : List Request} (h : s.io.input = r :: rest) :
    s.nextRequest = some (r, s.withAsks rest s.io.passes) := by
  simp [State.nextRequest, State.openPass, State.withAsks, h]

theorem State.nextRequest_pass {s : State} {p : Pass} {ps : List Pass} (h : s.io.input = [])
    (hp : s.io.passes = p :: ps) :
    s.nextRequest = some (encode (.sample p.mp), s.withAsks (p.ops.tail.map encode) ps) := by
  simp [State.nextRequest, State.openPass, State.withAsks, h, hp, Pass.ops]

theorem State.nextRequest_none {s : State} (h : s.io.input = []) (hp : s.io.passes = []) :
    s.nextRequest = none := by
  simp [State.nextRequest, State.openPass, h, hp]

/-- All a step can do: nothing, when nothing is to run; or one operation, on the same state with less still to run. -/
theorem step_cases {s t : State} (h : step s = .next t) :
    t = s ∧ s.io.input = [] ∧ s.io.passes = [] ∨ ∃ i q ps, exec i (s.withAsks q ps) = .next t := by
  have one : ∀ {r : Request} {q ps}, s.nextRequest = some (r, s.withAsks q ps) →
      ∃ i q ps, exec i (s.withAsks q ps) = .next t := by
    intro r q ps hr
    simp only [step, hr] at h
    split at h
    · exact ⟨_, _, _, h⟩
    · cases h
  cases hi : s.io.input with
  | cons r rest => exact .inr (one (State.nextRequest_cons hi))
  | nil =>
    cases hp : s.io.passes with
    | cons p ps => exact .inr (one (State.nextRequest_pass hi hp))
    | nil =>
      simp only [step, State.nextRequest_none hi hp] at h
      exact .inl ⟨by cases h; rfl, rfl, rfl⟩

end Sys2Proof.Machine
end

