-- ==== Sys2Proof/Laws/PerInstr.lean ====
section
/-! SUPPORT. A law stated per operation: its encoding has the fixed bits that its row of spec/opcode_table.json gives
it (30_encoding.md R81, R88, R94 to R96). -/

namespace Sys2Proof.Laws.EncodingMatchesTable

open Sys2Proof

/-- A row of spec/opcode_table.json: the code space, how many bytes at the start of a request its fixed bits lie in,
and the mask and match of those bytes read big-endian. -/
structure Row where
  format : Format
  width : Nat
  mask : Nat
  fixed : Nat

/-- The row of each operation, copied from spec/opcode_table.json. The row of CW fixes no bit. -/
def row : Instr → Row
  | .reset => ⟨.opsel, 1, 0xFF, 0x00⟩
  | .sample _ => ⟨.opsel, 1, 0xFF, 0x01⟩
  | .rx _ _ => ⟨.opsel, 1, 0xFF, 0x02⟩
  | .tick _ _ => ⟨.opsel, 1, 0xFF, 0x03⟩
  | .flush => ⟨.opsel, 1, 0xFF, 0x04⟩
  | .sync => ⟨.opsel, 1, 0xFF, 0x10⟩
  | .validate _ => ⟨.opsel, 1, 0xFF, 0x11⟩
  | .decode => ⟨.opsel, 1, 0xFF, 0x12⟩
  | .apply _ _ => ⟨.opsel, 1, 0xFF, 0x13⟩
  | .bsAppend _ => ⟨.opsel, 1, 0xFF, 0x20⟩
  | .bsPeek _ => ⟨.opsel, 1, 0xFF, 0x21⟩
  | .bsConsume => ⟨.opsel, 1, 0xFF, 0x22⟩
  | .bsRdu16 => ⟨.opsel, 1, 0xFF, 0x23⟩
  | .bsRdu32 => ⟨.opsel, 1, 0xFF, 0x24⟩
  | .bsRdu64 => ⟨.opsel, 1, 0xFF, 0x25⟩
  | .bsRdi16 => ⟨.opsel, 1, 0xFF, 0x26⟩
  | .bsRdi32 => ⟨.opsel, 1, 0xFF, 0x27⟩
  | .bsRdi64 => ⟨.opsel, 1, 0xFF, 0x28⟩
  | .bsRdf32 => ⟨.opsel, 1, 0xFF, 0x29⟩
  | .bsRdf64 => ⟨.opsel, 1, 0xFF, 0x2A⟩
  | .bsWru16 _ => ⟨.opsel, 1, 0xFF, 0x2B⟩
  | .bsWru32 _ => ⟨.opsel, 1, 0xFF, 0x2C⟩
  | .bsWru64 _ => ⟨.opsel, 1, 0xFF, 0x2D⟩
  | .bsWri16 _ => ⟨.opsel, 1, 0xFF, 0x2E⟩
  | .bsWri32 _ => ⟨.opsel, 1, 0xFF, 0x2F⟩
  | .bsWri64 _ => ⟨.opsel, 1, 0xFF, 0x30⟩
  | .bsWrf32 _ => ⟨.opsel, 1, 0xFF, 0x31⟩
  | .bsWrf64 _ => ⟨.opsel, 1, 0xFF, 0x32⟩
  | .bsResize _ => ⟨.opsel, 1, 0xFF, 0x33⟩
  | .bsSetri _ => ⟨.opsel, 1, 0xFF, 0x34⟩
  | .bsSetwi _ => ⟨.opsel, 1, 0xFF, 0x35⟩
  | .bsClear => ⟨.opsel, 1, 0xFF, 0x36⟩
  | .bsCompact => ⟨.opsel, 1, 0xFF, 0x37⟩
  | .frame _ _ => ⟨.frame, 4, 0xFFFFFFFF, 0xA411E4D8⟩
  | .controlWord _ _ _ _ _ => ⟨.controlWord, 0, 0, 0⟩
  | .cmdReject _ _ => ⟨.command .reject, 4, 0x40, 0x40⟩
  | .cmdEstop _ _ => ⟨.command .estop, 4, 0x80, 0x80⟩
  | .cmdStart _ _ => ⟨.command .start, 4, 0xA0, 0x20⟩
  | .cmdStop _ _ => ⟨.command .stop, 4, 0xA0, 0x0⟩
  | .cmdUpdate _ _ => ⟨.command .update, 4, 0x80, 0x0⟩

/-- The encoding of a well-formed operation stands in the code space of its row and has the row's fixed bits. -/
def Statement (i : Instr) : Prop :=
  i.wf = true → (encode i).format = (row i).format ∧
    ∃ v rest, takeBE (row i).width 0 (encode i).bytes = some (v, rest) ∧ v &&& (row i).mask = (row i).fixed

/-! ## The bits of a control word -/

/-- The control word is what the first four bytes of a Command's arguments say. -/
theorem takeBE_args (c : Command) (now : Time) : ∃ rest,
    takeBE 4 0 (c.args now) = some (c.controlWord.toNat, rest) := by
  have hcw : c.controlWord.toNat % 256 ^ 4 = c.controlWord.toNat := Nat.mod_eq_of_lt c.controlWord.isLt
  have h := takeBE_beBytes 4 c.controlWord.toNat 0 (beBytes 4 c.time.toNat ++ (beBytes 4 c.startBeeps.toNat ++
    (beBytes 4 c.endBeeps.toNat ++ beBytes 8 now.toNat)))
  rw [Nat.zero_mul, Nat.zero_add, hcw] at h
  exact ⟨_, by simpa only [Command.args, Command.payload, List.append_assoc] using h⟩

theorem testBit_five (c : Command) : c.controlWord.toNat.testBit 5 = c.countdownActive := by
  rw [BitVec.testBit_toNat]
  simp only [Command.controlWord, BitVec.getLsbD_append]
  simp

theorem testBit_six (c : Command) : c.controlWord.toNat.testBit 6 = c.matchplay := by
  rw [BitVec.testBit_toNat]
  simp only [Command.controlWord, BitVec.getLsbD_append]
  simp

theorem testBit_seven (c : Command) : c.controlWord.toNat.testBit 7 = c.emergencyStop := by
  rw [BitVec.testBit_toNat]
  simp only [Command.controlWord, BitVec.getLsbD_append]
  simp

/-- The two bits that tell START and STOP apart. -/
theorem and_a0 (v : Nat) : v &&& 0xA0 = (v.testBit 7).toNat * 2 ^ 7 ||| (v.testBit 5).toNat * 2 ^ 5 := by
  rw [show 0xA0 = 2 ^ 7 ||| 2 ^ 5 from rfl, Nat.and_or_distrib_left, Nat.and_two_pow, Nat.and_two_pow]

theorem reject_bits (c : Command) (h : c.fits .reject = true) : c.controlWord.toNat &&& 0x40 = 0x40 := by
  rw [show 0x40 = 2 ^ 6 from rfl, Nat.and_two_pow, testBit_six, show c.matchplay = true from h]
  rfl

theorem estop_bits (c : Command) (h : c.fits .estop = true) : c.controlWord.toNat &&& 0x80 = 0x80 := by
  rw [show 0x80 = 2 ^ 7 from rfl, Nat.and_two_pow, testBit_seven, show c.emergencyStop = true from h]
  rfl

theorem start_bits (c : Command) (h : c.fits .start = true) : c.controlWord.toNat &&& 0xA0 = 0x20 := by
  simp only [Command.fits, Bool.and_eq_true, Bool.not_eq_true'] at h
  rw [and_a0, testBit_seven, testBit_five, h.1, h.2]
  rfl

theorem stop_bits (c : Command) (h : c.fits .stop = true) : c.controlWord.toNat &&& 0xA0 = 0 := by
  simp only [Command.fits, Bool.and_eq_true, Bool.not_eq_true'] at h
  rw [and_a0, testBit_seven, testBit_five, h.1, h.2]
  rfl

theorem update_bits (c : Command) (h : c.fits .update = true) : c.controlWord.toNat &&& 0x80 = 0 := by
  simp only [Command.fits, Bool.not_eq_true'] at h
  rw [show 0x80 = 2 ^ 7 from rfl, Nat.and_two_pow, testBit_seven, h]
  rfl

/-! ## One lemma per operation -/

/-- An operation of the opsel code space starts with its opsel byte. -/
theorem opsel_row {i : Instr} {op : Byte} {args : List Byte}
    (he : encode i = opselRequest op args) (hr : row i = ⟨.opsel, 1, 0xFF, op.toNat⟩) : Statement i := by
  intro _
  rw [he, hr]
  refine ⟨rfl, op.toNat, args, by simp [opselRequest, takeBE], ?_⟩
  simp only
  rw [show 0xFF = 2 ^ 8 - 1 from rfl, Nat.and_two_pow_sub_one_eq_mod, Nat.mod_eq_of_lt op.isLt]

/-- An operation of a command class starts with its control word. -/
theorem command_row {i : Instr} {cls : CmdClass} {c : Command} {now : Time} {mask fixed : Nat}
    (he : encode i = ⟨.command cls, c.args now⟩) (hr : row i = ⟨.command cls, 4, mask, fixed⟩)
    (h : i.wf = true → c.controlWord.toNat &&& mask = fixed) : Statement i := by
  intro hw
  rw [he, hr]
  obtain ⟨rest, hrest⟩ := takeBE_args c now
  exact ⟨rfl, _, rest, hrest, h hw⟩

theorem reset : Statement .reset := opsel_row rfl rfl
theorem sample (mp : Matchplay) : Statement (.sample mp) := opsel_row rfl rfl
theorem rx (b : Byte) (now : Time) : Statement (.rx b now) := opsel_row rfl rfl
theorem tick (now : Time) (vol : Volume) : Statement (.tick now vol) := opsel_row rfl rfl
theorem flush : Statement .flush := opsel_row rfl rfl
theorem sync : Statement .sync := opsel_row rfl rfl
theorem validate (now : Time) : Statement (.validate now) := opsel_row rfl rfl
theorem decode : Statement .decode := opsel_row rfl rfl
theorem apply (c : Command) (now : Time) : Statement (.apply c now) := opsel_row rfl rfl
theorem bsAppend (b : Byte) : Statement (.bsAppend b) := opsel_row rfl rfl
theorem bsPeek (off : Word16) : Statement (.bsPeek off) := opsel_row rfl rfl
theorem bsConsume : Statement .bsConsume := opsel_row rfl rfl
theorem bsRdu16 : Statement .bsRdu16 := opsel_row rfl rfl
theorem bsRdu32 : Statement .bsRdu32 := opsel_row rfl rfl
theorem bsRdu64 : Statement .bsRdu64 := opsel_row rfl rfl
theorem bsRdi16 : Statement .bsRdi16 := opsel_row rfl rfl
theorem bsRdi32 : Statement .bsRdi32 := opsel_row rfl rfl
theorem bsRdi64 : Statement .bsRdi64 := opsel_row rfl rfl
theorem bsRdf32 : Statement .bsRdf32 := opsel_row rfl rfl
theorem bsRdf64 : Statement .bsRdf64 := opsel_row rfl rfl
theorem bsWru16 (v : Word16) : Statement (.bsWru16 v) := opsel_row rfl rfl
theorem bsWru32 (v : Word32) : Statement (.bsWru32 v) := opsel_row rfl rfl
theorem bsWru64 (v : Word64) : Statement (.bsWru64 v) := opsel_row rfl rfl
theorem bsWri16 (v : Word16) : Statement (.bsWri16 v) := opsel_row rfl rfl
theorem bsWri32 (v : Word32) : Statement (.bsWri32 v) := opsel_row rfl rfl
theorem bsWri64 (v : Word64) : Statement (.bsWri64 v) := opsel_row rfl rfl
theorem bsWrf32 (v : Word32) : Statement (.bsWrf32 v) := opsel_row rfl rfl
theorem bsWrf64 (v : Word64) : Statement (.bsWrf64 v) := opsel_row rfl rfl
theorem bsResize (n : Word32) : Statement (.bsResize n) := opsel_row rfl rfl
theorem bsSetri (k : Word32) : Statement (.bsSetri k) := opsel_row rfl rfl
theorem bsSetwi (k : Word32) : Statement (.bsSetwi k) := opsel_row rfl rfl
theorem bsClear : Statement .bsClear := opsel_row rfl rfl
theorem bsCompact : Statement .bsCompact := opsel_row rfl rfl
theorem frame (f : Frame) (now : Time) : Statement (.frame f now) :=
  fun _ => ⟨rfl, _, _, rfl, show 0xA411E4D8 &&& 0xFFFFFFFF = 0xA411E4D8 from rfl⟩

theorem controlWord (cw t sb eb : Word32) (now : Time) : Statement (.controlWord cw t sb eb now) :=
  fun _ => ⟨rfl, _, _, rfl, show 0 &&& 0 = 0 from rfl⟩

theorem cmdReject (c : Command) (now : Time) : Statement (.cmdReject c now) :=
  command_row rfl rfl (reject_bits c)
theorem cmdEstop (c : Command) (now : Time) : Statement (.cmdEstop c now) :=
  command_row rfl rfl (estop_bits c)
theorem cmdStart (c : Command) (now : Time) : Statement (.cmdStart c now) :=
  command_row rfl rfl (start_bits c)
theorem cmdStop (c : Command) (now : Time) : Statement (.cmdStop c now) :=
  command_row rfl rfl (stop_bits c)
theorem cmdUpdate (c : Command) (now : Time) : Statement (.cmdUpdate c now) :=
  command_row rfl rfl (update_bits c)

end Sys2Proof.Laws.EncodingMatchesTable
end

