-- ==== Sys2Proof/Tests/Slice0.lean ====
section
/-! SUPPORT. The model's own tests: ill-formed operations refused, words written from 30_encoding.md decoded, single
steps against 95_test_vectors.md (a vector's id stands in each docstring), and for every statement with hypotheses a
state and operands that meet them. -/

namespace Sys2Proof.Tests

open Sys2Proof Sys2Proof.Machine Sys2Proof.Claims

/-! ## Small states -/

/-- The next state of an operation satisfies `p`. -/
def leads (o : Step) (p : State → Bool) : Bool :=
  match o with
  | .next t => p t
  | .fault _ => false
  | .refused _ => false

/-- The array holding `l` from address `a` on. -/
def cells (a : Nat) : List Byte → Memory
  | [] => []
  | b :: l => if b = 0 then cells (a + 1) l else (a, b) :: cells (a + 1) l

/-- The reset state with `l` in the buffer, the writer at its end. -/
def holding (l : List Byte) (expected : Option Byte) : State :=
  { State.reset with
    bs := { State.reset.bs with mem := cells 0 l, size := l.length, wi := l.length }
    expected := expected }

/-- A ByteStream of capacity 8 with `l` in it and the reader at `ri`. -/
def stream8 (l : List Byte) (ri : Nat) : State :=
  { State.reset with bs := { mem := cells 0 l, capacity := 8, size := l.length, ri := ri, wi := l.length } }

/-- The first line of V9: counting with 4 seconds left, anchored at 10000, one start beep until 11000. -/
def counting (time : Word32) (endBeeps : Word32) (continues : Bool) : State :=
  { State.reset with
    dev := { State.reset.dev with
      mode := .counting, countdown := true, colour := 2, timeEnabled := true, time := time, startNumBeeps := 1,
      endNumBeeps := endBeeps, countdownContinues := continues, lastTickTime := 10000 }
    bz := ⟨true, 10000, 11000⟩
    out := { ind := 2, det := 0, dig := .value 4, tone := .loud, dirty := false }
    io := { State.reset.io with clock := 10000 } }

/-- A state with passes for the control loop to make. -/
def looping (passes : List Pass) (s : State) : State := { s with io := { s.io with passes := passes } }

/-- A Command with all fields zero. -/
def zeroCommand : Command := Command.ofWords 0 0 0 0

/-- The 25 bytes of `F42` of 95_test_vectors.md. -/
def f42 : List Byte :=
  [0xA4, 0x11, 0xE4, 0xD8, 0x19, 0, 0, 0, 0x2B, 0, 0, 0, 1, 0, 0, 0, 0x2A, 0, 0, 0, 0, 0, 0, 0, 0]

/-- `F42` as a frame. -/
def frame42 : Frame := ⟨0x19, f42.drop 5⟩

/-- A locked-up full buffer, as in Y4: 256 bytes, those after the length byte zero, `expected = some(3)`. -/
def lockedUp : State :=
  { State.reset with
    bs := { State.reset.bs with mem := cells 0 [0xA4, 0x11, 0xE4, 0xD8, 3], size := 256, wi := 256 }
    expected := some 3 }

theorem test_reset_memory_wf : State.reset.bs.mem.wf = true := by decide

/-! ## Ill-formed operations are refused -/

theorem test_wf_frame_too_long : (Instr.frame ⟨6, [1, 2]⟩ 0).wf = false := by decide
theorem test_wf_frame_too_short : (Instr.frame ⟨7, [1]⟩ 0).wf = false := by decide
theorem test_wf_frame_len_below_header : (Instr.frame ⟨3, [1]⟩ 0).wf = false := by decide
theorem test_wf_reject_needs_matchplay : (Instr.cmdReject (Command.ofWords 0xBF 0 0 0) 0).wf = false := by decide
theorem test_wf_estop_needs_estop : (Instr.cmdEstop (Command.ofWords 0x7F 0 0 0) 0).wf = false := by decide
theorem test_wf_start_needs_active : (Instr.cmdStart (Command.ofWords 0x5F 0 0 0) 0).wf = false := by decide
theorem test_wf_start_excludes_estop : (Instr.cmdStart (Command.ofWords 0xA0 0 0 0) 0).wf = false := by decide
theorem test_wf_stop_excludes_active : (Instr.cmdStop (Command.ofWords 0x20 0 0 0) 0).wf = false := by decide
theorem test_wf_stop_excludes_estop : (Instr.cmdStop (Command.ofWords 0x80 0 0 0) 0).wf = false := by decide
theorem test_wf_update_excludes_estop : (Instr.cmdUpdate (Command.ofWords 0x80 0 0 0) 0).wf = false := by decide

/-! ## Words written out from 30_encoding.md -/

/-- R94: the five port operations. -/
theorem test_decode_ports :
    decode ⟨.opsel, [0x00]⟩ = .ok .reset ∧
    decode ⟨.opsel, [0x01, 0x02]⟩ = .ok (.sample .cd) ∧
    decode ⟨.opsel, [0x02, 0xD8, 0, 0, 0, 0, 0, 0, 0x01, 0x00]⟩ = .ok (.rx 0xD8 256) ∧
    decode ⟨.opsel, [0x03, 0, 0, 0, 0, 0, 0, 0x03, 0xE8, 0x01]⟩ = .ok (.tick 1000 .quiet) ∧
    decode ⟨.opsel, [0x04]⟩ = .ok .flush := by decide

/-- R95: the four stages. -/
theorem test_decode_stages :
    decode ⟨.opsel, [0x10]⟩ = .ok .sync ∧
    decode ⟨.opsel, [0x11, 0, 0, 0, 0, 0, 0, 0, 5]⟩ = .ok (.validate 5) ∧
    decode ⟨.opsel, [0x12]⟩ = .ok .decode ∧
    decode ⟨.opsel, [0x13, 0, 0, 0, 0x25, 0, 0, 0, 5, 0, 0, 0, 1, 0, 0, 0, 2, 0, 0, 0, 0, 0, 0, 0x27, 0x10]⟩ =
      .ok (.apply ⟨true, 2, 0, true, false, false, false, false, 5, 1, 2⟩ 10000) := by decide

/-- R96: bytes and unsigned reads. -/
theorem test_decode_bytes_and_reads :
    decode ⟨.opsel, [0x20, 0xAA]⟩ = .ok (.bsAppend 0xAA) ∧
    decode ⟨.opsel, [0x21, 0x01, 0x02]⟩ = .ok (.bsPeek 0x0102) ∧
    decode ⟨.opsel, [0x22]⟩ = .ok .bsConsume ∧
    decode ⟨.opsel, [0x23]⟩ = .ok .bsRdu16 ∧ decode ⟨.opsel, [0x24]⟩ = .ok .bsRdu32 ∧
    decode ⟨.opsel, [0x25]⟩ = .ok .bsRdu64 ∧ decode ⟨.opsel, [0x26]⟩ = .ok .bsRdi16 ∧
    decode ⟨.opsel, [0x27]⟩ = .ok .bsRdi32 ∧ decode ⟨.opsel, [0x28]⟩ = .ok .bsRdi64 ∧
    decode ⟨.opsel, [0x29]⟩ = .ok .bsRdf32 ∧ decode ⟨.opsel, [0x2A]⟩ = .ok .bsRdf64 := by decide

/-- R96: writes. -/
theorem test_decode_writes :
    decode ⟨.opsel, [0x2B, 0x12, 0x34]⟩ = .ok (.bsWru16 0x1234) ∧
    decode ⟨.opsel, [0x2C, 0xA4, 0x11, 0xE4, 0xD8]⟩ = .ok (.bsWru32 0xA411E4D8) ∧
    decode ⟨.opsel, [0x2D, 1, 2, 3, 4, 5, 6, 7, 8]⟩ = .ok (.bsWru64 0x0102030405060708) ∧
    decode ⟨.opsel, [0x2E, 0xFF, 0xFE]⟩ = .ok (.bsWri16 (-2)) ∧
    decode ⟨.opsel, [0x2F, 0xFF, 0xFF, 0xFF, 0xFB]⟩ = .ok (.bsWri32 (-5)) ∧
    decode ⟨.opsel, [0x30, 0xFF, 0xFF, 0xFF, 0xFF, 0xFF, 0xFF, 0xFF, 0xFE]⟩ = .ok (.bsWri64 (-2)) ∧
    decode ⟨.opsel, [0x31, 0x3F, 0x80, 0, 0]⟩ = .ok (.bsWrf32 0x3F800000) ∧
    decode ⟨.opsel, [0x32, 0x3F, 0xF0, 0, 0, 0, 0, 0, 0]⟩ = .ok (.bsWrf64 0x3FF0000000000000) := by decide

/-- R96: the buffer operations. -/
theorem test_decode_buffer :
    decode ⟨.opsel, [0x33, 0, 0, 0, 8]⟩ = .ok (.bsResize 8) ∧
    decode ⟨.opsel, [0x34, 0xFF, 0xFF, 0xFF, 0xFF]⟩ = .ok (.bsSetri (-1)) ∧
    decode ⟨.opsel, [0x35, 0xFF, 0xFF, 0xFF, 0xFD]⟩ = .ok (.bsSetwi (-3)) ∧
    decode ⟨.opsel, [0x36]⟩ = .ok .bsClear ∧ decode ⟨.opsel, [0x37]⟩ = .ok .bsCompact := by decide

/-- R81: `F42`, at time 9. -/
theorem test_decode_frame : decode ⟨.frame, f42 ++ [0, 0, 0, 0, 0, 0, 0, 9]⟩ = .ok (.frame frame42 9) := by decide

/-- R86, V10: the bits of a control word, one at a time and together; bits 31:10 fall away. -/
theorem test_decode_control_word :
    Command.ofWords 0x00000001 0 0 0 = { zeroCommand with timeEnabled := true } ∧
    Command.ofWords 0x00000007 0 0 0 = { zeroCommand with timeEnabled := true, colour := 3 } ∧
    Command.ofWords 0x00000011 0 0 0 = { zeroCommand with timeEnabled := true, detail := 2 } ∧
    Command.ofWords 0x00000020 0 0 0 = { zeroCommand with countdownActive := true } ∧
    Command.ofWords 0x00000040 0 0 0 = { zeroCommand with matchplay := true } ∧
    Command.ofWords 0x00000080 0 0 0 = { zeroCommand with emergencyStop := true } ∧
    Command.ofWords 0x00000100 0 0 0 = { zeroCommand with lastEnd := true } ∧
    Command.ofWords 0x00000200 0 0 0 = { zeroCommand with countdownContinues := true } ∧
    Command.ofWords 0xFFFFFC00 0 0 0 = zeroCommand := by decide

/-- R86, R87: the payload of `FSTART5` as a control word. -/
theorem test_decode_cw :
    decode ⟨.controlWord, [0, 0, 0, 0x25, 0, 0, 0, 5, 0, 0, 0, 1, 0, 0, 0, 2, 0, 0, 0, 0, 0, 0, 0x27, 0x10]⟩ =
      .ok (.controlWord 0x25 5 1 2 10000) := by decide

/-- R88: the five classes, each with its own control word; a word without the bits of the class is refused. -/
theorem test_decode_classes :
    let rest : List Byte := [0, 0, 0, 1, 0, 0, 0, 2, 0, 0, 0, 3, 0, 0, 0, 0, 0, 0, 0, 4]
    decode ⟨.command .reject, [0, 0, 0, 0x51] ++ rest⟩ = .ok (.cmdReject (Command.ofWords 0x51 1 2 3) 4) ∧
    decode ⟨.command .estop, [0, 0, 0, 0x80] ++ rest⟩ = .ok (.cmdEstop (Command.ofWords 0x80 1 2 3) 4) ∧
    decode ⟨.command .start, [0, 0, 0, 0x25] ++ rest⟩ = .ok (.cmdStart (Command.ofWords 0x25 1 2 3) 4) ∧
    decode ⟨.command .stop, [0, 0, 0, 0x05] ++ rest⟩ = .ok (.cmdStop (Command.ofWords 0x05 1 2 3) 4) ∧
    decode ⟨.command .update, [0, 0, 0, 0x21] ++ rest⟩ = .ok (.cmdUpdate (Command.ofWords 0x21 1 2 3) 4) ∧
    decode ⟨.command .start, [0, 0, 0, 0xA0] ++ rest⟩ = .error (.wrongClass .start) := by decide

/-- Requests that encode nothing are refused by name. -/
theorem test_decode_refuses :
    decode ⟨.opsel, []⟩ = .error .truncated ∧
    decode ⟨.opsel, [0x14]⟩ = .error (.unknownOpsel 0x14) ∧
    decode ⟨.opsel, [0x38]⟩ = .error (.unknownOpsel 0x38) ∧
    decode ⟨.opsel, [0x01, 0x03]⟩ = .error (.badInputCode 3) ∧
    decode ⟨.opsel, [0x03, 0, 0, 0, 0, 0, 0, 0, 0, 0x03]⟩ = .error (.badInputCode 3) ∧
    decode ⟨.opsel, [0x2C, 1, 2, 3]⟩ = .error .truncated ∧
    decode ⟨.opsel, [0x36, 1]⟩ = .error .trailing ∧
    decode ⟨.frame, [0xA4, 0x11, 0xE4, 0xD9, 5]⟩ = .error .badMagic := by decide

/-- Words of spec/opcode_table.json. -/
theorem test_table_words :
    decodeTableWord 8 0x00 = some .reset ∧ decodeTableWord 8 0x01 = some (.sample .none) ∧
    decodeTableWord 8 0x37 = some .bsCompact ∧ decodeTableWord 8 0x05 = none ∧
    decodeTableWord 32 0xA411E4D8 = some (.frame ⟨0, []⟩ 0) ∧
    decodeTableWord 0 0 = some (.controlWord 0 0 0 0 0) ∧
    decodeTableWord 32 0x40 = some (.cmdReject (Command.ofWords 0x40 0 0 0) 0) ∧
    decodeTableWord 32 0x80 = some (.cmdEstop (Command.ofWords 0x80 0 0 0) 0) ∧
    decodeTableWord 32 0x20 = some (.cmdStart (Command.ofWords 0x20 0 0 0) 0) ∧
    decodeTableWord 32 0x00 = some (.cmdStop zeroCommand 0) := by decide

/-- A word placed for the next step is fetched and run by it. -/
theorem test_fetch_word : leads (step (State.reset.withFetchWord 8 0x04)) (fun t => t.io.trace == [.flush]) = true := by
  decide

/-! ## Single steps against 95_test_vectors.md -/

/-- S3: `RESET` restores everything. -/
theorem test_reset : leads (exec .reset { counting 2 2 true with expected := some 25 })
    (fun t => decide (t.arch = State.reset.arch)) = true := by decide

/-- S1. -/
theorem test_sample : leads (exec (.sample .cd) State.reset) (fun t =>
    decide (t.arch = { State.reset.arch with dev := { State.reset.dev with matchplayMode := .cd } })) = true := by decide

/-- Y2, second line: the fifth byte of a mismatch drops the oldest byte. -/
theorem test_rx_mismatch : leads (exec (.rx 0x19 0) (holding [0xA4, 0x00, 0xE4, 0xD8] none)) (fun t =>
    decide (t.bs.bytes = [0x00, 0xE4, 0xD8, 0x19] ∧ t.bs.ri = 0 ∧ t.bs.wi = 4 ∧ t.io.trace = [.framingNoise])) =
      true := by decide

/-- V1: the 25th byte of `F42`. -/
theorem test_rx_completes : leads (exec (.rx 0 0) (holding (f42.take 24) (some 25))) (fun t =>
    decide (t.dev.time = 42 ∧ t.dev.timeEnabled = true ∧ t.out.dig = .value 42 ∧ t.dev.mode = .blank ∧ t.bs.size = 0 ∧
      t.expected = none ∧ t.io.trace = [.frameOk, .cmdUpdate])) = true := by decide

/-- V9: `TICK @11000` decrements and ends the start beep. -/
theorem test_tick_decrement : leads (exec (.tick 11000 .loud) (counting 4 2 false)) (fun t =>
    decide (t.dev.time = 3 ∧ t.dev.lastTickTime = 11000 ∧ t.out.dig = .value 3 ∧ t.out.tone = .off ∧
      t.bz = ⟨false, 10000, 11000⟩ ∧ t.io.trace = [.countdownDec, .buzzerEnd])) = true := by decide

/-- V9, last line, at an earlier anchor: the end of a countdown. -/
theorem test_tick_end : leads (exec (.tick 11000 .loud) (counting 1 2 false)) (fun t =>
    decide (t.dev.time = 1 ∧ t.dev.mode = .blank ∧ t.out.dig = .blank ∧ t.bz = ⟨true, 11000, 13000⟩ ∧
      t.out.tone = .loud ∧ t.io.trace = [.countdownEnd])) = true := by decide

/-- S2. -/
theorem test_flush : leads (exec .flush State.reset) (fun t =>
    decide (t.out.dirty = false ∧ t.io.flushed = some ⟨0, 0, .blank⟩ ∧ t.io.trace = [.flush])) = true := by decide

/-- Y7: no flush during a frame. -/
theorem test_flush_held : leads (exec .flush (holding (f42.take 5) (some 25))) (fun t =>
    decide (t.out.dirty = true ∧ t.io.flushed = none)) = true := by decide

/-- Y2, last line. -/
theorem test_sync : leads (exec .sync (holding (f42.take 5) none)) (fun t =>
    decide (t.expected = some 25 ∧ t.bs.size = 5 ∧ t.io.trace = [.headerLock])) = true := by decide

/-- L6b. -/
theorem test_validate_bad : leads (exec (.validate 0) (holding [0xA4, 0x11, 0xE4, 0xD8, 6, 1] (some 6))) (fun t =>
    decide (t.bs.size = 0 ∧ t.expected = none ∧ t.dev = State.reset.dev ∧ t.io.trace = [.checksumFail])) = true := by
  decide

/-- L15: a short payload reads zero bytes beyond the frame. -/
theorem test_validate_short : leads (exec (.validate 0)
    (holding [0xA4, 0x11, 0xE4, 0xD8, 15, 0, 0, 0, 2, 0, 0, 0, 1, 0, 1] (some 15))) (fun t =>
    decide (t.dev.time = 65536 ∧ t.out.dig = .value 999 ∧ t.io.trace = [.frameOk, .cmdUpdate])) = true := by decide

/-- V10 and R186: the four words of a payload. -/
theorem test_decode_stage : leads (exec .decode (holding [0, 0, 3, 0xFF, 0xFF, 0xFF, 0xFF, 0xFB, 0, 0, 0, 1] none))
    (fun t => decide (t.bs.ri = 12 ∧ t.io.result =
      .command ⟨true, 3, 3, true, true, true, true, true, -5, 1, 0⟩)) = true := by decide

/-- A1: the start of a countdown. -/
theorem test_apply_start : leads (exec (.apply (Command.ofWords 0x25 5 1 2) 10000) State.reset) (fun t =>
    decide (t.dev = { (counting 4 2 false).dev with startNumBeeps := 1 } ∧ t.bz = ⟨true, 10000, 11000⟩ ∧
      t.out = { ind := 2, det := 0, dig := .value 4, tone := .off, dirty := true })) = true := by decide

/-- A5: `FNEG` clamps the time, 1200 shows 999. -/
theorem test_apply_time :
    leads (exec (.apply (Command.ofWords 1 (-5) 0 0) 0) State.reset) (fun t =>
      decide (t.dev.time = 0 ∧ t.out.dig = .value 0)) = true ∧
    leads (exec (.apply (Command.ofWords 1 1200 0 0) 0) State.reset) (fun t =>
      decide (t.dev.time = 1200 ∧ t.out.dig = .value 999)) = true := by decide

/-- B1: an append, and one into a full buffer. -/
theorem test_append :
    leads (exec (.bsAppend 0xF0) (stream8 [0x12, 0x34] 0)) (fun t =>
      decide (t.bs.bytes = [0x12, 0x34, 0xF0] ∧ t.bs.wi = 3)) = true ∧
    leads (exec (.bsAppend 0x11) (stream8 [1, 2, 3, 4, 5, 6, 7, 8] 0)) (fun t =>
      decide (t.bs.size = 8 ∧ t.io.trace = [.bufferOverflow])) = true := by decide

/-- B1: peeks at the reader and beyond the end. -/
theorem test_peek :
    leads (exec (.bsPeek 1) (stream8 [0x12, 0x34, 0x56] 1)) (fun t => t.io.result == .byte 0x56) = true ∧
    leads (exec (.bsPeek 2) (stream8 [0x12, 0x34, 0x56] 1)) (fun t => t.io.result == .byte 0) = true := by decide

/-- B1: a consume, and one with nothing left. -/
theorem test_consume :
    leads (exec .bsConsume (stream8 [0x12, 0x34] 1)) (fun t => t.io.result == .byte 0x34 && t.bs.ri == 2) = true ∧
    leads (exec .bsConsume (stream8 [0x12, 0x34] 2)) (fun t => t.io.result == .byte 0 && t.bs.ri == 2) = true := by
  decide

/-- B1 and V5: unsigned reads; two bytes left for four. -/
theorem test_unsigned_reads :
    leads (exec .bsRdu16 (stream8 [0x12, 0x34] 0)) (fun t => t.io.result == .u16 0x1234 && t.bs.ri == 2) = true ∧
    leads (exec .bsRdu32 (stream8 [0x9A, 0xDE, 0xF0] 1)) (fun t =>
      t.io.result == .u32 0xDEF00000 && t.bs.ri == 3) = true ∧
    leads (exec .bsRdu64 (stream8 [1, 2, 3, 4, 5, 6, 7, 8] 0)) (fun t =>
      t.io.result == .u64 0x0102030405060708) = true := by decide

/-- B1 and V5: signed reads. -/
theorem test_signed_reads :
    leads (exec .bsRdi16 (stream8 [0xDE, 0xF0] 0)) (fun t => t.io.result == .signed (-8464)) = true ∧
    leads (exec .bsRdi32 (stream8 [0xFF, 0xFF, 0xFF, 0xFB] 0)) (fun t => t.io.result == .signed (-5)) = true ∧
    leads (exec .bsRdi64 (stream8 [0xFF, 0xFF, 0xFF, 0xFF, 0xFF, 0xFF, 0xFF, 0xFE] 0)) (fun t =>
      t.io.result == .signed (-2)) = true := by decide

/-- V5: float patterns pass unchanged. -/
theorem test_float_reads :
    leads (exec .bsRdf32 (stream8 [0x7F, 0xC0, 0, 1] 0)) (fun t => t.io.result == .f32 0x7FC00001) = true ∧
    leads (exec .bsRdf64 (stream8 [0x3F, 0xF0, 0, 0, 0, 0, 0, 0] 0)) (fun t =>
      t.io.result == .f64 0x3FF0000000000000) = true := by decide

/-- B2 and V5: unsigned writes; the end of the buffer cuts one. -/
theorem test_unsigned_writes :
    leads (exec (.bsWru16 0x1234) (stream8 [] 0)) (fun t => decide (t.bs.bytes = [0x12, 0x34])) = true ∧
    leads (exec (.bsWru32 0xCAFEBABE) (stream8 [1, 2, 3, 4, 5, 6] 6)) (fun t =>
      decide (t.bs.bytes = [1, 2, 3, 4, 5, 6, 0xCA, 0xFE] ∧ t.io.trace = [.bufferOverflow, .bufferOverflow])) = true ∧
    leads (exec (.bsWru64 0x0102030405060708) (stream8 [] 0)) (fun t =>
      decide (t.bs.bytes = [1, 2, 3, 4, 5, 6, 7, 8])) = true := by decide

/-- V5: signed writes. -/
theorem test_signed_writes :
    leads (exec (.bsWri16 (-32768)) (stream8 [] 0)) (fun t => decide (t.bs.bytes = [0x80, 0x00])) = true ∧
    leads (exec (.bsWri32 (-5)) (stream8 [] 0)) (fun t => decide (t.bs.bytes = [0xFF, 0xFF, 0xFF, 0xFB])) = true ∧
    leads (exec (.bsWri64 (-2)) (stream8 [] 0)) (fun t =>
      decide (t.bs.bytes = [0xFF, 0xFF, 0xFF, 0xFF, 0xFF, 0xFF, 0xFF, 0xFE])) = true := by decide

/-- V5: float writes. -/
theorem test_float_writes :
    leads (exec (.bsWrf32 0x80000000) (stream8 [] 0)) (fun t => decide (t.bs.bytes = [0x80, 0, 0, 0])) = true ∧
    leads (exec (.bsWrf64 0x3FF0000000000000) (stream8 [] 0)) (fun t =>
      decide (t.bs.bytes = [0x3F, 0xF0, 0, 0, 0, 0, 0, 0])) = true := by decide

/-- B1: a shrinking resize, and one that fails. -/
theorem test_resize :
    leads (exec (.bsResize 4) (stream8 [0x78, 0x9A, 0xAA, 0xDE, 0xF0] 5)) (fun t =>
      decide (t.bs.capacity = 4 ∧ t.bs.size = 4 ∧ t.bs.ri = 4 ∧ t.bs.wi = 4 ∧ t.io.result = .status .ok)) = true ∧
    leads (exec (.bsResize 300) (stream8 [0x78] 0)) (fun t =>
      decide (t.bs.capacity = 8 ∧ t.io.result = .status .allocFail ∧ t.io.trace = [.allocFail])) = true := by decide

/-- B1: the indices are clamped. -/
theorem test_set_indices :
    leads (exec (.bsSetri 99) (stream8 [1, 2, 3, 4, 5] 0)) (fun t => t.bs.ri == 5) = true ∧
    leads (exec (.bsSetri (-1)) (stream8 [1, 2, 3, 4, 5] 3)) (fun t => t.bs.ri == 0) = true ∧
    leads (exec (.bsSetwi 100) (stream8 [1, 2, 3, 4, 5] 0)) (fun t => t.bs.wi == 8) = true ∧
    leads (exec (.bsSetwi (-3)) (stream8 [1, 2, 3, 4, 5] 0)) (fun t => t.bs.wi == 0) = true := by decide

/-- B1: clear and compact. -/
theorem test_clear_compact :
    leads (exec .bsClear (stream8 [1, 2, 3] 2)) (fun t => decide (t.bs.size = 0 ∧ t.bs.ri = 0 ∧ t.bs.wi = 0)) = true ∧
    leads (exec .bsCompact (stream8 [0x12, 0x34, 0x56, 0x78, 0x9A, 0xBC, 0xDE, 0xF0] 3)) (fun t =>
      decide (t.bs.bytes = [0x78, 0x9A, 0xBC, 0xDE, 0xF0] ∧ t.bs.ri = 0 ∧ t.bs.wi = 5)) = true := by decide

set_option maxRecDepth 8000 in
/-- V7, second line: a payload bit that would make an emergency stop is caught; L9a: a frame with no payload passes. -/
theorem test_frame :
    leads (exec (.frame { frame42 with rest := flipBit frame42.rest 7 7 } 0) State.reset) (fun t =>
      decide (t.dev = State.reset.dev ∧ t.io.trace = [.headerLock, .checksumFail])) = true ∧
    leads (exec (.frame ⟨9, [0, 0, 0, 0]⟩ 0) State.reset) (fun t =>
      decide (t.io.trace = [.headerLock, .frameOk, .cmdUpdate])) = true := by decide

/-- V7, the swapped bytes: control word 0x2A with time 1 starts a countdown. -/
theorem test_control_word : leads (exec (.controlWord 0x2A 1 0 0 0) State.reset) (fun t =>
    decide (t.dev.colour = 1 ∧ t.dev.detail = 1 ∧ t.dev.timeEnabled = false ∧ t.dev.time = 0 ∧ t.dev.mode = .counting ∧
      t.bz.active = false ∧ t.out.ind = 1 ∧ t.out.det = 1 ∧ t.out.dig = .blank)) = true := by decide

/-- A4: a rejected emergency stop changes nothing. -/
theorem test_reject : leads (exec (.cmdReject (Command.ofWords 0xD0 0 0 0) 10500) (counting 4 2 false)) (fun t =>
    decide (t.arch = (counting 4 2 false).arch ∧ t.io.trace = [.semanticReject])) = true := by decide

/-- A3: the emergency stop. -/
theorem test_estop : leads (exec (.cmdEstop (Command.ofWords 0x80 0 0 0) 20000) (counting 6 2 false)) (fun t =>
    decide (t.dev.mode = .blank ∧ t.dev.countdown = false ∧ t.dev.time = 6 ∧ t.bz = ⟨true, 20000, 25000⟩ ∧
      t.out = { ind := 0, det := 0, dig := .blank, tone := .off, dirty := true })) = true := by decide

/-- A7, the line for time -3. -/
theorem test_start : leads (exec (.cmdStart (Command.ofWords 0x21 (-3) 0 1) 5000) State.reset) (fun t =>
    decide (t.dev.time = 0 ∧ t.out.dig = .value 0 ∧ t.dev.mode = .counting ∧ t.bz.active = false)) = true := by decide

/-- A2: the explicit stop. -/
theorem test_stop : leads (exec (.cmdStop (Command.ofWords 0x05 3 1 2) 15000) (counting 4 2 false)) (fun t =>
    decide (t.dev.time = 3 ∧ t.dev.countdown = false ∧ t.dev.mode = .blank ∧ t.bz = ⟨true, 15000, 17000⟩ ∧
      t.out.ind = 0 ∧ t.out.dig = .blank ∧ t.out.tone = .loud ∧ t.dev.colour = 2)) = true := by decide

/-- A6: code 3 is stored and issues nothing. -/
theorem test_update_code3 : leads (exec (.cmdUpdate (Command.ofWords 0x1E 0 0 0) 0)
    { State.reset with out := { State.reset.out with ind := 2, dirty := false } }) (fun t =>
    decide (t.dev.colour = 3 ∧ t.dev.detail = 3 ∧ t.out.ind = 2 ∧ t.out.det = 0 ∧ t.out.dirty = false)) = true := by
  decide

/-- U2: a clock that runs backward is refused. -/
theorem test_clock_backward :
    (match exec (.tick 9999 .loud) (counting 4 2 false) with
      | .refused .clockRanBackward => true
      | _ => false) = true := by decide

/-! ## The control loop -/

/-- R251, R98: the operations of a pass, in the loop's order. -/
theorem test_pass_order : (Pass.atOnce 7 .ab .quiet [0xA4, 0x11]).ops =
    [.sample .ab, .rx 0xA4 7, .rx 0x11 7, .tick 7 .quiet, .flush] := by decide

/-- P1, the pass `@2000` (here at 11000): three steps count down, end the beep and flush. -/
theorem test_pass : leads (stepN 3 (looping [.atOnce 11000 .none .loud []] (counting 2 1 false))) (fun t =>
    decide (t.dev.time = 1 ∧ t.bz = ⟨false, 10000, 11000⟩ ∧ t.out.tone = .off ∧ t.io.flushed = some ⟨2, 0, .value 1⟩ ∧
      t.io.input = [] ∧ t.io.passes = [])) = true := by decide

/-! ## Every hypothesis can be met -/

theorem witness_StepRunsDecodedRequest :
    (State.reset.place ⟨.opsel, [0x04]⟩).io.input = ⟨.opsel, [0x04]⟩ :: [] ∧ decode ⟨.opsel, [0x04]⟩ = .ok .flush ∧
    State.reset.io.input = [] ∧ State.reset.io.passes = [] ∧
    (State.reset.place ⟨.opsel, [0x05]⟩).io.input = ⟨.opsel, [0x05]⟩ :: [] ∧
    decode ⟨.opsel, [0x05]⟩ = .error (.unknownOpsel 5) := by decide

/-- The duties met at the boundary; a state outside the array; a clock one millisecond back. -/
theorem witness_EveryOperationCompletesWithinDuties :
    (counting 4 2 false).bs.insideArray = true ∧ (Instr.rx 0 10000).onTime (counting 4 2 false) = true ∧
    (match exec (.bsAppend 1) { State.reset with bs := { State.reset.bs with capacity := 257 } } with
      | .fault .outsideArray => true
      | _ => false) = true ∧
    (match exec (.rx 0 9999) (counting 4 2 false) with
      | .refused .clockRanBackward => true
      | _ => false) = true := by decide

theorem witness_DecodeOfEncodeIsIdentity :
    (Instr.frame frame42 7).wf = true ∧ (Instr.frame ⟨5, []⟩ 7).wf = true ∧ (Instr.frame ⟨0, []⟩ 7).wf = true ∧
    (Instr.cmdReject (Command.ofWords 0x51 1 2 3) 0).wf = true ∧
    (Instr.cmdEstop (Command.ofWords 0x80 1 2 3) 0).wf = true ∧
    (Instr.cmdStart (Command.ofWords 0x25 1 2 3) 0).wf = true ∧
    (Instr.cmdStop (Command.ofWords 0x05 1 2 3) 0).wf = true ∧
    (Instr.cmdUpdate (Command.ofWords 0x21 1 2 3) 0).wf = true ∧ (Instr.bsResize 300).wf = true := by decide

theorem witness_UpperControlWordBitsIgnored :
    (0xFFFFFC00 : Word32).toNat % 1024 = (0 : Word32).toNat % 1024 ∧
    (0xFFFFFFFF : Word32).toNat % 1024 = (0x3FF : Word32).toNat % 1024 := by decide

/-- Both branches of the flush. -/
theorem witness_FlushOnlyWhenDirtyAndHunting :
    (State.reset.out.dirty = true ∧ State.reset.expected = none) ∧
    ¬ ((holding (f42.take 5) (some 25)).out.dirty = true ∧ (holding (f42.take 5) (some 25)).expected = none) := by
  decide

/-- Due exactly 1000 ms after the anchor, with two seconds left. -/
theorem witness_TickDecrementsCountdown :
    (counting 2 2 false).TimeOk 11000 ∧ (counting 2 2 false).dev.countdown = true ∧
    Due 11000 (counting 2 2 false).dev ∧ 1 < (counting 2 2 false).dev.time.toInt := by decide

/-- One end beep, none under a running schedule, none under one that ends now; with one second left and with none. -/
theorem witness_TickEndsCountdown :
    (∀ s ∈ [counting 1 1 false, counting 0 0 false, counting 1 (-1) false],
      s.TimeOk 11000 ∧ s.dev.countdown = true ∧ Due 11000 s.dev ∧ 0 ≤ s.dev.time.toInt ∧ s.dev.time.toInt ≤ 1 ∧
        s.dev.countdownContinues = false) ∧
    1 ≤ (counting 1 1 false).dev.endNumBeeps.toInt ∧ (11000 : Time).toNat + 1 * 1000 < 2 ^ 64 ∧
    (counting 0 0 false).dev.endNumBeeps.toInt < 1 ∧ Elapsed 11000 (counting 0 0 false).bz ∧
    ¬ Elapsed 11000 { (counting 1 (-1) false).bz with endTime := 11001 } := by decide

theorem witness_TickContinuesCountdown :
    (counting 1 1 true).TimeOk 11000 ∧ (counting 1 1 true).dev.countdown = true ∧ Due 11000 (counting 1 1 true).dev ∧
    (counting 1 1 true).dev.time.toInt ≤ 1 ∧ (counting 1 1 true).dev.countdownContinues = true := by decide

/-- The last millisecond of a schedule. -/
theorem witness_TickTogglesTone :
    (counting 4 2 false).TimeOk 10999 ∧ ¬ Due 10999 (counting 4 2 false).dev ∧
    (counting 4 2 false).bz.active = true ∧ (10999 : Time).toNat < (counting 4 2 false).bz.endTime.toNat := by decide

/-- The schedule's end with and without a countdown. -/
theorem witness_TickEndsSchedule :
    (∀ s ∈ [{ counting 4 2 false with bz := ⟨true, 0, 10500⟩ }, { State.reset with bz := ⟨true, 0, 10500⟩ }],
      s.TimeOk 10500 ∧ ¬ Due 10500 s.dev ∧ Elapsed 10500 s.bz ∧ 0 ≤ s.dev.time.toInt) ∧
    (counting 4 2 false).dev.countdown = true ∧ State.reset.dev.countdown = false := by decide

theorem witness_TickWithNothingDueChangesNothing :
    State.reset.TimeOk 123456 ∧ ¬ Due 123456 State.reset.dev ∧ State.reset.bz.active = false := by decide

/-- The shortest countdown, before its first tick and at its end. -/
theorem witness_CountdownCadence :
    let c := Command.ofWords 0x21 2 0 1
    State.reset.Inv ∧ State.reset.TimeOk 5000 ∧ ¬ Guarded c State.reset.dev ∧ c.emergencyStop = false ∧
    c.countdownActive = true ∧ State.reset.dev.countdown = false ∧ 2 ≤ c.time.toInt ∧
    (5000 : Time).toNat + 1 * 1000 < 2 ^ 64 ∧ ((0 : Nat) : Int) < c.time.toInt - 1 ∧
    ((1 : Nat) : Int) = c.time.toInt - 1 := by decide

/-- An append into free space, into the last place, and into a full buffer. -/
theorem witness_AppendStoresAtWriter :
    (∀ s ∈ [stream8 [] 0, stream8 [1, 2, 3, 4, 5, 6, 7] 0, stream8 [1, 2, 3, 4, 5, 6, 7, 8] 0], s.bs.Inv) ∧
    (stream8 [1, 2, 3, 4, 5, 6, 7] 0).bs.wi < (stream8 [1, 2, 3, 4, 5, 6, 7] 0).bs.capacity ∧
    ¬ (stream8 [1, 2, 3, 4, 5, 6, 7, 8] 0).bs.wi < (stream8 [1, 2, 3, 4, 5, 6, 7, 8] 0).bs.capacity := by decide

/-- The reads, and `DECODE`, need only a ByteStream inside the array. -/
theorem witness_PeekReturnsUnreadByteOrZero : (stream8 [1, 2, 3] 1).bs.insideArray = true := by decide
theorem witness_ConsumeReturnsNextByteOrZero : (stream8 [1, 2, 3] 3).bs.insideArray = true := by decide
theorem witness_WideReadsAreBigEndian : (stream8 [1, 2, 3] 1).bs.insideArray = true := by decide
theorem witness_SignedReadsAreTwosComplement : (stream8 [0xFF, 0xFE] 0).bs.insideArray = true := by decide
theorem witness_DecodeReadsFourWords : (holding f42 none).bs.insideArray = true := by decide

/-- Wide writes with room for all, for two of the bytes, and for none. -/
theorem witness_WideWritesAreBigEndian :
    (stream8 [] 0).bs.Inv ∧ (stream8 [1, 2, 3, 4, 5, 6] 6).bs.Inv ∧ (stream8 [1, 2, 3, 4, 5, 6, 7, 8] 6).bs.Inv := by
  decide

/-- A buffer that eight bytes just fill. -/
theorem witness_WriteThenReadRoundTrip :
    (stream8 [] 0).bs.Inv ∧ (stream8 [] 0).bs.wi = (stream8 [] 0).bs.size ∧
    (stream8 [] 0).bs.ri = (stream8 [] 0).bs.size ∧ (stream8 [] 0).bs.size + 8 ≤ (stream8 [] 0).bs.capacity := by decide

/-- The capacities at the two ends of what is granted, and the first ones that are not. -/
theorem witness_ResizeGrantsOrFailsUnchanged :
    (∀ n ∈ [(0 : Word32), 256], 0 ≤ n.toInt ∧ n.toInt ≤ 256) ∧
    (∀ n ∈ [(-1 : Word32), 257], ¬ (0 ≤ n.toInt ∧ n.toInt ≤ 256)) := by simp

theorem witness_ClearZeroesCountersOnly : (stream8 [1, 2] 0).clear.bs.insideArray = true := by decide
theorem witness_CompactKeepsUnreadBytes : (stream8 [1, 2, 3] 3).bs.Inv ∧ (stream8 [1, 2, 3] 1).bs.Inv := by decide

/-- Five bytes with and without the magic, and four bytes. -/
theorem witness_SyncLocksOrDropsOldestByte :
    (∀ s ∈ [holding (f42.take 5) none, holding [1, 2, 3, 4, 5] none, holding (f42.take 4) none],
      s.bs.Inv ∧ s.bs.ri = 0 ∧ s.expected = none) ∧
    (holding (f42.take 5) none).bs.size = 5 ∧ (holding (f42.take 5) none).bs.bytes.take 4 = [0xA4, 0x11, 0xE4, 0xD8] ∧
    (holding [1, 2, 3, 4, 5] none).bs.bytes.take 4 ≠ [0xA4, 0x11, 0xE4, 0xD8] ∧
    (holding (f42.take 4) none).bs.size ≠ 5 := by decide

/-- Bytes gathered while hunting and while collecting. -/
theorem witness_RxGathersBytes :
    (∀ s ∈ [holding [1, 2, 3] none, holding (f42.take 23) (some 25)],
      s.bs.Inv ∧ s.PortInv ∧ s.TimeOk 0 ∧ (s.expected = none → s.bs.size < 4)) ∧
    (holding (f42.take 23) (some 25)).bs.size + 1 ≠ (25 : Byte).toNat ∧
    (holding (f42.take 23) (some 25)).bs.size < (holding (f42.take 23) (some 25)).bs.capacity := by decide

/-- A byte dropped in the lock-up, in its full buffer. -/
theorem witness_RxGathersBytes_full :
    lockedUp.bs.Inv ∧ lockedUp.PortInv ∧ lockedUp.TimeOk 0 ∧ lockedUp.bs.size + 1 ≠ (3 : Byte).toNat ∧
    ¬ lockedUp.bs.size < lockedUp.bs.capacity := by decide

theorem witness_RxChecksHeader :
    (∀ s ∈ [holding (f42.take 4) none, holding [0, 0x11, 0xE4, 0xD8] none],
      s.bs.Inv ∧ s.PortInv ∧ s.TimeOk 0 ∧ s.expected = none ∧ s.bs.size = 4) ∧
    (holding (f42.take 4) none).bs.bytes = [0xA4, 0x11, 0xE4, 0xD8] ∧ (4 : Byte) ≠ 5 ∧
    (holding [0, 0x11, 0xE4, 0xD8] none).bs.bytes ≠ [0xA4, 0x11, 0xE4, 0xD8] := by decide

set_option maxRecDepth 8000 in
/-- A frame completed with a good checksum, with a bad one, and a frame of five bytes. -/
theorem witness_RxCompletesFrame :
    (∀ s ∈ [holding (f42.take 24) (some 25), holding (f42.take 4) none],
      s.bs.Inv ∧ s.PortInv ∧ s.TimeOk 0 ∧
        (s.expected = some 25 ∧ s.bs.size + 1 = (25 : Byte).toNat ∨
          s.expected = none ∧ s.bs.bytes = [0xA4, 0x11, 0xE4, 0xD8])) ∧
    ChecksumOk ((holding (f42.take 24) (some 25)).bs.bytes ++ [0]) ∧
    ¬ ChecksumOk ((holding (f42.take 24) (some 25)).bs.bytes ++ [1]) := by decide

theorem witness_ValidateDiscardsBadChecksum :
    let s := holding [0xA4, 0x11, 0xE4, 0xD8, 6, 1] (some 6)
    s.bs.Inv ∧ s.TimeOk 0 ∧ s.bs.ri = 0 ∧ s.expected = some 6 ∧ s.bs.size = (6 : Byte).toNat ∧ 5 ≤ s.bs.size ∧
      ¬ ChecksumOk s.bs.bytes := by decide

theorem witness_ValidateAppliesGoodFrame :
    ∀ s ∈ [holding f42 (some 25), holding [0xA4, 0x11, 0xE4, 0xD8, 5] (some 5)],
      s.bs.Inv ∧ s.TimeOk 0 ∧ s.bs.ri = 0 ∧ s.expected = some (BitVec.ofNat 8 s.bs.size) ∧ 5 ≤ s.bs.size ∧
        ChecksumOk s.bs.bytes := by decide

theorem witness_FrameIsItsBytesReceived : State.reset.bs.Inv ∧ State.reset.TimeOk 0 := by decide

/-- Noise with a partial magic before `F42`, and none before a frame of five bytes. -/
theorem witness_ResyncDeliversFrame :
    State.reset.Inv ∧ State.reset.PortInv ∧ State.reset.TimeOk 0 ∧ Waiting State.reset ∧
    NoMagic [0x00, 0xA4, 0x11] ∧ NoMagic [] ∧
    (∀ f ∈ [frame42, ⟨5, []⟩], f.lengthOk = true ∧ 5 ≤ f.len.toNat ∧ ChecksumOk f.bytes) := by decide

/-- The first and the last payload byte of `F42`. -/
theorem witness_PayloadBitFlipDiscardsFrame :
    State.reset.Inv ∧ State.reset.PortInv ∧ State.reset.TimeOk 0 ∧ Waiting State.reset ∧ frame42.lengthOk = true ∧
    ChecksumOk frame42.bytes ∧ 4 < frame42.rest.length ∧ 19 < frame42.rest.length := by decide

/-- The largest length byte that locks up. -/
theorem witness_ShortLengthByteLocksUp :
    let s := holding [0xA4, 0x11, 0xE4, 0xD8, 4] (some 4)
    s.bs.Inv ∧ s.PortInv ∧ s.expected = some 4 ∧ (4 : Byte).toNat < 5 ∧
    (∀ i ∈ [Instr.rx 0x19 0, Instr.flush], i.isPort = true ∧ i ≠ .reset) ∧
    leads (execAll [Instr.rx 0x19 0, Instr.flush] s) (fun _ => true) = true := by decide

/-- A rejected Command and one that is not. -/
theorem witness_GuardedCommandChangesNothing :
    State.reset.TimeOk 0 ∧ Guarded (Command.ofWords 0x51 10 0 0) State.reset.dev ∧
    ¬ Guarded (Command.ofWords 0x11 10 0 0) State.reset.dev := by decide

/-- An emergency stop without the matchplay flag, and one with it for the unit's own pair. -/
theorem witness_EmergencyStopEffect :
    (∀ c ∈ [Command.ofWords 0x80 0 0 0, Command.ofWords 0xC0 0 0 0],
      ¬ Guarded c (counting 4 2 false).dev ∧ c.emergencyStop = true) ∧
    (counting 4 2 false).TimeOk 10000 ∧ (10000 : Time).toNat + 5000 < 2 ^ 64 ∧
    (10499 : Time).toNat < (10000 : Time).toNat + 500 := by decide

theorem witness_StartCommandEffect :
    ∀ c ∈ [Command.ofWords 0x25 5 1 2, Command.ofWords 0x20 (-3) 0 0],
      State.reset.TimeOk 0 ∧ ¬ Guarded c State.reset.dev ∧ c.emergencyStop = false ∧
        State.reset.dev.countdown = false ∧ c.countdownActive = true := by decide

theorem witness_StopCommandEffect :
    let c := Command.ofWords 0x05 3 1 2
    let s := counting 4 2 false
    s.TimeOk 15000 ∧ ¬ Guarded c s.dev ∧ c.emergencyStop = false ∧ s.dev.countdown = true ∧
      c.countdownActive = false := by decide

/-- An update out of a countdown and one during it. -/
theorem witness_UpdateCommandEffect :
    (State.reset.TimeOk 0 ∧ ¬ Guarded (Command.ofWords 1 42 0 0) State.reset.dev ∧
      (Command.ofWords 1 42 0 0).emergencyStop = false ∧
      (Command.ofWords 1 42 0 0).countdownActive = State.reset.dev.countdown) ∧
    ((counting 4 2 false).TimeOk 10500 ∧ ¬ Guarded (Command.ofWords 0x21 42 0 0) (counting 4 2 false).dev ∧
      (Command.ofWords 0x21 42 0 0).emergencyStop = false ∧
      (Command.ofWords 0x21 42 0 0).countdownActive = (counting 4 2 false).dev.countdown) := by decide

theorem witness_ControlWordRunsAsItsCommand : State.reset.TimeOk 0 := by decide

theorem witness_StepKeepsInvariant :
    (State.reset.place ⟨.opsel, [0x02, 0xA4]⟩).Inv ∧ (State.reset.place (encode (.rx 0xA4 7))).Inv ∧
    leads (step (State.reset.place (encode (.rx 0xA4 7)))) (fun t => t.bs.size == 1) = true := by decide

theorem witness_PortOperationsKeepDiscipline :
    (holding (f42.take 24) (some 25)).bs.Inv ∧ (holding (f42.take 24) (some 25)).PortInv ∧
    (Instr.rx 0 0).isPort = true ∧
    leads (exec (.rx 0 0) (holding (f42.take 24) (some 25))) (fun t => t.bs.size == 0) = true := by decide

/-- Two states that differ in a byte above `size`. -/
theorem witness_StaleBytesNeverMatter :
    let s := State.reset
    let s' := { State.reset with bs := { State.reset.bs with mem := [(3, 0x77)] } }
    s.bs.mem.wf = true ∧ s'.bs.mem.wf = true ∧ SameButStale s s' ∧ s ≠ s' ∧
    leads (exec (.bsAppend 1) s) (fun t => t.bs.size == 1) = true := by decide

/-- Two states that differ in `S.lastEnd`. -/
theorem witness_LastEndIsNeverRead :
    let s := State.reset
    let s' := { State.reset with dev := { State.reset.dev with lastEnd := true } }
    SameButLastEnd s s' ∧ s ≠ s' ∧ leads (exec .flush s) (fun t => t.out.dirty == false) = true := by decide

/-- A continued end clears the flag; a Command that carries it sets it. -/
theorem witness_ContinueFlagIsSticky :
    (counting 1 1 true).dev.countdownContinues = true ∧
    leads (exec (.tick 11000 .loud) (counting 1 1 true)) (fun t => t.dev.countdownContinues == false) = true ∧
    State.reset.TimeOk 0 ∧ ¬ Guarded (Command.ofWords 0x300 0 0 0) State.reset.dev ∧
    (Command.ofWords 0x300 0 0 0).emergencyStop = false ∧
    (Command.ofWords 0x300 0 0 0).countdownContinues = true := by decide

theorem witness_WritersOfModeAndCapacity :
    leads (exec (.bsResize 8) State.reset) (fun t => t.bs.capacity == 8) = true ∧ Instr.bsResize 8 ≠ .reset ∧
    leads (exec (.sample .ab) State.reset) (fun t => t.dev.matchplayMode == .ab) = true ∧
    Instr.sample .ab ≠ .reset := by decide

/-- A change to each of the three modes. -/
theorem witness_ModeChangesOnlyByNamedCauses :
    leads (exec (.tick 5000 .loud) { State.reset with bz := ⟨true, 0, 5000⟩ }) (fun t => t.dev.mode == .idle) = true ∧
    leads (exec (.apply (Command.ofWords 0x20 5 0 0) 0) State.reset) (fun t => t.dev.mode == .counting) = true ∧
    leads (exec (.apply (Command.ofWords 0x80 0 0 0) 10000) (counting 4 2 false)) (fun t =>
      t.dev.mode == .blank) = true := by decide

/-- A tick exactly at the end of the alert. -/
theorem witness_EmergencyStopLeadsToIdle :
    (counting 4 2 false).TimeOk 20000 ∧ ¬ Guarded (Command.ofWords 0x80 0 0 0) (counting 4 2 false).dev ∧
    (Command.ofWords 0x80 0 0 0).emergencyStop = true ∧ 0 ≤ (counting 4 2 false).dev.time.toInt ∧
    (20000 : Time).toNat + 5000 ≤ (25000 : Time).toNat := by decide

/-- A pass without a byte, and one with two, the second later than the first. -/
theorem witness_StepBeginsPassInLoopOrder :
    ∀ p ∈ [Pass.atOnce 7 .ab .quiet [], ⟨.cd, [(0xA4, 7), (0x11, 8)], 8, .loud⟩],
      (looping [p] State.reset).io.input = [] ∧ (looping [p] State.reset).io.passes = p :: [] := by decide

theorem witness_StepsRunWholePass :
    (looping [.atOnce 7 .ab .quiet [0xA4]] State.reset).io.input = [] ∧
    (looping [.atOnce 7 .ab .quiet [0xA4]] State.reset).io.passes = Pass.atOnce 7 .ab .quiet [0xA4] :: [] ∧
    leads (stepN 4 (looping [.atOnce 7 .ab .quiet [0xA4]] State.reset)) (fun t => t.bs.size == 1) = true := by decide

/-- Two passes to make. -/
theorem witness_StepsRunPassesInTurn :
    let s := looping [.atOnce 7 .ab .quiet [], .atOnce 8 .cd .loud []] State.reset
    s.io.input = [] ∧ leads (stepN 6 s) (fun t => t.dev.matchplayMode == .cd) = true := by decide

/-- Timestamps that stay and that grow; the flush emitted, and held back during a frame. -/
theorem witness_PassCompletesAndFlushesLast :
    (∀ s ∈ [counting 4 2 false, looping [] (counting 2 1 true)], s.bs.Inv ∧
      (Pass.atOnce 10000 .none .loud [0xA4]).OnTime s ∧
      (⟨.cd, [(0xA4, 10000), (0x11, 10500)], 11000, .mute⟩ : Pass).OnTime s) ∧
    leads (runPass (.atOnce 11000 .none .loud []) (counting 4 2 false)) (fun t => t.io.flushed.isSome) = true ∧
    leads (runPass (.atOnce 0 .none .loud []) (holding (f42.take 5) (some 25))) (fun t =>
      t.io.flushed.isNone) = true := by decide

end Sys2Proof.Tests
end

section
/-! Proofs of the statements of 00_scope.md: when an operation stops, and what a step takes. -/

namespace Sys2Proof.Machine

/-! ## When an operation stops

Beside the laws that say when each way of running an operation answers a next state: when it faults, when it
refuses. -/

theorem run_ne_fault {k : State → State} {s : State} {r : Fault} : run k s ≠ .fault r := nofun

theorem run_ne_refused {k : State → State} {s : State} {r : Refusal} : run k s ≠ .refused r := nofun

theorem runArray_eq_fault {k : State → State} {s : State} {r : Fault} :
    runArray k s = .fault r ↔ s.bs.insideArray = false := by
  cases r
  unfold runArray
  split
  · next hin => simp [run_ne_fault, hin]
  · next hout => simp [hout]

theorem runArray_ne_refused {k : State → State} {s : State} {r : Refusal} : runArray k s ≠ .refused r := by
  unfold runArray
  split
  · exact run_ne_refused
  · nofun

theorem runAt_ne_fault {now : Time} {k : State → State} {s : State} {r : Fault} : runAt now k s ≠ .fault r := by
  unfold runAt
  split
  · exact run_ne_fault
  · nofun

theorem runAt_eq_refused {now : Time} {k : State → State} {s : State} {r : Refusal} :
    runAt now k s = .refused r ↔ r = .clockRanBackward ∧ ¬ s.TimeOk now := by
  unfold runAt
  split
  · next hclock => simp [run_ne_refused, hclock]
  · next hclock => simp [hclock, eq_comm]

theorem runArrayAt_eq_fault {now : Time} {k : State → State} {s : State} {r : Fault} :
    runArrayAt now k s = .fault r ↔ s.bs.insideArray = false := by
  cases r
  unfold runArrayAt
  split
  · next hin => simp [runAt_ne_fault, hin]
  · next hout => simp [hout]

theorem runArrayAt_eq_refused {now : Time} {k : State → State} {s : State} {r : Refusal} :
    runArrayAt now k s = .refused r ↔ s.bs.insideArray = true ∧ r = .clockRanBackward ∧ ¬ s.TimeOk now := by
  unfold runArrayAt
  split
  · next hin => simp only [runAt_eq_refused, hin, true_and]
  · next hout => simp [hout]

/-- An operation faults only outside the array. -/
theorem insideArray_of_exec_eq_fault {i : Instr} {s : State} {r : Fault} (h : exec i s = .fault r) :
    s.bs.insideArray = false := by
  rcases exec_cases i with ⟨-, hi | hi⟩ | ⟨now, -, hi | hi⟩ <;> rw [hi] at h
  · exact absurd h run_ne_fault
  · exact runArray_eq_fault.mp h
  · exact absurd h runAt_ne_fault
  · exact runArrayAt_eq_fault.mp h

theorem onTime_eq_false_of_not_timeOk {i : Instr} {now : Time} {s : State} (hnow : i.timestamp = some now)
    (hclock : ¬ s.TimeOk now) : i.onTime s = false := by
  simp only [Instr.onTime, hnow, hclock, decide_false]

/-- An operation refuses only a clock that runs backward. -/
theorem clockRanBackward_of_exec_eq_refused {i : Instr} {s : State} {r : Refusal} (h : exec i s = .refused r) :
    r = .clockRanBackward ∧ i.onTime s = false := by
  rcases exec_cases i with ⟨-, hi | hi⟩ | ⟨now, hnow, hi | hi⟩ <;> rw [hi] at h
  · exact absurd h run_ne_refused
  · exact absurd h runArray_ne_refused
  · obtain ⟨hr, hclock⟩ := runAt_eq_refused.mp h
    exact ⟨hr, onTime_eq_false_of_not_timeOk hnow hclock⟩
  · obtain ⟨-, hr, hclock⟩ := runArrayAt_eq_refused.mp h
    exact ⟨hr, onTime_eq_false_of_not_timeOk hnow hclock⟩

/-! ## What a step runs -/

theorem step_of_decode_ok {s t : State} {r : Request} {i : Instr} (hnext : s.nextRequest = some (r, t))
    (hdec : decode r = .ok i) : step s = exec i t := by
  simp only [step, hnext, hdec]

theorem step_of_decode_error {s t : State} {r : Request} {e : DecodeError} (hnext : s.nextRequest = some (r, t))
    (hdec : decode r = .error e) : step s = .refused (.undecodable e) := by
  simp only [step, hnext, hdec]

theorem step_of_nextRequest_none {s : State} (hnext : s.nextRequest = none) : step s = .next s := by
  simp only [step, hnext]

theorem decode_encode_sample (mp : Matchplay) : decode (encode (.sample mp)) = .ok (.sample mp) := by
  simp [encode, opselRequest, decode, decodeOpsel, decodeSample]

/-- What a pass leaves to run after its `SAMPLE`, encoded (R251). -/
theorem Pass.ops_tail_map_encode (p : Pass) :
    p.ops.tail.map encode =
      p.rx.map (fun a => encode (.rx a.1 a.2)) ++ [encode (.tick p.now p.vol), encode .flush] := by
  simp [Pass.ops]

/-! ## The statements -/

/-- Settles O2: the duties are what `exec_eq_next` asks for, and each of the four ways of running an operation stops
only on one of them. -/
theorem everyOperationCompletesWithinDuties : Obligations.EveryOperationCompletesWithinDuties := by
  intro i s
  refine ⟨fun hin htime => ?_, fun r => insideArray_of_exec_eq_fault, fun r => clockRanBackward_of_exec_eq_refused⟩
  exact ⟨effectOf i (s.start i), exec_eq_next.mpr ⟨fun _ => hin, htime, rfl⟩⟩

/-- Settles O1, by what stands first in the input list. -/
theorem stepRunsDecodedRequest : Obligations.StepRunsDecodedRequest := by
  refine ⟨fun s r rest i hin hdec => ?_, fun s hin hps => ?_, fun s r rest e hin hdec => ?_⟩
  · exact step_of_decode_ok (State.nextRequest_cons hin) hdec
  · exact step_of_nextRequest_none (State.nextRequest_none hin hps)
  · exact step_of_decode_error (State.nextRequest_cons hin) hdec

/-- Settles O56: the pass opened puts its `SAMPLE` first, which decodes to itself, and the rest of `Pass.ops` stays
in the input list. -/
theorem stepBeginsPassInLoopOrder : Obligations.StepBeginsPassInLoopOrder := by
  intro s p ps hin hps
  rw [step_of_decode_ok (State.nextRequest_pass hin hps) (decode_encode_sample p.mp), Pass.ops_tail_map_encode]
  rfl

end Sys2Proof.Machine
end

section
/-! Proofs of the statements of 10_state.md, first part: which operations are ingest work and Commands alone, and what
each operation that writes `S` leaves there. -/

namespace Sys2Proof.Machine

/-! ## Operations made of ingest work and Commands

All operations but the four port operations beside `RX` and `BS.RESIZE` do ingest work and apply Commands, so a relation
kept by both is kept by them. -/

/-- Every operation but `RESET`, `SAMPLE`, `TICK`, `FLUSH` and `BS.RESIZE`. -/
def ingestsOrApplies : Instr → Bool
  | .reset | .sample _ | .tick _ _ | .flush | .bsResize _ => false
  | _ => true

theorem ingest_setResult (r : Result) (s : State) : IngestStep s (s.setResult r) :=
  ⟨rfl, rfl, rfl, rfl, rfl, rfl, rfl, rfl, List.prefix_refl _⟩

theorem ingest_consume (s : State) : IngestStep s (s.withBs s.bs.consume.2) :=
  ingest_withBs (by rw [ByteStream.consume_eq])

theorem ingest_readInto (w n : Nat) (mk : BitVec w → Result) (s : State) : IngestStep s (s.readInto w n mk) :=
  (ingest_readWord w n s).trans (ingest_setResult _ _)

/-- A relation that ingest work and every `APPLY` at the operation's timestamp keep is kept by the operation. -/
theorem effectOf_rel {R : State → State → Prop} (htrans : ∀ s u t, R s u → R u t → R s t)
    (hingest : ∀ s t, IngestStep s t → R s t) {i : Instr} (hi : ingestsOrApplies i = true)
    (happly : ∀ now, i.timestamp = some now → ∀ c s, R s (applyStage c now s)) (s : State) : R s (effectOf i s) := by
  cases i with
  | reset | sample mp | tick now vol | flush | bsResize n => exact absurd hi Bool.false_ne_true
  | rx b now => exact receive_rel htrans hingest now (happly now rfl) b s
  | frame f now => exact receiveAll_rel htrans hingest now (happly now rfl) f.bytes s
  | validate now => exact validateStage_rel htrans hingest now (happly now rfl) s
  | apply c now | cmdReject c now | cmdEstop c now | cmdStart c now | cmdStop c now | cmdUpdate c now =>
    exact happly now rfl c s
  | controlWord cw t sb eb now => exact happly now rfl _ s
  | sync => exact hingest _ _ (ingest_sync s)
  | decode => exact hingest _ _ ((ingest_decode s).trans (ingest_setResult _ _))
  | bsAppend b => exact hingest _ _ (ingest_append b s)
  | bsPeek off => exact hingest _ _ (ingest_setResult _ s)
  | bsConsume => exact hingest _ _ ((ingest_consume s).trans (ingest_setResult _ _))
  | bsRdu16 | bsRdu32 | bsRdu64 | bsRdi16 | bsRdi32 | bsRdi64 | bsRdf32 | bsRdf64 =>
    simp only [effectOf]
    exact hingest _ _ (ingest_readInto _ _ _ s)
  | bsWru16 v | bsWru32 v | bsWru64 v | bsWri16 v | bsWri32 v | bsWri64 v | bsWrf32 v | bsWrf64 v =>
    exact hingest _ _ (ingest_appendAll _ s)
  | bsSetri k => exact hingest _ _ (ingest_setReader _ s)
  | bsSetwi k => exact hingest _ _ (ingest_withBs rfl)
  | bsClear => exact hingest _ _ (ingest_clear s)
  | bsCompact => exact hingest _ _ (ingest_compact s)

/-! ## `S` after each operation that writes it -/

theorem estopBody_dev (now : Time) (s : State) :
    (estopBody now s).dev = { s.dev with countdown := false, mode := .blank } := by
  simp [estopBody]

theorem startBody_dev (c : Command) (now : Time) (s : State) :
    (startBody c now s).dev =
      { (s.updateFields c).dev with
        lastTickTime := now
        time := preDecrement (s.updateFields c).dev.time
        countdown := true
        mode := .counting } := by
  simp [startBody, startEdge]

theorem stopBody_dev (c : Command) (now : Time) (s : State) :
    (stopBody c now s).dev = { (s.updateFields c).dev with countdown := false, mode := .blank } := by
  simp [stopBody, stopEdge]

theorem updateBody_dev (c : Command) (s : State) : (updateBody c s).dev = (s.updateFields c).dev := rfl

theorem countdownDecrement_dev (now : Time) (s : State) :
    (countdownDecrement now s).dev = { s.dev with time := s.dev.time - 1, lastTickTime := now } := rfl

theorem countdownEnd_dev (now : Time) (s : State) :
    (countdownEnd now s).dev =
      if s.dev.countdownContinues then { s.dev with countdownContinues := false, lastTickTime := now }
      else { s.dev with countdown := false, mode := .blank } := by
  cases h : s.dev.countdownContinues <;> simp [countdownEnd, h]

/-- What part A of `TICK` can do (R230 to R234). -/
theorem tickCountdown_cases (now : Time) (s : State) :
    tickCountdown now s = s ∨
      (1 < s.dev.time.toInt ∧ tickCountdown now s = countdownDecrement now s) ∨
      tickCountdown now s = countdownEnd now s := by
  unfold tickCountdown
  split
  · split
    · next htime => exact .inr (.inl ⟨htime, rfl⟩)
    · exact .inr (.inr rfl)
  · exact .inl rfl

/-- Toggling the tone (R242) writes the tone or nothing. -/
theorem toggleTone_cases (now : Time) (vol : Volume) (s : State) :
    toggleTone now vol s = s ∨ ∃ tone, toggleTone now vol s = s.setTone tone := by
  unfold toggleTone
  split <;> split
  · exact .inr ⟨_, rfl⟩
  · exact .inl rfl
  · exact .inl rfl
  · exact .inr ⟨_, rfl⟩

/-- While a countdown is active, the end of a schedule only silences the buzzer (R243). -/
theorem endSchedule_of_countdown {s : State} (h : s.dev.countdown = true) :
    s.endSchedule = ((s.withBz { s.bz with active := false }).setTone .off).emit .buzzerEnd :=
  if_pos h

/-- With no countdown active, it also enters Idle and shows the stored fields again (R243). -/
theorem endSchedule_of_no_countdown {s : State} (h : s.dev.countdown = false) :
    s.endSchedule = ((((s.withBz { s.bz with active := false }).setTone .off).emit .buzzerEnd).withDev
      { s.dev with mode := .idle }).fullRedisplay :=
  if_neg (by simpa using h)

/-- What part B of `TICK` can do (R241 to R243). -/
theorem tickBuzzer_cases (now : Time) (vol : Volume) (s : State) :
    tickBuzzer now vol s = s ∨ tickBuzzer now vol s = s.endSchedule ∨
      ∃ tone, tickBuzzer now vol s = s.setTone tone := by
  unfold tickBuzzer
  split
  · split
    · exact .inr (.inl rfl)
    · rcases toggleTone_cases now vol s with h | h
      · exact .inl h
      · exact .inr (.inr h)
  · exact .inl rfl

/-- Part B of `TICK` writes nothing of `S` but the mode, and that only to enter Idle with no countdown active. -/
theorem tickBuzzer_dev (now : Time) (vol : Volume) (s : State) :
    (tickBuzzer now vol s).dev = s.dev ∨
      (s.dev.countdown = false ∧ (tickBuzzer now vol s).dev = { s.dev with mode := .idle }) := by
  rcases tickBuzzer_cases now vol s with h | h | ⟨tone, h⟩ <;> rw [h]
  · exact .inl rfl
  · rw [State.endSchedule_dev]
    cases hc : s.dev.countdown with
    | true => exact .inl rfl
    | false => exact .inr ⟨rfl, rfl⟩
  · exact .inl rfl

theorem tickBuzzer_trace (now : Time) (vol : Volume) (s : State) :
    s.io.trace <+: (tickBuzzer now vol s).io.trace := by
  rcases tickBuzzer_cases now vol s with h | h | ⟨tone, h⟩
  · rw [h]
  · rw [h, State.endSchedule_trace]
    exact List.prefix_append _ _
  · rw [h, State.setTone_io]

theorem countdownEnd_sameIngest (now : Time) (s : State) : s.SameIngest (countdownEnd now s) := by
  cases h : s.dev.countdownContinues <;> simp [countdownEnd, State.SameIngest, h]

theorem tickCountdown_sameIngest (now : Time) (s : State) : s.SameIngest (tickCountdown now s) := by
  rcases tickCountdown_cases now s with h | ⟨-, h⟩ | h <;> rw [h]
  · exact ⟨rfl, rfl⟩
  · exact ⟨rfl, rfl⟩
  · exact countdownEnd_sameIngest now s

theorem tickBuzzer_sameIngest (now : Time) (vol : Volume) (s : State) : s.SameIngest (tickBuzzer now vol s) := by
  rcases tickBuzzer_cases now vol s with h | h | ⟨tone, h⟩ <;> rw [h]
  · exact ⟨rfl, rfl⟩
  · exact ⟨State.endSchedule_bs s, State.endSchedule_expected s⟩
  · exact ⟨rfl, rfl⟩

/-- `TICK` touches no part of the ByteStream and no `expected`. -/
theorem tick_sameIngest (now : Time) (vol : Volume) (s : State) :
    s.SameIngest (tickBuzzer now vol (tickCountdown now s)) := by
  obtain ⟨hbs, hexpected⟩ := tickCountdown_sameIngest now s
  obtain ⟨hbs', hexpected'⟩ := tickBuzzer_sameIngest now vol (tickCountdown now s)
  exact ⟨hbs'.trans hbs, hexpected'.trans hexpected⟩

/-- `FLUSH` touches no part of the ByteStream and no `expected`, -/
theorem flushDisplay_sameIngest (s : State) : s.SameIngest (flushDisplay s) := by
  unfold flushDisplay
  split <;> exact ⟨rfl, rfl⟩

/-- and nothing of `S` (R252). -/
theorem flushDisplay_dev (s : State) : (flushDisplay s).dev = s.dev := by
  unfold flushDisplay
  split <;> rfl

end Sys2Proof.Machine
end

section
/-! Proofs of the statements of 10_state.md, second part: who writes the matchplay mode, the capacity and the continue
flag. -/

namespace Sys2Proof.Machine

/-! ## Who writes the matchplay mode and the capacity (R37, R22) -/

theorem applyStage_matchplayMode (c : Command) (now : Time) (s : State) :
    (applyStage c now s).dev.matchplayMode = s.dev.matchplayMode := by
  unfold applyStage
  cases classify c s.dev with
  | reject => rfl
  | estop => simp [classBody, estopBody_dev]
  | start => simp [classBody, startBody_dev, State.updateFields_dev]
  | stop => simp [classBody, stopBody_dev, State.updateFields_dev]
  | update => simp [classBody, updateBody_dev, State.updateFields_dev]

theorem tickCountdown_matchplayMode (now : Time) (s : State) :
    (tickCountdown now s).dev.matchplayMode = s.dev.matchplayMode := by
  rcases tickCountdown_cases now s with h | ⟨-, h⟩ | h
  · rw [h]
  · rw [h, countdownDecrement_dev]
  · rw [h, countdownEnd_dev]
    split <;> rfl

theorem tick_matchplayMode (now : Time) (vol : Volume) (s : State) :
    (tickBuzzer now vol (tickCountdown now s)).dev.matchplayMode = s.dev.matchplayMode := by
  rw [← tickCountdown_matchplayMode now s]
  rcases tickBuzzer_dev now vol (tickCountdown now s) with h | ⟨-, h⟩ <;> rw [h]

theorem effectOf_matchplayMode {i : Instr} (hreset : i ≠ .reset) (hsample : ∀ mp, i ≠ .sample mp) (s : State) :
    (effectOf i s).dev.matchplayMode = s.dev.matchplayMode := by
  cases hi : ingestsOrApplies i with
  | true =>
    exact effectOf_rel (R := fun s t => t.dev.matchplayMode = s.dev.matchplayMode)
      (fun _ _ _ h k => k.trans h) (fun _ _ h => congrArg DeviceState.matchplayMode h.dev) hi
      (fun now _ c s => applyStage_matchplayMode c now s) s
  | false =>
    cases i with
    | reset => exact absurd rfl hreset
    | sample mp => exact absurd rfl (hsample mp)
    | tick now vol => exact tick_matchplayMode now vol s
    | flush => exact congrArg DeviceState.matchplayMode (flushDisplay_dev s)
    | bsResize n =>
      simp only [effectOf, State.resize]
      split <;> rfl
    | _ => exact absurd hi Bool.noConfusion

theorem effectOf_capacity {i : Instr} (hreset : i ≠ .reset) (hresize : ∀ n, i ≠ .bsResize n) (s : State) :
    (effectOf i s).bs.capacity = s.bs.capacity := by
  cases hi : ingestsOrApplies i with
  | true =>
    exact effectOf_rel (R := fun s t => t.bs.capacity = s.bs.capacity)
      (fun _ _ _ h k => k.trans h) (fun _ _ h => h.capacity) hi
      (fun now _ c s => congrArg ByteStream.capacity (applyStage_ingest c now s).1) s
  | false =>
    cases i with
    | reset => exact absurd rfl hreset
    | bsResize n => exact absurd rfl (hresize n)
    | sample mp => rfl
    | tick now vol => exact congrArg ByteStream.capacity (tick_sameIngest now vol s).1
    | flush => exact congrArg ByteStream.capacity (flushDisplay_sameIngest s).1
    | _ => exact absurd hi Bool.noConfusion

/-! ## The continue flag (R30, R205, R234) -/

theorem updateFields_countdownContinues (c : Command) (s : State) :
    (s.updateFields c).dev.countdownContinues = (s.dev.countdownContinues || c.countdownContinues) := by
  rw [State.updateFields_dev]

/-- A Command never clears the continue flag (R205). -/
theorem applyStage_keeps_countdownContinues (c : Command) (now : Time) (s : State)
    (h : s.dev.countdownContinues = true) : (applyStage c now s).dev.countdownContinues = true := by
  unfold applyStage
  cases classify c s.dev with
  | reject => exact h
  | estop => simp [classBody, estopBody_dev, h]
  | start => simp [classBody, startBody_dev, updateFields_countdownContinues, h]
  | stop => simp [classBody, stopBody_dev, updateFields_countdownContinues, h]
  | update => simp [classBody, updateBody_dev, updateFields_countdownContinues, h]

/-- A Command that the guard lets pass and that is no emergency stop starts, stops or updates (R88). -/
theorem classify_of_accepted {c : Command} {d : DeviceState} (hguard : ¬ Claims.Guarded c d)
    (hestop : c.emergencyStop = false) :
    classify c d = .start ∨ classify c d = .stop ∨ classify c d = .update := by
  have hpass : guardRejects c d = false := by simpa [guardRejects] using hguard
  unfold classify
  rw [hpass, hestop]
  simp only [Bool.false_eq_true, if_false]
  split
  · exact .inl rfl
  · split
    · exact .inr (.inl rfl)
    · exact .inr (.inr rfl)

theorem applyStage_sets_countdownContinues {c : Command} {s : State} (now : Time)
    (hguard : ¬ Claims.Guarded c s.dev) (hestop : c.emergencyStop = false) (hc : c.countdownContinues = true) :
    (applyStage c now s).dev.countdownContinues = true := by
  unfold applyStage
  rcases classify_of_accepted hguard hestop with h | h | h <;> rw [h]
  · simp [classBody, startBody_dev, updateFields_countdownContinues, hc]
  · simp [classBody, stopBody_dev, updateFields_countdownContinues, hc]
  · simp [classBody, updateBody_dev, updateFields_countdownContinues, hc]

theorem tickBuzzer_countdownContinues (now : Time) (vol : Volume) (s : State) :
    (tickBuzzer now vol s).dev.countdownContinues = s.dev.countdownContinues := by
  rcases tickBuzzer_dev now vol s with h | ⟨-, h⟩ <;> rw [h]

/-- A `TICK` clears the continue flag only by a continued countdown end (R234). -/
theorem tick_clears_countdownContinues {now : Time} {vol : Volume} {s : State}
    (hset : s.dev.countdownContinues = true)
    (hclear : (tickBuzzer now vol (tickCountdown now s)).dev.countdownContinues = false) :
    .countdownEndContinue ∈ (tickBuzzer now vol (tickCountdown now s)).io.trace := by
  rw [tickBuzzer_countdownContinues] at hclear
  refine (tickBuzzer_trace now vol _).subset ?_
  rcases tickCountdown_cases now s with h | ⟨-, h⟩ | h <;> rw [h] at hclear ⊢
  · exact absurd hclear (by simp [hset])
  · exact absurd hclear (by simp [countdownDecrement_dev, hset])
  · simp [countdownEnd, hset]

theorem effectOf_keeps_countdownContinues {i : Instr} (hreset : i ≠ .reset) (htick : ∀ now vol, i ≠ .tick now vol)
    {s : State} (h : s.dev.countdownContinues = true) : (effectOf i s).dev.countdownContinues = true := by
  cases hi : ingestsOrApplies i with
  | true =>
    exact effectOf_rel (R := fun s t => s.dev.countdownContinues = true → t.dev.countdownContinues = true)
      (fun _ _ _ h k => k ∘ h) (fun _ _ h k => by rw [h.dev, k]) hi
      (fun now _ c s => applyStage_keeps_countdownContinues c now s) s h
  | false =>
    cases i with
    | reset => exact absurd rfl hreset
    | tick now vol => exact absurd rfl (htick now vol)
    | sample mp => exact h
    | flush => exact (congrArg DeviceState.countdownContinues (flushDisplay_dev s)).trans h
    | bsResize n =>
      simp only [effectOf, State.resize]
      split <;> exact h
    | _ => exact absurd hi Bool.noConfusion

end Sys2Proof.Machine
end

section
/-! Proofs of the statements of 10_state.md, third part: every operation keeps the invariant. -/

namespace Sys2Proof.Machine

/-! ## The device side of the invariant

`State.Inv` in the three parts that are kept for different reasons: the ByteStream's own; that a countdown is active
exactly in Counting, which holds only of whole operations (an emergency stop cancels the countdown before it enters
Blank); and the rest, which every single write keeps. -/

/-- R32: a countdown is active exactly in Counting. -/
abbrev DeviceState.CountsInCounting (d : DeviceState) : Prop := d.countdown = true ↔ d.mode = .counting

/-- What every write to the device side keeps: the time is not negative (R35), the intents are in range (R43, R44), the
schedule does not end before it starts (R39), the anchors are earlier timestamps (R13, R231). -/
structure State.DeviceOk (s : State) : Prop where
  time : 0 ≤ s.dev.time.toInt
  ind : s.out.ind ≠ 3
  det : s.out.det ≠ 3
  dig : s.out.dig.inRange = true
  bz : s.bz.startTime.toNat ≤ s.bz.endTime.toNat
  tickPast : s.dev.lastTickTime.toNat ≤ s.io.clock.toNat
  bzPast : s.bz.startTime.toNat ≤ s.io.clock.toNat

theorem State.inv_iff {s : State} : s.Inv ↔ s.bs.Inv ∧ s.dev.CountsInCounting ∧ s.DeviceOk :=
  ⟨fun ⟨hbs, ⟨hcounts, htime⟩, ⟨hind, hdet, hdig⟩, hbz, htick, hstart⟩ =>
      ⟨hbs, hcounts, htime, hind, hdet, hdig, hbz, htick, hstart⟩,
    fun ⟨hbs, hcounts, htime, hind, hdet, hdig, hbz, htick, hstart⟩ =>
      ⟨hbs, ⟨hcounts, htime⟩, ⟨hind, hdet, hdig⟩, hbz, htick, hstart⟩⟩

/-! ### Values in range -/

theorem clampTime_nonneg (v : Word32) : 0 ≤ (clampTime v).toInt := by
  unfold clampTime
  split
  · decide
  · next h => exact Int.not_lt.mp h

/-- A time of at least 1 loses exactly 1: no wrap. -/
theorem toInt_sub_one {t : Word32} (h : 1 ≤ t.toInt) : (t - 1).toInt = t.toInt - 1 := by
  have hlt : t.toInt < 2 ^ 31 := BitVec.toInt_lt
  rw [BitVec.toInt_sub, show (1 : Word32).toInt = 1 from rfl, Int.bmod_eq_of_le (by omega) (by omega)]

theorem preDecrement_nonneg (t : Word32) : 0 ≤ (preDecrement t).toInt := by
  unfold preDecrement
  split
  · next h => rw [toInt_sub_one h]; omega
  · decide

theorem digitsOf_inRange {d : DeviceState} (h : 0 ≤ d.time.toInt) : (digitsOf d).inRange = true := by
  unfold digitsOf
  split
  · have hmax : Config.params.digitMax = 999 := rfl
    simp only [Digits.inRange, decide_eq_true_eq, BitVec.toNat_ofInt, hmax]
    omega
  · rfl

/-! ### One lemma per write -/

namespace State.DeviceOk

variable {s t : State} {now : Time}

/-- Work that leaves the device and the clock alone keeps it. -/
theorem of_eq (h : s.DeviceOk) (hdev : t.dev = s.dev) (hbz : t.bz = s.bz) (hout : t.out = s.out)
    (hclock : t.io.clock = s.io.clock) : t.DeviceOk := by
  obtain ⟨htime, hind, hdet, hdig, hend, htick, hstart⟩ := h
  rw [← hdev] at htime htick
  rw [← hout] at hind hdet hdig
  rw [← hbz] at hend hstart
  rw [← hclock] at htick hstart
  exact ⟨htime, hind, hdet, hdig, hend, htick, hstart⟩

theorem ingest (h : s.DeviceOk) (hst : IngestStep s t) : t.DeviceOk := h.of_eq hst.dev hst.bz hst.out hst.clock

theorem emit {e : Event} (h : s.DeviceOk) : (s.emit e).DeviceOk := h.ingest (ingest_emit e s)

theorem withDev {d : DeviceState} (h : s.DeviceOk) (htime : 0 ≤ d.time.toInt)
    (htick : d.lastTickTime.toNat ≤ s.io.clock.toNat) : (s.withDev d).DeviceOk :=
  { h with time := htime, tickPast := htick }

theorem issueIndicator {c : Code} (h : s.DeviceOk) (hc : c ≠ 3) : (s.issueIndicator c).DeviceOk :=
  { h with ind := hc }

theorem issueDetail {c : Code} (h : s.DeviceOk) (hc : c ≠ 3) : (s.issueDetail c).DeviceOk := { h with det := hc }

theorem issueDigits {v : Digits} (h : s.DeviceOk) (hv : v.inRange = true) : (s.issueDigits v).DeviceOk :=
  { h with dig := hv }

theorem setTone (h : s.DeviceOk) (tone : Tone) : (s.setTone tone).DeviceOk := { h with }

theorem silenced (h : s.DeviceOk) : ((s.withBz { s.bz with active := false }).setTone .off).DeviceOk := { h with }

theorem sound (h : s.DeviceOk) (n : Word32) (hnow : now.toNat ≤ s.io.clock.toNat) : (s.sound n now).DeviceOk := by
  rcases s.sound_bz_cases n now with ⟨-, hbz⟩ | ⟨-, -, hstart, hend, -⟩
  · exact h.of_eq (s.sound_dev n now) hbz (s.sound_out n now) (s.sound_clock n now)
  · obtain ⟨htime, hind, hdet, hdig, -, htick, -⟩ := h
    refine ⟨?_, ?_, ?_, ?_, ?_, ?_, ?_⟩ <;> simp only [sound_dev, sound_out, sound_clock, hstart] <;> assumption

theorem redisplayDigits (h : s.DeviceOk) : s.redisplayDigits.DeviceOk := h.issueDigits (digitsOf_inRange h.time)

theorem enterBlank (h : s.DeviceOk) : s.enterBlank.DeviceOk :=
  issueDigits (issueDetail (issueIndicator (withDev h h.time h.tickPast) (by decide)) (by decide)) rfl

theorem fullRedisplay (h : s.DeviceOk) : s.fullRedisplay.DeviceOk := by
  have hind : s.redisplayIndicator.DeviceOk := by
    unfold redisplayIndicator
    split
    · next hc => exact h.issueIndicator (bne_iff_ne.mp hc)
    · exact h
  have hdet : s.redisplayIndicator.redisplayDetail.DeviceOk := by
    unfold redisplayDetail
    split
    · next hc => exact hind.issueDetail (bne_iff_ne.mp hc)
    · exact hind
  exact hdet.redisplayDigits

theorem takeEstop (h : s.DeviceOk) (hnow : now.toNat ≤ s.io.clock.toNat) : (s.takeEstop now).DeviceOk :=
  ((h.withDev (d := { s.dev with countdown := false }) h.time h.tickPast).silenced.sound _ hnow).enterBlank

theorem endSchedule (h : s.DeviceOk) : s.endSchedule.DeviceOk := by
  have hsilent := h.silenced.emit (e := .buzzerEnd)
  cases hc : s.dev.countdown with
  | true => rw [endSchedule_of_countdown hc]; exact hsilent
  | false => rw [endSchedule_of_no_countdown hc]; exact fullRedisplay (withDev hsilent h.time h.tickPast)

/-! ### Commands -/

theorem updateColour (h : s.DeviceOk) (c : Command) : (s.updateColour c).DeviceOk := by
  have hstored : (s.withDev { s.dev with colour := c.colour }).DeviceOk := h.withDev h.time h.tickPast
  unfold State.updateColour
  split
  · simp only
    split
    · next hc => exact hstored.issueIndicator (bne_iff_ne.mp hc)
    · exact hstored
  · exact h

theorem updateDetail (h : s.DeviceOk) (c : Command) : (s.updateDetail c).DeviceOk := by
  have hstored : (s.withDev { s.dev with detail := c.detail }).DeviceOk := h.withDev h.time h.tickPast
  unfold State.updateDetail
  split
  · simp only
    split
    · next hc => exact hstored.issueDetail (bne_iff_ne.mp hc)
    · exact hstored
  · exact h

theorem updateTime (h : s.DeviceOk) (c : Command) : (s.updateTime c).DeviceOk := by
  unfold State.updateTime
  split
  · exact redisplayDigits (withDev h (clampTime_nonneg c.time) h.tickPast)
  · exact h

theorem updateFields (h : s.DeviceOk) (c : Command) : (s.updateFields c).DeviceOk := by
  have hmirror : (s.mirrorFields c).DeviceOk := h.withDev h.time h.tickPast
  exact ((hmirror.updateColour c).updateDetail c).updateTime c

theorem startEdge (h : s.DeviceOk) (hnow : now.toNat ≤ s.io.clock.toNat) : (startEdge now s).DeviceOk := by
  have hanchored : (s.withDev { s.dev with lastTickTime := now, time := preDecrement s.dev.time }).DeviceOk :=
    h.withDev (preDecrement_nonneg _) hnow
  have hsounded := hanchored.redisplayDigits.sound s.dev.startNumBeeps hnow
  exact hsounded.withDev hsounded.time hsounded.tickPast

theorem stopEdge (h : s.DeviceOk) (hnow : now.toNat ≤ s.io.clock.toNat) : (stopEdge now s).DeviceOk := by
  have hsounded := h.sound s.dev.endNumBeeps hnow
  exact enterBlank (withDev hsounded hsounded.time hsounded.tickPast)

theorem applyStage (h : s.DeviceOk) (hnow : now.toNat ≤ s.io.clock.toNat) (c : Command) :
    (applyStage c now s).DeviceOk := by
  have hnow' : now.toNat ≤ (s.updateFields c).io.clock.toNat := by
    obtain ⟨-, -, -, hio⟩ := updateFields_ingest c s
    rwa [hio]
  unfold Machine.applyStage
  cases classify c s.dev with
  | reject => exact h.emit
  | estop => exact (h.takeEstop hnow).emit
  | start => exact ((h.updateFields c).startEdge hnow').emit
  | stop => exact ((h.updateFields c).stopEdge hnow').emit
  | update => exact (h.updateFields c).emit

/-! ### The tick -/

theorem countdownEnd (h : s.DeviceOk) (hnow : now.toNat ≤ s.io.clock.toNat) : (countdownEnd now s).DeviceOk := by
  have hsounded := h.sound s.dev.endNumBeeps hnow
  have hnow' : now.toNat ≤ (s.sound s.dev.endNumBeeps now).io.clock.toNat := by rwa [sound_clock]
  unfold Machine.countdownEnd
  simp only
  split
  · exact emit (withDev hsounded hsounded.time hnow')
  · exact emit (enterBlank (withDev hsounded hsounded.time hsounded.tickPast))

theorem tickCountdown (h : s.DeviceOk) (hnow : now.toNat ≤ s.io.clock.toNat) : (tickCountdown now s).DeviceOk := by
  rcases tickCountdown_cases now s with e | ⟨htime, e⟩ | e <;> rw [e]
  · exact h
  · have hleft : 0 ≤ (s.dev.time - 1).toInt := by rw [toInt_sub_one (by omega)]; omega
    have hshown := (h.withDev (d := { s.dev with time := s.dev.time - 1 }) hleft h.tickPast).redisplayDigits
    exact emit (withDev hshown hshown.time hnow)
  · exact h.countdownEnd hnow

theorem tickBuzzer (h : s.DeviceOk) (vol : Volume) : (tickBuzzer now vol s).DeviceOk := by
  rcases tickBuzzer_cases now vol s with e | e | ⟨tone, e⟩ <;> rw [e]
  · exact h
  · exact h.endSchedule
  · exact h.setTone tone

theorem flushDisplay (h : s.DeviceOk) : (flushDisplay s).DeviceOk := by
  unfold Machine.flushDisplay
  split
  · exact { h with }
  · exact h

theorem reset : State.reset.DeviceOk := by constructor <;> decide

end State.DeviceOk

/-- Every operation keeps it, once the clock stands at the operation's timestamp. -/
theorem effectOf_deviceOk {i : Instr} {s : State} (hclock : ∀ now, i.timestamp = some now → s.io.clock = now)
    (h : s.DeviceOk) : (effectOf i s).DeviceOk := by
  have hnow : ∀ {now}, i.timestamp = some now → now.toNat ≤ s.io.clock.toNat := fun hi =>
    (congrArg BitVec.toNat (hclock _ hi)).ge
  cases hi : ingestsOrApplies i with
  | true =>
    have hrel := effectOf_rel (i := i)
      (R := fun u v => v.io.clock = u.io.clock ∧ (u.io.clock = s.io.clock → u.DeviceOk → v.DeviceOk))
      (fun u v w ⟨huv, kuv⟩ ⟨hvw, kvw⟩ => ⟨hvw.trans huv, fun hu hok => kvw (huv.trans hu) (kuv hu hok)⟩)
      (fun u v huv => ⟨huv.clock, fun _ hok => hok.ingest huv⟩) hi
      (fun now ht c u =>
        have ⟨_, _, hkept, _⟩ := applyStage_ingest c now u
        ⟨hkept, fun hu hok => hok.applyStage (hu ▸ hnow ht) c⟩) s
    exact hrel.2 rfl h
  | false =>
    cases i with
    | reset => exact State.DeviceOk.reset.of_eq rfl rfl rfl rfl
    | sample mp => exact h.withDev h.time h.tickPast
    | tick now vol => exact (h.tickCountdown (hnow rfl)).tickBuzzer vol
    | flush => exact h.flushDisplay
    | bsResize n =>
      simp only [effectOf, State.resize]
      split <;> exact h.of_eq rfl rfl rfl rfl
    | _ => exact absurd hi Bool.noConfusion

/-! ## A countdown is active exactly in Counting (R32) -/

theorem applyStage_countsInCounting (c : Command) (now : Time) (s : State) (h : s.dev.CountsInCounting) :
    (applyStage c now s).dev.CountsInCounting := by
  have hfields : (s.updateFields c).dev.CountsInCounting := by rw [State.updateFields_dev]; exact h
  unfold applyStage
  cases classify c s.dev with
  | reject => exact h
  | estop => simp [classBody, DeviceState.CountsInCounting, estopBody_dev]
  | start => simp [classBody, DeviceState.CountsInCounting, startBody_dev]
  | stop => simp [classBody, DeviceState.CountsInCounting, stopBody_dev]
  | update => exact hfields

theorem tick_countsInCounting (now : Time) (vol : Volume) (s : State) (h : s.dev.CountsInCounting) :
    (tickBuzzer now vol (tickCountdown now s)).dev.CountsInCounting := by
  have hcountdown : (tickCountdown now s).dev.CountsInCounting := by
    rcases tickCountdown_cases now s with e | ⟨-, e⟩ | e <;> rw [e]
    · exact h
    · exact h
    · rw [countdownEnd_dev]
      split
      · exact h
      · simp [DeviceState.CountsInCounting]
  rcases tickBuzzer_dev now vol (tickCountdown now s) with e | ⟨hnone, e⟩ <;> rw [e]
  · exact hcountdown
  · simp [DeviceState.CountsInCounting, hnone]

theorem effectOf_countsInCounting (i : Instr) (s : State) (h : s.dev.CountsInCounting) :
    (effectOf i s).dev.CountsInCounting := by
  cases hi : ingestsOrApplies i with
  | true =>
    exact effectOf_rel (R := fun s t => s.dev.CountsInCounting → t.dev.CountsInCounting)
      (fun _ _ _ h k => k ∘ h) (fun _ _ hst h => by rw [hst.dev]; exact h) hi
      (fun now _ c s => applyStage_countsInCounting c now s) s h
  | false =>
    cases i with
    | reset => exact ⟨nofun, nofun⟩
    | sample mp => exact h
    | tick now vol => exact tick_countsInCounting now vol s h
    | flush => rw [effectOf, flushDisplay_dev]; exact h
    | bsResize n =>
      simp only [effectOf, State.resize]
      split <;> exact h
    | _ => exact absurd hi Bool.noConfusion

/-! ## The ByteStream's invariant (R25, R137) -/

theorem ByteStream.Inv.moveReader {bs : ByteStream} (h : bs.Inv) (n : Nat) :
    ({ bs with ri := bs.ri + min n bs.unread.length } : ByteStream).Inv := by
  obtain ⟨hri, hrest⟩ := h
  refine ⟨?_, hrest⟩
  simp only [ByteStream.length_unread]
  omega

theorem State.readWord_inv {s : State} (w n : Nat) (h : s.bs.Inv) : (s.readWord w n).2.bs.Inv := by
  rw [State.readWord_snd]
  exact h.moveReader n

theorem decodeStage_inv {s : State} (h : s.bs.Inv) : (decodeStage s).2.bs.Inv :=
  State.readWord_inv _ _ (State.readWord_inv _ _ (State.readWord_inv _ _ (State.readWord_inv _ _ h)))

theorem readChecksum_inv {s : State} (h : s.bs.Inv) : (readChecksum s).2.bs.Inv :=
  State.readWord_inv _ _ (State.setReader_inv _ h)

theorem syncStage_inv {s : State} (h : s.bs.Inv) : (syncStage s).bs.Inv := by
  unfold syncStage
  split
  · split
    · exact h
    · exact State.compact_inv (State.setReader_inv 1 h)
  · exact h

/-- Whatever `VALIDATE` finds, it ends with the disposal of the frame (R176). -/
theorem validateStage_disposes (now : Time) (s : State) :
    ∃ u, validateStage now s = dispose u ∧ u.bs.capacity = s.bs.capacity ∧ (s.bs.Inv → u.bs.Inv) := by
  unfold validateStage
  simp only
  split
  · refine ⟨_, rfl, ?_, fun h => ?_⟩ <;> rw [(applyStage_ingest _ _ _).1]
    · exact (((ingest_readChecksum s).trans (ingest_emit .frameOk _)).trans (ingest_decode _)).capacity
    · exact decodeStage_inv (s := (readChecksum s).2.emit .frameOk) (readChecksum_inv h)
  · exact ⟨_, rfl, (ingest_readChecksum s).capacity, readChecksum_inv⟩

theorem validateStage_inv {s : State} (now : Time) (h : s.bs.Inv) : (validateStage now s).bs.Inv := by
  obtain ⟨u, hu, -, hinv⟩ := validateStage_disposes now s
  rw [hu]
  exact State.clear_inv (hinv h)

theorem receive_inv {s : State} (now : Time) (b : Byte) (h : s.bs.Inv) : (receive now b s).bs.Inv := by
  have hsync := syncStage_inv (State.append_inv (b := b) h)
  unfold receive completionStage
  split
  · exact validateStage_inv now hsync
  · exact hsync

theorem receiveAll_inv {s : State} (now : Time) (bytes : List Byte) (h : s.bs.Inv) :
    (receiveAll now bytes s).bs.Inv := by
  induction bytes generalizing s with
  | nil => exact h
  | cons b bytes ih => exact ih (receive_inv now b h)

theorem ByteStream.reset_inv : ByteStream.reset.Inv := by decide

theorem effectOf_bs_inv (i : Instr) {s : State} (h : s.bs.Inv) : (effectOf i s).bs.Inv := by
  cases i with
  | reset => exact ByteStream.reset_inv
  | sample mp | bsPeek off => exact h
  | rx b now =>
    simp only [effectOf]
    exact receive_inv now b h
  | frame f now =>
    simp only [effectOf]
    exact receiveAll_inv now f.bytes h
  | validate now =>
    simp only [effectOf]
    exact validateStage_inv now h
  | sync => exact syncStage_inv h
  | decode =>
    simp only [effectOf, State.setResult_bs]
    exact decodeStage_inv h
  | tick now vol => rw [effectOf, (tick_sameIngest now vol s).1]; exact h
  | flush => rw [effectOf, (flushDisplay_sameIngest s).1]; exact h
  | apply c now | cmdReject c now | cmdEstop c now | cmdStart c now | cmdStop c now | cmdUpdate c now
  | controlWord cw t sb eb now =>
    simp only [effectOf]
    rw [(applyStage_ingest _ _ s).1]
    exact h
  | bsAppend b => exact State.append_inv h
  | bsConsume =>
    simp only [effectOf, State.setResult_bs, State.withBs_bs, ByteStream.consume_eq]
    exact h.moveReader 1
  | bsRdu16 | bsRdu32 | bsRdu64 | bsRdi16 | bsRdi32 | bsRdi64 | bsRdf32 | bsRdf64 =>
    simp only [effectOf, State.readInto, State.setResult_bs]
    exact State.readWord_inv _ _ h
  | bsWru16 v | bsWru32 v | bsWru64 v | bsWri16 v | bsWri32 v | bsWri64 v | bsWrf32 v | bsWrf64 v =>
    simp only [effectOf]
    exact (State.appendAll_spec _ s h).inv
  | bsResize n => exact State.resize_inv n.toInt h
  | bsSetri k => exact State.setReader_inv k.toInt h
  | bsSetwi k => exact State.setWriter_inv k.toInt h
  | bsClear => exact State.clear_inv h
  | bsCompact => exact State.compact_inv h

/-! ## Every step keeps the invariant -/

theorem State.start_clock_eq {i : Instr} {now : Time} (hi : i.timestamp = some now) (s : State) :
    (s.start i).io.clock = now := by
  rw [State.start_clock, hi]
  rfl

/-- The beginning of an operation on time moves the clock forward only. -/
theorem State.clock_le_start_clock {i : Instr} {s : State} (h : i.onTime s = true) :
    s.io.clock.toNat ≤ (s.start i).io.clock.toNat := by
  rw [State.start_clock]
  cases hi : i.timestamp with
  | none => exact Nat.le_refl _
  | some now => simpa [Instr.onTime, hi] using h

theorem State.DeviceOk.start {i : Instr} {s : State} (h : s.DeviceOk) (htime : i.onTime s = true) :
    (s.start i).DeviceOk := by
  have hclock := State.clock_le_start_clock htime
  obtain ⟨htime, hind, hdet, hdig, hend, htick, hstart⟩ := h
  constructor <;> simp only [start_dev, start_bz, start_out]
  case tickPast => exact htick.trans hclock
  case bzPast => exact hstart.trans hclock
  all_goals assumption

theorem exec_keeps_inv {i : Instr} {s t : State} (h : s.Inv) (he : exec i s = .next t) : t.Inv := by
  obtain ⟨-, htime, rfl⟩ := exec_eq_next.mp he
  obtain ⟨hbs, hcounts, hok⟩ := State.inv_iff.mp h
  refine State.inv_iff.mpr ⟨effectOf_bs_inv i ?_, effectOf_countsInCounting i _ ?_, ?_⟩
  · rwa [State.start_bs]
  · rwa [State.start_dev]
  · exact effectOf_deviceOk (fun _ hi => State.start_clock_eq hi s) (hok.start htime)

end Sys2Proof.Machine
end

section
/-! Proofs of the statements of 10_state.md, fourth part: what holds between port operations. -/

namespace Sys2Proof.Machine

/-! ## The discipline between port operations (R25, R27, R152 to R155)

`State.PortInv` in two parts: where the cursors stand, and what the phase says of the bytes; a frame that is complete
is validated within the same `RX`. -/

/-- Nothing is read ahead, the writer is at the end, the capacity is the one after reset (R25, R22). -/
structure ByteStream.AtEnd (bs : ByteStream) : Prop where
  ri : bs.ri = 0
  wi : bs.wi = bs.size
  capacity : bs.capacity = Config.params.cap
  size : bs.size ≤ bs.capacity

/-- The buffer is short while hunting; a collected frame starts with the magic and its length byte (R27, R152). -/
structure State.PhaseOk (s : State) : Prop where
  hunt : s.expected = none → s.bs.size ≤ 4
  collect : s.expected ≠ none → 5 ≤ s.bs.size ∧ s.bs.startsWithMagic = true ∧ s.expected = some (s.bs.peek 4)

theorem State.portInv_iff {s : State} : s.PortInv ↔ s.bs.AtEnd ∧ s.PhaseOk ∧ s.frameComplete = false :=
  ⟨fun ⟨hri, hwi, hcap, hsize, hhunt, hcollect, hopen⟩ => ⟨⟨hri, hwi, hcap, hsize⟩, ⟨hhunt, hcollect⟩, hopen⟩,
    fun ⟨⟨hri, hwi, hcap, hsize⟩, ⟨hhunt, hcollect⟩, hopen⟩ => ⟨hri, hwi, hcap, hsize, hhunt, hcollect, hopen⟩⟩

/-- The discipline speaks of the ByteStream and `expected` alone. -/
theorem State.PortInv.of_sameIngest {s t : State} (h : s.PortInv) (hst : s.SameIngest t) : t.PortInv := by
  obtain ⟨hbs, hexpected⟩ := hst
  unfold PortInv frameComplete
  rw [hbs, hexpected]
  exact h

theorem append_atEnd {b : Byte} {s : State} (h : s.bs.AtEnd) : (s.append b).bs.AtEnd := by
  have hwi := h.wi
  by_cases hroom : s.bs.wi < s.bs.capacity
  · refine ⟨?_, ?_, ?_, ?_⟩
    · rw [State.append_ri, h.ri]
    · rw [State.append_wi hroom, State.append_size hroom]; omega
    · rw [State.append_capacity, h.capacity]
    · rw [State.append_capacity, State.append_size hroom]; omega
  · rw [State.append_full hroom]
    exact h

/-- An append at the end of the valid bytes leaves each of them readable as before. -/
theorem append_peek {b : Byte} {s : State} (hm : s.bs.mem.wf = true) (hwi : s.bs.wi = s.bs.size) {k : Nat}
    (hk : s.bs.ri + k < s.bs.size) : (s.append b).bs.peek k = s.bs.peek k := by
  by_cases hroom : s.bs.wi < s.bs.capacity
  · rw [ByteStream.peek, ByteStream.peek, ByteStream.readAt_eq_getD, ByteStream.readAt_eq_getD,
      State.append_bytes hm hroom hwi, State.append_ri, List.getD_append _ _ _ _ (by simpa using hk)]
  · rw [State.append_full hroom]
    rfl

/-- While a frame is collected, its first five bytes stay what they are (R27). -/
theorem append_phaseOk_of_collecting {b : Byte} {s : State} (hm : s.bs.mem.wf = true) (hend : s.bs.AtEnd)
    (hphase : s.PhaseOk) (hcollect : s.expected ≠ none) : (s.append b).PhaseOk := by
  obtain ⟨hsize, hmagic, hlen⟩ := hphase.collect hcollect
  have hri := hend.ri
  have hsame : ∀ k, k < 5 → (s.append b).bs.peek k = s.bs.peek k := fun k hk =>
    append_peek hm hend.wi (by omega)
  refine ⟨fun h => absurd (by rwa [State.append_expected] at h) hcollect, fun _ => ⟨?_, ?_, ?_⟩⟩
  · by_cases hroom : s.bs.wi < s.bs.capacity
    · rw [State.append_size hroom]; omega
    · rwa [State.append_full hroom]
  · rw [ByteStream.startsWithMagic, hsame 0 (by decide), hsame 1 (by decide), hsame 2 (by decide),
      hsame 3 (by decide)]
    exact hmagic
  · rw [State.append_expected, hsame 4 (by decide), hlen]

/-- While hunting, an append leaves at most the five bytes of a header. -/
theorem append_size_of_hunting {b : Byte} {s : State} (hend : s.bs.AtEnd) (hphase : s.PhaseOk)
    (hhunt : s.expected = none) : (s.append b).bs.size ≤ 5 := by
  have hsize := hphase.hunt hhunt
  have hwi := hend.wi
  have hcap : s.bs.capacity = 256 := hend.capacity
  rw [State.append_size (by omega)]
  omega

/-! ### `SYNC` inside an `RX` -/

theorem headerDue_iff {s : State} : s.headerDue = true ↔ s.expected = none ∧ s.bs.size = 5 := by
  simp [State.headerDue, show Config.params.hdrLen = 5 from rfl]

theorem syncStage_of_not_due {s : State} (h : ¬ (s.expected = none ∧ s.bs.size = 5)) : syncStage s = s := by
  rw [syncStage, if_neg (mt headerDue_iff.mp h)]

/-- The header check (R152 to R154): it locks on the header, or drops the oldest byte. -/
theorem syncStage_due {s : State} (hhunt : s.expected = none) (hsize : s.bs.size = 5) (hend : s.bs.AtEnd) :
    (syncStage s).bs.AtEnd ∧ (syncStage s).PhaseOk := by
  rw [syncStage, if_pos (headerDue_iff.mpr ⟨hhunt, hsize⟩)]
  split
  · next hmagic => exact ⟨hend, nofun, fun _ => ⟨hsize.ge, hmagic, rfl⟩⟩
  · have hdropped : (s.setReader 1).compact.bs.size = 4 := by
      simp [State.compact, State.setReader, clampIndex, hsize]
    have hcap := hend.capacity
    have hfits : (4 : Nat) ≤ Config.params.cap := by decide
    refine ⟨⟨rfl, rfl, hcap, ?_⟩, fun _ => hdropped.le, fun h => absurd hhunt h⟩
    show (s.setReader 1).compact.bs.size ≤ s.bs.capacity
    omega

/-- After the append and the header check of an `RX`, all of the discipline holds but that the frame is not
complete. -/
theorem syncStage_append {b : Byte} {s : State} (hm : s.bs.mem.wf = true) (hend : s.bs.AtEnd) (hphase : s.PhaseOk) :
    (syncStage (s.append b)).bs.AtEnd ∧ (syncStage (s.append b)).PhaseOk := by
  have hend' := append_atEnd (b := b) hend
  by_cases hhunt : s.expected = none
  · have hhunt' : (s.append b).expected = none := by rwa [State.append_expected]
    by_cases hsize : (s.append b).bs.size = 5
    · exact syncStage_due hhunt' hsize hend'
    · rw [syncStage_of_not_due (fun h => hsize h.2)]
      have hle := append_size_of_hunting (b := b) hend hphase hhunt
      exact ⟨hend', fun _ => by omega, fun h => absurd hhunt' h⟩
  · rw [syncStage_of_not_due (by rw [State.append_expected]; exact fun h => hhunt h.1)]
    exact ⟨hend', append_phaseOk_of_collecting hm hend hphase hhunt⟩

/-! ### The port operations -/

/-- Right after the disposal of a frame the block is between port operations (R176). -/
theorem dispose_portInv {s : State} (h : s.bs.capacity = Config.params.cap) : (dispose s).PortInv :=
  ⟨rfl, rfl, h, Nat.zero_le _, fun _ => Nat.zero_le _, fun hne => absurd rfl hne, rfl⟩

theorem completionStage_portInv {now : Time} {s : State} (hend : s.bs.AtEnd) (hphase : s.PhaseOk) :
    (completionStage now s).PortInv := by
  unfold completionStage
  split
  · obtain ⟨u, hu, hcap, -⟩ := validateStage_disposes now s
    rw [hu]
    exact dispose_portInv (hcap.trans hend.capacity)
  · next hopen => exact State.portInv_iff.mpr ⟨hend, hphase, by simpa using hopen⟩

theorem receive_portInv {now : Time} {b : Byte} {s : State} (hm : s.bs.mem.wf = true) (h : s.PortInv) :
    (receive now b s).PortInv := by
  obtain ⟨hend, hphase, -⟩ := State.portInv_iff.mp h
  obtain ⟨hend', hphase'⟩ := syncStage_append (b := b) hm hend hphase
  exact completionStage_portInv hend' hphase'

theorem reset_portInv : State.reset.PortInv := by decide

theorem effectOf_portInv {i : Instr} {s : State} (hport : i.isPort = true) (hm : s.bs.mem.wf = true)
    (h : s.PortInv) : (effectOf i s).PortInv := by
  cases i with
  | reset => exact reset_portInv
  | sample mp => exact h
  | rx b now =>
    simp only [effectOf]
    exact receive_portInv hm h
  | tick now vol => exact h.of_sameIngest (tick_sameIngest now vol s)
  | flush => exact h.of_sameIngest (flushDisplay_sameIngest s)
  | _ => exact absurd hport Bool.false_ne_true

end Sys2Proof.Machine
end

section
/-! Proofs of the statements of 10_state.md, fifth part: no operation reads `S.lastEnd`. -/

namespace Sys2Proof.Machine

/-! ## Ingest work reads nothing of `S`

So it does the same beside any other DeviceState. -/

section
variable (d : DeviceState) (s : State)

theorem withDev_append (b : Byte) : (s.withDev d).append b = (s.append b).withDev d := by
  unfold State.append
  show (if s.bs.wi < s.bs.capacity then _ else _) = _
  split <;> rfl

theorem withDev_appendAll (l : List Byte) : (s.withDev d).appendAll l = (s.appendAll l).withDev d := by
  induction l generalizing s with
  | nil => rfl
  | cons b l ih => exact (congrArg (State.appendAll l) (withDev_append d s b)).trans (ih (s.append b))

theorem withDev_readWord (w n : Nat) :
    (s.withDev d).readWord w n = ((s.readWord w n).1, (s.readWord w n).2.withDev d) := rfl

theorem withDev_setReader (i : Int) : (s.withDev d).setReader i = (s.setReader i).withDev d := rfl

theorem withDev_decodeStage : decodeStage (s.withDev d) = ((decodeStage s).1, (decodeStage s).2.withDev d) := by
  simp only [decodeStage, withDev_readWord]

theorem withDev_readChecksum : readChecksum (s.withDev d) = ((readChecksum s).1, (readChecksum s).2.withDev d) := by
  simp only [readChecksum, withDev_setReader, withDev_readWord]

theorem withDev_syncStage : syncStage (s.withDev d) = (syncStage s).withDev d := by
  unfold syncStage
  show (if s.headerDue then (if s.bs.startsWithMagic then _ else _) else _) = _
  split
  · split <;> rfl
  · rfl

end

/-! ## No operation reads `S.lastEnd` (R31) -/

/-- The same state with another `S.lastEnd`. -/
def State.withLastEnd (b : Bool) (s : State) : State := s.withDev { s.dev with lastEnd := b }

theorem sameButLastEnd_iff {s t : State} : Claims.SameButLastEnd s t ↔ ∃ b, t = s.withLastEnd b :=
  ⟨fun h => ⟨t.dev.lastEnd, h⟩, fun ⟨_, h⟩ => h ▸ rfl⟩

/-- Work that keeps another `S.lastEnd` beside it keeps the relation. -/
theorem sameButLastEnd_of_comm {f : State → State} (hf : ∀ b s, f (s.withLastEnd b) = (f s).withLastEnd b) {s t : State}
    (h : Claims.SameButLastEnd s t) : Claims.SameButLastEnd (f s) (f t) := by
  obtain ⟨b, rfl⟩ := sameButLastEnd_iff.mp h
  exact sameButLastEnd_iff.mpr ⟨b, hf b s⟩

/-- A full redisplay writes the output registers alone (R245). -/
theorem fullRedisplay_eq (s : State) : s.fullRedisplay = { s with out := s.fullRedisplay.out } := by
  show State.mk s.fullRedisplay.bs s.fullRedisplay.expected s.fullRedisplay.dev s.fullRedisplay.bz s.fullRedisplay.out
    s.fullRedisplay.io = _
  simp only [State.fullRedisplay_bs, State.fullRedisplay_expected, State.fullRedisplay_dev,
    State.fullRedisplay_bz, State.fullRedisplay_io]

/-! ### Work that keeps another `S.lastEnd` beside it -/

section
variable (b : Bool) (s : State)

theorem withLastEnd_append (byte : Byte) : (s.withLastEnd b).append byte = (s.append byte).withLastEnd b := by
  rw [State.withLastEnd, withDev_append, State.withLastEnd, State.append_dev]

theorem withLastEnd_appendAll (l : List Byte) : (s.withLastEnd b).appendAll l = (s.appendAll l).withLastEnd b := by
  rw [State.withLastEnd, withDev_appendAll, State.withLastEnd, (ingest_appendAll l s).dev]

theorem withLastEnd_syncStage : syncStage (s.withLastEnd b) = (syncStage s).withLastEnd b := by
  rw [State.withLastEnd, withDev_syncStage, State.withLastEnd, (ingest_sync s).dev]

theorem withLastEnd_decodeStage :
    decodeStage (s.withLastEnd b) = ((decodeStage s).1, (decodeStage s).2.withLastEnd b) := by
  rw [State.withLastEnd, withDev_decodeStage, State.withLastEnd, (ingest_decode s).dev]

theorem withLastEnd_readChecksum :
    readChecksum (s.withLastEnd b) = ((readChecksum s).1, (readChecksum s).2.withLastEnd b) := by
  rw [State.withLastEnd, withDev_readChecksum, State.withLastEnd, (ingest_readChecksum s).dev]

theorem withLastEnd_readInto (w n : Nat) (mk : BitVec w → Result) :
    (s.withLastEnd b).readInto w n mk = (s.readInto w n mk).withLastEnd b := rfl

theorem withLastEnd_emit (e : Event) : (s.withLastEnd b).emit e = (s.emit e).withLastEnd b := rfl

theorem withLastEnd_resize (n : Int) : (s.withLastEnd b).resize n = (s.resize n).withLastEnd b := by
  unfold State.resize
  split <;> rfl

theorem withLastEnd_start (i : Instr) : (s.withLastEnd b).start i = (s.start i).withLastEnd b := by
  unfold State.start
  split <;> rfl

theorem withLastEnd_sound (n : Word32) (now : Time) :
    (s.withLastEnd b).sound n now = (s.sound n now).withLastEnd b := by
  unfold State.sound
  split <;> rfl

theorem withLastEnd_takeEstop (now : Time) : (s.withLastEnd b).takeEstop now = (s.takeEstop now).withLastEnd b := by
  unfold State.takeEstop State.sound
  split <;> rfl

theorem withLastEnd_countdownEnd (now : Time) :
    countdownEnd now (s.withLastEnd b) = (countdownEnd now s).withLastEnd b := by
  unfold countdownEnd
  rw [show (s.withLastEnd b).dev.endNumBeeps = s.dev.endNumBeeps from rfl, withLastEnd_sound]
  simp only
  generalize s.sound s.dev.endNumBeeps now = u
  show (if u.dev.countdownContinues then _ else _) = _
  split <;> rfl

theorem withLastEnd_tickCountdown (now : Time) :
    tickCountdown now (s.withLastEnd b) = (tickCountdown now s).withLastEnd b := by
  unfold tickCountdown
  rw [withLastEnd_countdownEnd]
  show (if countdownDue now s.dev then (if 1 < s.dev.time.toInt then _ else _) else _) = _
  split
  · split <;> rfl
  · rfl

theorem withLastEnd_fullRedisplay : (s.withLastEnd b).fullRedisplay = s.fullRedisplay.withLastEnd b := by
  rw [fullRedisplay_eq, fullRedisplay_eq s, State.fullRedisplay_out, State.fullRedisplay_out]
  rfl

theorem withLastEnd_endSchedule : (s.withLastEnd b).endSchedule = s.endSchedule.withLastEnd b := by
  cases hc : s.dev.countdown with
  | true =>
    rw [endSchedule_of_countdown hc, endSchedule_of_countdown (s := s.withLastEnd b) hc]
    rfl
  | false =>
    rw [endSchedule_of_no_countdown hc, endSchedule_of_no_countdown (s := s.withLastEnd b) hc,
      ← withLastEnd_fullRedisplay]
    rfl

theorem withLastEnd_tickBuzzer (now : Time) (vol : Volume) :
    tickBuzzer now vol (s.withLastEnd b) = (tickBuzzer now vol s).withLastEnd b := by
  have htoggle : toggleTone now vol (s.withLastEnd b) = (toggleTone now vol s).withLastEnd b := by
    unfold toggleTone
    show (if toneWanted now s.bz.startTime then (if s.out.tone = .off then _ else _)
      else (if s.out.tone = .off then _ else _)) = _
    split <;> split <;> rfl
  unfold tickBuzzer
  rw [withLastEnd_endSchedule, htoggle]
  show (if s.bz.active then (if scheduleElapsed now s.bz then _ else _) else _) = _
  split
  · split <;> rfl
  · rfl

theorem withLastEnd_flushDisplay : flushDisplay (s.withLastEnd b) = (flushDisplay s).withLastEnd b := by
  unfold flushDisplay
  show (if s.flushDue then _ else _) = _
  split <;> rfl

/-! ### Work that may overwrite it -/

/-- The field updates write `S.lastEnd` before anything else, so what stood there is gone (R206). -/
theorem withLastEnd_updateFields (c : Command) : (s.withLastEnd b).updateFields c = s.updateFields c := rfl

end

/-- A Command overwrites `S.lastEnd`, or keeps what stands there. -/
theorem applyStage_sameButLastEnd {s t : State} (c : Command) (now : Time) (h : Claims.SameButLastEnd s t) :
    Claims.SameButLastEnd (applyStage c now s) (applyStage c now t) := by
  obtain ⟨b, rfl⟩ := sameButLastEnd_iff.mp h
  have hclass : classify c (s.withLastEnd b).dev = classify c s.dev := rfl
  unfold applyStage
  rw [hclass]
  cases classify c s.dev with
  | reject => exact sameButLastEnd_iff.mpr ⟨b, rfl⟩
  | estop => exact sameButLastEnd_iff.mpr ⟨b, congrArg (State.emit .cmdEstop) (withLastEnd_takeEstop b s now)⟩
  | start => simp only [classBody, startBody, withLastEnd_updateFields]
  | stop => simp only [classBody, stopBody, withLastEnd_updateFields]
  | update => simp only [classBody, updateBody, withLastEnd_updateFields]

theorem dispose_sameButLastEnd {s t : State} (h : Claims.SameButLastEnd s t) :
    Claims.SameButLastEnd (dispose s) (dispose t) :=
  sameButLastEnd_of_comm (fun _ _ => rfl) h

theorem validateStage_sameButLastEnd {s t : State} (now : Time) (h : Claims.SameButLastEnd s t) :
    Claims.SameButLastEnd (validateStage now s) (validateStage now t) := by
  obtain ⟨b, rfl⟩ := sameButLastEnd_iff.mp h
  unfold validateStage
  rw [withLastEnd_readChecksum]
  generalize readChecksum s = ck
  simp only [withLastEnd_emit, withLastEnd_decodeStage]
  rw [show (ck.2.withLastEnd b).bs = ck.2.bs from rfl]
  by_cases hsum : ck.1 = ck.2.bs.payloadSum (ck.2.bs.size - ck.2.bs.ri)
  · rw [if_pos hsum, if_pos hsum]
    exact dispose_sameButLastEnd (applyStage_sameButLastEnd _ now (sameButLastEnd_iff.mpr ⟨b, rfl⟩))
  · rw [if_neg hsum, if_neg hsum]
    exact dispose_sameButLastEnd (sameButLastEnd_iff.mpr ⟨b, rfl⟩)

theorem completionStage_sameButLastEnd {s t : State} (now : Time) (h : Claims.SameButLastEnd s t) :
    Claims.SameButLastEnd (completionStage now s) (completionStage now t) := by
  have hcomplete : t.frameComplete = s.frameComplete := by rw [h]; rfl
  unfold completionStage
  rw [hcomplete]
  split
  · exact validateStage_sameButLastEnd now h
  · exact h

theorem receive_sameButLastEnd {s t : State} (now : Time) (byte : Byte) (h : Claims.SameButLastEnd s t) :
    Claims.SameButLastEnd (receive now byte s) (receive now byte t) :=
  completionStage_sameButLastEnd now
    (sameButLastEnd_of_comm withLastEnd_syncStage
      (sameButLastEnd_of_comm (fun b s => withLastEnd_append b s byte) h))

theorem receiveAll_sameButLastEnd {s t : State} (now : Time) (bytes : List Byte) (h : Claims.SameButLastEnd s t) :
    Claims.SameButLastEnd (receiveAll now bytes s) (receiveAll now bytes t) := by
  induction bytes generalizing s t with
  | nil => exact h
  | cons byte bytes ih => exact ih (receive_sameButLastEnd now byte h)

theorem effectOf_sameButLastEnd (i : Instr) {s t : State} (h : Claims.SameButLastEnd s t) :
    Claims.SameButLastEnd (effectOf i s) (effectOf i t) := by
  cases i with
  | rx byte now =>
    simp only [effectOf]
    exact receive_sameButLastEnd now byte h
  | frame f now =>
    simp only [effectOf]
    exact receiveAll_sameButLastEnd now f.bytes h
  | validate now =>
    simp only [effectOf]
    exact validateStage_sameButLastEnd now h
  | apply c now | cmdReject c now | cmdEstop c now | cmdStart c now | cmdStop c now | cmdUpdate c now
  | controlWord cw time sb eb now =>
    simp only [effectOf]
    exact applyStage_sameButLastEnd _ now h
  | tick now vol =>
    exact sameButLastEnd_of_comm (fun b s => withLastEnd_tickBuzzer b s now vol)
      (sameButLastEnd_of_comm (fun b s => withLastEnd_tickCountdown b s now) h)
  | flush => exact sameButLastEnd_of_comm withLastEnd_flushDisplay h
  | sync => exact sameButLastEnd_of_comm withLastEnd_syncStage h
  | decode =>
    refine sameButLastEnd_of_comm (f := effectOf .decode) (fun b s => ?_) h
    simp only [effectOf, withLastEnd_decodeStage]
    rfl
  | bsAppend byte => exact sameButLastEnd_of_comm (fun b s => withLastEnd_append b s byte) h
  | bsRdu16 | bsRdu32 | bsRdu64 | bsRdi16 | bsRdi32 | bsRdi64 | bsRdf32 | bsRdf64 =>
    simp only [effectOf]
    exact sameButLastEnd_of_comm (fun b s => withLastEnd_readInto b s _ _ _) h
  | bsWru16 v | bsWru32 v | bsWru64 v | bsWri16 v | bsWri32 v | bsWri64 v | bsWrf32 v | bsWrf64 v =>
    simp only [effectOf]
    exact sameButLastEnd_of_comm (fun b s => withLastEnd_appendAll b s _) h
  | bsResize n =>
    refine sameButLastEnd_of_comm (f := effectOf (.bsResize n)) (fun b s => ?_) h
    simp only [effectOf, withLastEnd_resize]
    rfl
  | reset =>
    obtain ⟨b, rfl⟩ := sameButLastEnd_iff.mp h
    rfl
  | sample mp | bsPeek off | bsConsume | bsSetri k | bsSetwi k | bsClear | bsCompact =>
    exact sameButLastEnd_of_comm (f := effectOf _) (fun _ _ => rfl) h

end Sys2Proof.Machine
end

section
/-! Proofs of the statements of 10_state.md: the statements. -/

namespace Sys2Proof.Machine

/-- Settles O7: `RESET` runs `resetAll`, whose every field is a value of R50 or kept for the environment. -/
theorem resetLeavesResetValues : Obligations.ResetLeavesResetValues := fun s =>
  ⟨resetAll s.begin, rfl, rfl, rfl, rfl, rfl, rfl, rfl, rfl, rfl⟩

/-- Settles O48: the reset state is one literal, and both invariants are decidable. -/
theorem resetSatisfiesInvariant : Obligations.ResetSatisfiesInvariant :=
  ⟨by decide, by decide⟩

/-- Settles O53: `effectOf_matchplayMode` and `effectOf_capacity`, from the state the operation starts on. -/
theorem writersOfModeAndCapacity : Obligations.WritersOfModeAndCapacity := by
  intro i s t he hreset
  obtain ⟨-, -, rfl⟩ := exec_eq_next.mp he
  refine ⟨fun hsample => ?_, fun hresize => ?_⟩
  · rw [effectOf_matchplayMode hreset hsample, State.start_dev]
  · rw [effectOf_capacity hreset hresize, State.start_bs]

/-- Settles O52: no operation but `RESET` and `TICK` clears the flag, and `TICK` only with its label; an accepted
Command ors its own flag in. -/
theorem continueFlagIsSticky : Obligations.ContinueFlagIsSticky := by
  refine ⟨fun i s t he hset hclear => ?_, fun c now s htime hguard hestop hc => ?_⟩
  · obtain ⟨-, -, rfl⟩ := exec_eq_next.mp he
    have hstart : (s.start i).dev.countdownContinues = true := by rwa [State.start_dev]
    by_cases hreset : i = .reset
    · exact .inl hreset
    · by_cases htick : ∃ now vol, i = .tick now vol
      · obtain ⟨now, vol, rfl⟩ := htick
        exact .inr ⟨⟨now, vol, rfl⟩, tick_clears_countdownContinues hstart hclear⟩
      · have hkept := effectOf_keeps_countdownContinues hreset (fun now vol h => htick ⟨now, vol, h⟩) hstart
        exact absurd hclear (by simp [hkept])
  · exact ⟨_, runAt_eq_next.mpr ⟨htime, rfl⟩, applyStage_sets_countdownContinues now hguard hestop hc⟩

/-- Settles O47: a step does nothing, or one operation on the same state with less still to run. -/
theorem stepKeepsInvariant : Obligations.StepKeepsInvariant := by
  intro s t hinv hstep
  rcases step_cases hstep with ⟨rfl, -, -⟩ | ⟨i, q, ps, he⟩
  · exact hinv
  · exact exec_keeps_inv (s := s.withAsks q ps) hinv he

/-- Settles O49: `effectOf_portInv`, from the state the operation starts on. -/
theorem portOperationsKeepDiscipline : Obligations.PortOperationsKeepDiscipline := by
  intro i s t hinv h hport he
  obtain ⟨-, -, rfl⟩ := exec_eq_next.mp he
  obtain ⟨-, -, -, -, hm, -⟩ := hinv
  refine effectOf_portInv hport (by rwa [State.start_bs]) (h.of_sameIngest ⟨?_, ?_⟩)
  · exact State.start_bs i s
  · exact State.start_expected i s

/-- Settles O51: what lets an operation run is the same on both states, and its effect keeps the relation. -/
theorem lastEndIsNeverRead : Obligations.LastEndIsNeverRead := by
  intro i s s' t h he
  obtain ⟨hin, htime, rfl⟩ := exec_eq_next.mp he
  obtain ⟨b, rfl⟩ := sameButLastEnd_iff.mp h
  refine ⟨_, exec_eq_next.mpr ⟨hin, htime, rfl⟩, effectOf_sameButLastEnd i ?_⟩
  rw [withLastEnd_start]
  exact sameButLastEnd_iff.mpr ⟨b, rfl⟩

end Sys2Proof.Machine
end

section
/-! Proofs of the statements of 20_memory.md, first part: byte arrays that agree below a position, and the reads of the
ByteStream that see no more than that. -/

namespace Sys2Proof.Machine

/-! ## Arrays that agree below a position

One law per memory operation: how far two arrays agree after it. -/

/-- Two arrays in canonical form with the same bytes below `n`. -/
structure Memory.AgreeBelow (n : Nat) (m m' : Memory) : Prop where
  wf : m.wf = true
  wf' : m'.wf = true
  read : ∀ p, p < n → m'.read p = m.read p

namespace Memory.AgreeBelow

variable {n : Nat} {m m' : Memory}

theorem mono {k : Nat} (h : AgreeBelow n m m') (hle : k ≤ n) : AgreeBelow k m m' :=
  { h with read := fun p hp => h.read p (by omega) }

/-- A byte written to both arrays, with no gap above the agreement, extends it. -/
theorem write {a : Nat} (h : AgreeBelow n m m') (ha : a ≤ n) (v : Byte) :
    AgreeBelow (max n (a + 1)) (m.write a v) (m'.write a v) := by
  refine ⟨wf_write h.wf a v, wf_write h.wf' a v, fun p hp => ?_⟩
  rw [read_write h.wf', read_write h.wf]
  split
  · rfl
  · exact h.read p (by omega)

/-- Both arrays take the same free values, so filling from the end of the agreement extends it. -/
theorem fillFree (h : AgreeBelow n m m') (k count : Nat) :
    AgreeBelow (n + count) (m.fillFree k n count) (m'.fillFree k n count) := by
  induction count generalizing m m' k n with
  | zero => exact h
  | succ count ih =>
    have hfirst := (h.write le_rfl (Config.freeByte k)).mono (Nat.le_max_right n (n + 1))
    exact (ih hfirst (k + 1)).mono (by omega)

/-- Bytes moved down from within the agreement are the same in both arrays. -/
theorem copyDown (h : AgreeBelow n m m') (src : Nat) :
    AgreeBelow (n - src) (m.copyDown src 0 (n - src)) (m'.copyDown src 0 (n - src)) := by
  refine ⟨wf_copyDown h.wf _ _ _, wf_copyDown h.wf' _ _ _, fun p hp => ?_⟩
  rw [read_copyDown h.wf' _ _ _ _ (Nat.zero_le src), read_copyDown h.wf _ _ _ _ (Nat.zero_le src),
    if_pos (by omega), if_pos (by omega)]
  exact h.read _ (by omega)

end Memory.AgreeBelow

/-! ## The reads of the ByteStream see only valid bytes (R62) -/

/-- The same ByteStream over another array. -/
def ByteStream.withMem (m : Memory) (bs : ByteStream) : ByteStream := { bs with mem := m }

section
variable {bs : ByteStream} {m : Memory} (h : Memory.AgreeBelow bs.size bs.mem m)
include h

theorem ByteStream.bytes_withMem : (bs.withMem m).bytes = bs.bytes :=
  List.map_congr_left fun p hp => h.read p (List.mem_range.mp hp)

theorem ByteStream.unread_withMem : (bs.withMem m).unread = bs.unread :=
  congrArg (List.drop bs.ri) (bytes_withMem h)

theorem ByteStream.peek_withMem (off : Nat) : (bs.withMem m).peek off = bs.peek off := by
  rw [peek_eq_getD, peek_eq_getD, unread_withMem h]

theorem ByteStream.startsWithMagic_withMem : (bs.withMem m).startsWithMagic = bs.startsWithMagic := by
  simp only [startsWithMagic, peek_withMem h]

theorem ByteStream.payloadSum_withMem (n : Nat) : (bs.withMem m).payloadSum n = bs.payloadSum n := by
  induction n with
  | zero => rfl
  | succ n ih => simp only [payloadSum, ih, peek_withMem h]

theorem ByteStream.consume_withMem : (bs.withMem m).consume = (bs.consume.1, bs.consume.2.withMem m) := by
  rw [consume_eq, consume_eq, unread_withMem h]
  rfl

theorem ByteStream.consumeBE_withMem (n acc : Nat) :
    (bs.withMem m).consumeBE n acc = ((bs.consumeBE n acc).1, (bs.consumeBE n acc).2.withMem m) := by
  refine Prod.ext ?_ ?_
  · rw [consumeBE_fst, consumeBE_fst, unread_withMem h]
  · rw [consumeBE_snd, consumeBE_snd, unread_withMem h]
    rfl

end

end Sys2Proof.Machine
end

section
/-! Proofs of the statements of 20_memory.md, second part: the operations that read nothing of the ByteStream. -/

namespace Sys2Proof.Machine

/-- Work that does the same beside any other ByteStream, and leaves it alone. -/
def IgnoresStream (f : State → State) : Prop := ∀ bs s, f (s.withBs bs) = (f s).withBs bs

theorem IgnoresStream.comp {f g : State → State} (hf : IgnoresStream f) (hg : IgnoresStream g) :
    IgnoresStream (fun s => f (g s)) := fun bs s =>
  (congrArg f (hg bs s)).trans (hf bs (g s))

theorem IgnoresStream.bs_eq {f : State → State} (hf : IgnoresStream f) (s : State) : (f s).bs = s.bs := by
  have hsame : f s = (f s).withBs s.bs := hf s.bs s
  rw [hsame, State.withBs_bs]

theorem ignoresStream_start (i : Instr) : IgnoresStream (State.start i) := by
  intro bs s
  unfold State.start
  split <;> rfl

theorem ignoresStream_applyStage (c : Command) (now : Time) : IgnoresStream (applyStage c now) := by
  intro bs s
  obtain ⟨-, hexpected, -, -⟩ := applyStage_ingest c now s
  calc applyStage c now (s.withBs bs)
    _ = (applyStage c now s).reframe bs s.expected [] := applyStage_reframe bs s.expected [] c now s
    _ = (applyStage c now s).withBs bs := by rw [← hexpected]; rfl

/-! ### `TICK` -/

theorem ignoresStream_sound (n : Word32) (now : Time) : IgnoresStream (State.sound n now) := by
  intro bs s
  unfold State.sound
  split <;> rfl

theorem ignoresStream_countdownEnd (now : Time) : IgnoresStream (countdownEnd now) := by
  intro bs s
  unfold countdownEnd
  rw [State.withBs_dev, ignoresStream_sound]
  simp only
  generalize s.sound s.dev.endNumBeeps now = u
  show (if u.dev.countdownContinues then _ else _) = _
  split <;> rfl

theorem ignoresStream_tickCountdown (now : Time) : IgnoresStream (tickCountdown now) := by
  intro bs s
  unfold tickCountdown
  rw [ignoresStream_countdownEnd, State.withBs_dev]
  split
  · split <;> rfl
  · rfl

theorem ignoresStream_fullRedisplay : IgnoresStream State.fullRedisplay := by
  intro bs s
  rw [fullRedisplay_eq, fullRedisplay_eq s, State.fullRedisplay_out, State.fullRedisplay_out]
  rfl

theorem ignoresStream_endSchedule : IgnoresStream State.endSchedule := by
  intro bs s
  cases hc : s.dev.countdown with
  | true =>
    rw [endSchedule_of_countdown hc, endSchedule_of_countdown (s := s.withBs bs) hc]
    rfl
  | false =>
    rw [endSchedule_of_no_countdown hc, endSchedule_of_no_countdown (s := s.withBs bs) hc,
      ← ignoresStream_fullRedisplay]
    rfl

theorem ignoresStream_toggleTone (now : Time) (vol : Volume) : IgnoresStream (toggleTone now vol) := by
  intro bs s
  unfold toggleTone
  rw [State.withBs_bz, State.withBs_out]
  split <;> split <;> rfl

theorem ignoresStream_tickBuzzer (now : Time) (vol : Volume) : IgnoresStream (tickBuzzer now vol) := by
  intro bs s
  unfold tickBuzzer
  rw [ignoresStream_endSchedule, ignoresStream_toggleTone, State.withBs_bz]
  split
  · split <;> rfl
  · rfl

theorem ignoresStream_flushDisplay : IgnoresStream flushDisplay := by
  intro bs s
  unfold flushDisplay
  rw [show (s.withBs bs).flushDue = s.flushDue from rfl]
  split <;> rfl

end Sys2Proof.Machine
end

section
/-! Proofs of the statements of 20_memory.md, third part: every operation keeps two states alike that differ only in
bytes at or above `size`. -/

namespace Sys2Proof.Machine

/-! ## States that differ only in stale bytes -/

/-- The same state over another array. -/
def State.withMem (m : Memory) (s : State) : State := s.withBs (s.bs.withMem m)

/-- Two states with arrays in canonical form that differ only in bytes at or above `size`. -/
def State.StaleTwins (s t : State) : Prop := ∃ m, Memory.AgreeBelow s.bs.size s.bs.mem m ∧ t = s.withMem m

theorem State.staleTwins_iff {s t : State} :
    s.StaleTwins t ↔ s.bs.mem.wf = true ∧ t.bs.mem.wf = true ∧ Claims.SameButStale s t := by
  constructor
  · rintro ⟨m, hm, rfl⟩
    exact ⟨hm.wf, hm.wf', ByteStream.bytes_withMem hm, rfl⟩
  · rintro ⟨hwf, hwf', hbytes, ht⟩
    have hread : (s.bs.withMem t.bs.mem).bytes = s.bs.bytes := (congrArg (·.bs.bytes) ht).symm.trans hbytes
    exact ⟨t.bs.mem, ⟨hwf, hwf', fun p hp => List.map_inj_left.mp hread p (List.mem_range.mpr hp)⟩, ht⟩

namespace State.StaleTwins

variable {s t : State}

/-- Work that goes on over another array, writes no byte and makes no further byte valid keeps states alike. -/
theorem map {f : State → State} (h : s.StaleTwins t) (hcomm : ∀ m s, f (s.withMem m) = (f s).withMem m)
    (hmem : ∀ s, (f s).bs.mem = s.bs.mem) (hsize : ∀ s, (f s).bs.size ≤ s.bs.size) : (f s).StaleTwins (f t) := by
  obtain ⟨m, hm, rfl⟩ := h
  refine ⟨m, ?_, hcomm m s⟩
  rw [hmem]
  exact hm.mono (hsize s)

theorem map_ignoring {f : State → State} (h : s.StaleTwins t) (hf : IgnoresStream f) : (f s).StaleTwins (f t) := by
  refine h.map (fun m u => ?_) (fun u => ?_) (fun u => ?_)
  · rw [withMem, hf, withMem, hf.bs_eq]
  · rw [hf.bs_eq]
  · rw [hf.bs_eq]

theorem emit (h : s.StaleTwins t) (e : Event) : (s.emit e).StaleTwins (t.emit e) := h.map_ignoring fun _ _ => rfl

theorem setResult (h : s.StaleTwins t) (r : Result) : (s.setResult r).StaleTwins (t.setResult r) :=
  h.map_ignoring fun _ _ => rfl

theorem withExpected (h : s.StaleTwins t) (ex : Option Byte) :
    ({ s with expected := ex } : State).StaleTwins { t with expected := ex } :=
  h.map_ignoring (f := fun u => { u with expected := ex }) fun _ _ => rfl

/-! ### What two such states read -/

theorem peek (h : s.StaleTwins t) (off : Nat) : t.bs.peek off = s.bs.peek off := by
  obtain ⟨m, hm, rfl⟩ := h
  exact ByteStream.peek_withMem hm off

theorem startsWithMagic (h : s.StaleTwins t) : t.bs.startsWithMagic = s.bs.startsWithMagic := by
  obtain ⟨m, hm, rfl⟩ := h
  exact ByteStream.startsWithMagic_withMem hm

theorem headerDue (h : s.StaleTwins t) : t.headerDue = s.headerDue := by
  obtain ⟨m, -, rfl⟩ := h
  rfl

theorem frameComplete (h : s.StaleTwins t) : t.frameComplete = s.frameComplete := by
  obtain ⟨m, -, rfl⟩ := h
  rfl

/-- The sum of the bytes from the reader on (R173). -/
theorem payloadSum (h : s.StaleTwins t) :
    t.bs.payloadSum (t.bs.size - t.bs.ri) = s.bs.payloadSum (s.bs.size - s.bs.ri) := by
  obtain ⟨m, hm, rfl⟩ := h
  exact ByteStream.payloadSum_withMem hm _

theorem consume (h : s.StaleTwins t) :
    t.bs.consume.1 = s.bs.consume.1 ∧ (s.withBs s.bs.consume.2).StaleTwins (t.withBs t.bs.consume.2) := by
  obtain ⟨m, hm, rfl⟩ := h
  have hread : (s.withMem m).bs.consume = (s.bs.consume.1, s.bs.consume.2.withMem m) := ByteStream.consume_withMem hm
  rw [hread]
  refine ⟨rfl, m, ?_, rfl⟩
  rw [withBs_bs, ByteStream.consume_eq]
  exact hm

theorem readWord (h : s.StaleTwins t) (w n : Nat) :
    (t.readWord w n).1 = (s.readWord w n).1 ∧ (s.readWord w n).2.StaleTwins (t.readWord w n).2 := by
  obtain ⟨m, hm, rfl⟩ := h
  have hread : (s.withMem m).bs.consumeBE n 0 = ((s.bs.consumeBE n 0).1, (s.bs.consumeBE n 0).2.withMem m) :=
    ByteStream.consumeBE_withMem hm n 0
  refine ⟨?_, m, ?_, ?_⟩
  · simp only [State.readWord, ByteStream.readWord, hread]
  · rw [readWord_snd]
    exact hm
  · simp only [State.readWord, ByteStream.readWord, hread]
    rfl

theorem readInto (h : s.StaleTwins t) (w n : Nat) (mk : BitVec w → Result) :
    (s.readInto w n mk).StaleTwins (t.readInto w n mk) := by
  obtain ⟨hword, hrest⟩ := h.readWord w n
  unfold State.readInto
  rw [hword]
  exact hrest.setResult _

/-! ### The ByteStream primitives -/

theorem setReader (h : s.StaleTwins t) (i : Int) : (s.setReader i).StaleTwins (t.setReader i) :=
  h.map (fun _ _ => rfl) (fun _ => rfl) (fun _ => le_rfl)

theorem setWriter (h : s.StaleTwins t) (i : Int) : (s.setWriter i).StaleTwins (t.setWriter i) :=
  h.map (fun _ _ => rfl) (fun _ => rfl) (fun _ => le_rfl)

theorem clear (h : s.StaleTwins t) : s.clear.StaleTwins t.clear :=
  h.map (fun _ _ => rfl) (fun _ => rfl) (fun _ => Nat.zero_le _)

theorem dispose (h : s.StaleTwins t) : (dispose s).StaleTwins (dispose t) := h.clear.withExpected none

/-- Shrinking the buffer cuts both states at the same size, growing it makes no byte valid (R131). -/
theorem resize (h : s.StaleTwins t) (n : Int) : (s.resize n).StaleTwins (t.resize n) := by
  refine h.map (fun m u => ?_) (fun u => ?_) (fun u => ?_) <;> unfold State.resize
  · split <;> rfl
  · split <;> rfl
  · split
    · exact Nat.min_le_left u.bs.size n.toNat
    · exact le_rfl

theorem compact (h : s.StaleTwins t) : s.compact.StaleTwins t.compact := by
  obtain ⟨m, hm, rfl⟩ := h
  exact ⟨_, hm.copyDown s.bs.ri, rfl⟩

/-- An append makes the bytes up to the writer valid, and writes or fills each of them the same in both arrays
(R112, U4). -/
theorem append (h : s.StaleTwins t) (b : Byte) : (s.append b).StaleTwins (t.append b) := by
  by_cases hroom : s.bs.wi < s.bs.capacity
  · obtain ⟨m, hm, rfl⟩ := h
    have hgap := hm.fillFree s.io.freeNext (s.bs.wi - s.bs.size)
    have hstored := (hgap.write (a := s.bs.wi) (by omega) b).mono (k := max s.bs.size (s.bs.wi + 1)) (by omega)
    refine ⟨(m.fillFree s.io.freeNext s.bs.size (s.bs.wi - s.bs.size)).write s.bs.wi b, ?_, ?_⟩
    · rw [State.append_size hroom]
      simp only [State.append, hroom, if_true]
      exact hstored
    · have hroom' : (s.withMem m).bs.wi < (s.withMem m).bs.capacity := hroom
      simp only [State.append, hroom, hroom', if_true]
      rfl
  · have hfull : ¬ t.bs.wi < t.bs.capacity := by
      obtain ⟨m, -, rfl⟩ := h
      exact hroom
    rw [append_full hroom, append_full hfull]
    exact h.emit .bufferOverflow

theorem appendAll (h : s.StaleTwins t) (bytes : List Byte) : (s.appendAll bytes).StaleTwins (t.appendAll bytes) := by
  induction bytes generalizing s t with
  | nil => exact h
  | cons b bytes ih => exact ih (h.append b)

/-! ### The ingestion pipeline -/

theorem syncStage (h : s.StaleTwins t) : (syncStage s).StaleTwins (syncStage t) := by
  unfold Machine.syncStage
  rw [h.headerDue, h.startsWithMagic, h.peek 4]
  split
  · split
    · exact (h.withExpected _).emit .headerLock
    · exact (h.setReader 1).compact.emit .framingNoise
  · exact h

theorem decodeStage (h : s.StaleTwins t) :
    (decodeStage t).1 = (decodeStage s).1 ∧ (decodeStage s).2.StaleTwins (decodeStage t).2 := by
  obtain ⟨hcw, h⟩ := h.readWord 32 4
  obtain ⟨htime, h⟩ := h.readWord 32 4
  obtain ⟨hstart, h⟩ := h.readWord 32 4
  obtain ⟨hend, h⟩ := h.readWord 32 4
  refine ⟨?_, h⟩
  simp only [Machine.decodeStage]
  rw [hcw, htime, hstart, hend]

theorem readChecksum (h : s.StaleTwins t) :
    (readChecksum t).1 = (readChecksum s).1 ∧ (readChecksum s).2.StaleTwins (readChecksum t).2 :=
  (h.setReader _).readWord 32 4

theorem applyStage (h : s.StaleTwins t) (c : Command) (now : Time) :
    (applyStage c now s).StaleTwins (applyStage c now t) := h.map_ignoring (ignoresStream_applyStage c now)

/-- Both frames pass the checksum or both fail it, and both carry the same Command. -/
theorem validateStage (h : s.StaleTwins t) (now : Time) :
    (validateStage now s).StaleTwins (validateStage now t) := by
  obtain ⟨hck, hread⟩ := h.readChecksum
  obtain ⟨hcommand, hdecoded⟩ := (hread.emit .frameOk).decodeStage
  unfold Machine.validateStage
  simp only
  rw [hck, hread.payloadSum, hcommand]
  split
  · exact (hdecoded.applyStage _ now).dispose
  · exact (hread.emit .checksumFail).dispose

theorem completionStage (h : s.StaleTwins t) (now : Time) :
    (completionStage now s).StaleTwins (completionStage now t) := by
  unfold Machine.completionStage
  rw [h.frameComplete]
  split
  · exact h.validateStage now
  · exact h

theorem receive (h : s.StaleTwins t) (now : Time) (b : Byte) : (receive now b s).StaleTwins (receive now b t) :=
  (h.append b).syncStage.completionStage now

theorem receiveAll (h : s.StaleTwins t) (now : Time) (bytes : List Byte) :
    (receiveAll now bytes s).StaleTwins (receiveAll now bytes t) := by
  induction bytes generalizing s t with
  | nil => exact h
  | cons b bytes ih => exact ih (h.receive now b)

/-- `RESET` leaves both states with the same empty array. -/
theorem resetAll (h : s.StaleTwins t) : (resetAll s).StaleTwins (resetAll t) := by
  obtain ⟨m, -, rfl⟩ := h
  exact ⟨[], ⟨rfl, rfl, fun _ _ => rfl⟩, rfl⟩

/-- Every operation keeps states alike that differ only in stale bytes. -/
theorem effectOf (i : Instr) (h : s.StaleTwins t) : (effectOf i s).StaleTwins (effectOf i t) := by
  cases i with
  | reset => exact h.resetAll
  | sample mp => exact h.map_ignoring fun _ _ => rfl
  | rx b now =>
    simp only [Machine.effectOf]
    exact h.receive now b
  | frame f now =>
    simp only [Machine.effectOf]
    exact h.receiveAll now f.bytes
  | validate now =>
    simp only [Machine.effectOf]
    exact h.validateStage now
  | tick now vol => exact h.map_ignoring ((ignoresStream_tickBuzzer now vol).comp (ignoresStream_tickCountdown now))
  | flush => exact h.map_ignoring ignoresStream_flushDisplay
  | sync => exact h.syncStage
  | decode =>
    obtain ⟨hcommand, hread⟩ := h.decodeStage
    simp only [Machine.effectOf]
    rw [hcommand]
    exact hread.setResult _
  | apply c now | cmdReject c now | cmdEstop c now | cmdStart c now | cmdStop c now | cmdUpdate c now
  | controlWord cw time sb eb now =>
    simp only [Machine.effectOf]
    exact h.applyStage _ now
  | bsAppend b => exact h.append b
  | bsPeek off =>
    simp only [Machine.effectOf]
    rw [h.peek]
    exact h.setResult _
  | bsConsume =>
    obtain ⟨hbyte, hread⟩ := h.consume
    simp only [Machine.effectOf]
    rw [hbyte]
    exact hread.setResult _
  | bsRdu16 | bsRdu32 | bsRdu64 | bsRdi16 | bsRdi32 | bsRdi64 | bsRdf32 | bsRdf64 =>
    simp only [Machine.effectOf]
    exact h.readInto _ _ _
  | bsWru16 v | bsWru32 v | bsWru64 v | bsWri16 v | bsWri32 v | bsWri64 v | bsWrf32 v | bsWrf64 v =>
    simp only [Machine.effectOf]
    exact h.appendAll _
  | bsResize n => exact (h.resize n.toInt).setResult _
  | bsSetri k => exact h.setReader k.toInt
  | bsSetwi k => exact h.setWriter k.toInt
  | bsClear => exact h.clear
  | bsCompact => exact h.compact

/-- What lets an operation run is the same in both states, and so are its result and events. -/
theorem exec (h : s.StaleTwins t) {i : Instr} {u : State} (he : exec i s = .next u) :
    ∃ v, exec i t = .next v ∧ u.StaleTwins v := by
  obtain ⟨hin, htime, rfl⟩ := exec_eq_next.mp he
  obtain ⟨hin', htime'⟩ : (usesArray i = true → t.bs.insideArray = true) ∧ i.onTime t = true := by
    obtain ⟨m, -, rfl⟩ := h
    exact ⟨hin, htime⟩
  exact ⟨_, exec_eq_next.mpr ⟨hin', htime', rfl⟩, (h.map_ignoring (ignoresStream_start i)).effectOf i⟩

end State.StaleTwins

/-! ## The statements -/

/-- Settles O50: canonical states that differ only in stale bytes are `StaleTwins`, which every operation keeps. -/
theorem staleBytesNeverMatter : Obligations.StaleBytesNeverMatter := by
  intro i s s' t hwf hwf' hsame he
  obtain ⟨t', he', htwins⟩ := (State.staleTwins_iff.mpr ⟨hwf, hwf', hsame⟩).exec he
  obtain ⟨-, -, hsame'⟩ := State.staleTwins_iff.mp htwins
  exact ⟨t', he', hsame'⟩

end Sys2Proof.Machine
end

section
/-! Proofs of the statements of 30_encoding.md, first part: every argument the encoder writes is read back, so the
decoder undoes the encoder. -/

namespace Sys2Proof

/-! ## Arguments written and read back -/

/-- The last argument of an operation, written in bytes that hold it. -/
theorem decodeArg_beBytes {w : Nat} (n : Nat) (mk : BitVec w → Instr) (v : BitVec w) (h : 2 ^ w = 256 ^ n) :
    decodeArg w n mk (beBytes n v.toNat) = .ok (mk v) := by
  have hread := takeWord_beBytes n v [] h
  rw [List.append_nil] at hread
  simp only [decodeArg, hread, finish_nil]

@[simp] theorem takeWord_beBytes_word32 (v : Word32) (rest : List Byte) :
    takeWord 32 4 (beBytes 4 v.toNat ++ rest) = .ok (v, rest) := takeWord_beBytes 4 v rest rfl

@[simp] theorem takeWord_beBytes_time (v : Time) (rest : List Byte) :
    takeWord 64 8 (beBytes 8 v.toNat ++ rest) = .ok (v, rest) := takeWord_beBytes 8 v rest rfl

theorem decodeArg_byte (mk : Byte → Instr) (b : Byte) : decodeArg 8 1 mk [b] = .ok (mk b) := by
  simp only [decodeArg, takeWord8, finish_nil]

/-- Four words and a timestamp are read back, and what they make is the operation (R86, R87). -/
theorem decodePayload_words {mk : Word32 → Word32 → Word32 → Word32 → Time → Except DecodeError Instr}
    {cw t sb eb : Word32} {now : Time} {i : Instr} (hmk : mk cw t sb eb now = .ok i) :
    decodePayload mk (beBytes 4 cw.toNat ++ beBytes 4 t.toNat ++ beBytes 4 sb.toNat ++ beBytes 4 eb.toNat ++
      beBytes 8 now.toNat) = .ok i := by
  have htime := takeWord_beBytes_time now []
  rw [List.append_nil] at htime
  simp only [decodePayload, List.append_assoc, takeWord_beBytes_word32, htime, hmk, finish_nil]

/-- A Command's arguments carry the Command and the timestamp. -/
theorem decodePayload_args {mk : Word32 → Word32 → Word32 → Word32 → Time → Except DecodeError Instr}
    {c : Command} {now : Time} {i : Instr} (hmk : mk c.controlWord c.time c.startBeeps c.endBeeps now = .ok i) :
    decodePayload mk (c.args now) = .ok i := decodePayload_words hmk

theorem decodeApply_args (c : Command) (now : Time) :
    decodePayload (fun cw t sb eb now => .ok (.apply (Command.ofWords cw t sb eb) now)) (c.args now) =
      .ok (.apply c now) :=
  decodePayload_args (by rw [Command.ofWords_controlWord])

/-- A Command with the bits of a class is read back as that class (R88). -/
theorem decodeCommand_args {cls : CmdClass} {c : Command} (now : Time) (h : c.fits cls = true) :
    decodeCommand cls (c.args now) = .ok (cls.instr c now) := by
  refine decodePayload_args ?_
  simp only [Command.ofWords_controlWord, h, if_true]

/-- A frame as long as its length byte says is read back with its timestamp (R81, R85). -/
theorem decodeFrame_bytes {f : Frame} (now : Time) (h : f.lengthOk = true) :
    decodeFrame (f.bytes ++ beBytes 8 now.toNat) = .ok (.frame f now) := by
  have hlen : f.rest.length = f.len.toNat - Config.params.hdrLen := by simpa [Frame.lengthOk] using h
  have hmagic : takeBytes 4 (f.bytes ++ beBytes 8 now.toNat) =
      some (Config.magic, f.len :: (f.rest ++ beBytes 8 now.toNat)) := rfl
  simp only [decodeFrame, hmagic, if_true, ← hlen, takeBytes_append, decodeArg_beBytes 8 _ now rfl]

theorem decodeTick_args (now : Time) (vol : Volume) :
    decodeTick (beBytes 8 now.toNat ++ [vol.code.setWidth 8]) = .ok (.tick now vol) := by
  simp only [decodeTick, takeWord_beBytes_time, volume_ofByte_code, finish_nil]

/-! ## The decoder undoes the encoder -/

theorem decode_encode {i : Instr} (hwf : i.wf = true) : decode (encode i) = .ok i := by
  cases i with
  | reset | flush | sync | decode | bsConsume | bsClear | bsCompact => rfl
  | bsRdu16 | bsRdu32 | bsRdu64 | bsRdi16 | bsRdi32 | bsRdi64 | bsRdf32 | bsRdf64 => rfl
  | sample mp => exact Machine.decode_encode_sample mp
  | tick now vol => exact decodeTick_args now vol
  | rx b now => exact decodeArg_beBytes 8 (.rx b) now rfl
  | validate now => exact decodeArg_beBytes 8 .validate now rfl
  | bsAppend b => exact decodeArg_byte .bsAppend b
  | bsPeek v | bsWru16 v | bsWri16 v => exact decodeArg_beBytes 2 _ v rfl
  | bsWru32 v | bsWri32 v | bsWrf32 v | bsResize v | bsSetri v | bsSetwi v => exact decodeArg_beBytes 4 _ v rfl
  | bsWru64 v | bsWri64 v | bsWrf64 v => exact decodeArg_beBytes 8 _ v rfl
  | apply c now => exact decodeApply_args c now
  | controlWord cw t sb eb now =>
    exact decodePayload_words (mk := fun cw t sb eb now => .ok (.controlWord cw t sb eb now)) rfl
  | frame f now => exact decodeFrame_bytes now hwf
  | cmdReject c now | cmdEstop c now | cmdStart c now | cmdStop c now | cmdUpdate c now =>
    exact decodeCommand_args now hwf

end Sys2Proof
end

section
/-! Proofs of the statements of 30_encoding.md, second part: a control word says no more than its bits 9:0, and a
Command runs the same whichever request carries it. -/

namespace Sys2Proof

/-- Every field of a Command is taken from bits 9:0 of the control word (R86, R93). -/
theorem Command.ofWords_congr {cw cw' : Word32} (h : ∀ i < 10, cw.getLsbD i = cw'.getLsbD i) (t sb eb : Word32) :
    Command.ofWords cw t sb eb = Command.ofWords cw' t sb eb := by
  have hcode : ∀ k, k + 2 ≤ 10 → cw.extractLsb' k 2 = cw'.extractLsb' k 2 := fun k hk =>
    BitVec.eq_of_getLsbD_eq fun i hi => by
      simp only [BitVec.getLsbD_extractLsb', h (k + i) (by omega)]
  simp only [Command.ofWords, h, hcode, Nat.reduceLT, Nat.reduceAdd, Nat.reduceLeDiff]

theorem getLsbD_eq_of_mod_eq {cw cw' : Word32} (h : cw.toNat % 1024 = cw'.toNat % 1024) {i : Nat} (hi : i < 10) :
    cw.getLsbD i = cw'.getLsbD i := by
  have hbit : (cw.toNat % 2 ^ 10).testBit i = (cw'.toNat % 2 ^ 10).testBit i := congrArg (Nat.testBit · i) h
  simpa only [Nat.testBit_mod_two_pow, hi, decide_true, Bool.true_and, BitVec.testBit_toNat] using hbit

/-- What stands above bit 9 beside a control word is not looked at. -/
theorem Command.ofWords_or_shiftLeft (c : Command) (hi : Word32) :
    Command.ofWords (c.controlWord ||| (hi <<< 10)) c.time c.startBeeps c.endBeeps = c := by
  refine Eq.trans (Command.ofWords_congr (fun i hlow => ?_) _ _ _) c.ofWords_controlWord
  simp [BitVec.getLsbD_or, BitVec.getLsbD_shiftLeft, hlow]

end Sys2Proof

namespace Sys2Proof.Machine

/-- The rows `CW` and `APPLY` run one Command alike. -/
theorem exec_controlWord (cw t sb eb : Word32) (now : Time) (s : State) :
    exec (.controlWord cw t sb eb now) s = exec (.apply (Command.ofWords cw t sb eb) now) s := rfl

/-- The five class rows ask first whether the state gives the class, and otherwise dispatch. -/
theorem exec_class (cls : CmdClass) (c : Command) (now : Time) (s : State) :
    exec (cls.instr c now) s =
      runAt now (fun s => if classify c s.dev = cls then classBody cls c now s else applyStage c now s) s := by
  cases cls <;> rfl

end Sys2Proof.Machine
end

section
/-! Proofs of the statements of 30_encoding.md, third part: a reception is the same work whatever report stands already,
so a frame received at once leaves what its bytes leave one by one. -/

namespace Sys2Proof.Machine

/-! ## Receptions do not read the report

The event labels, the result and the flush pulse are reported and never read (log entry 8). -/

/-- The same state with labels before its trace, and another result and flush pulse. -/
def State.reportedAfter (tr : List Event) (r : Result) (fl : Option Shown) (s : State) : State :=
  { s with io := { s.io with trace := tr ++ s.io.trace, result := r, flushed := fl } }

section
variable (tr : List Event) (r : Result) (fl : Option Shown) (s : State)

theorem reportedAfter_emit (e : Event) :
    (s.reportedAfter tr r fl).emit e = (s.emit e).reportedAfter tr r fl := by
  simp [State.emit, State.reportedAfter]

theorem reportedAfter_append (b : Byte) :
    (s.reportedAfter tr r fl).append b = (s.append b).reportedAfter tr r fl := by
  unfold State.append
  show (if s.bs.wi < s.bs.capacity then _ else _) = _
  split
  · rfl
  · exact reportedAfter_emit tr r fl s _

theorem reportedAfter_readWord (w n : Nat) :
    (s.reportedAfter tr r fl).readWord w n = ((s.readWord w n).1, (s.readWord w n).2.reportedAfter tr r fl) := rfl

theorem reportedAfter_setReader (i : Int) :
    (s.reportedAfter tr r fl).setReader i = (s.setReader i).reportedAfter tr r fl := rfl

theorem reportedAfter_decodeStage :
    decodeStage (s.reportedAfter tr r fl) = ((decodeStage s).1, (decodeStage s).2.reportedAfter tr r fl) := by
  simp only [decodeStage, reportedAfter_readWord]

theorem reportedAfter_readChecksum :
    readChecksum (s.reportedAfter tr r fl) = ((readChecksum s).1, (readChecksum s).2.reportedAfter tr r fl) := by
  simp only [readChecksum, reportedAfter_setReader, reportedAfter_readWord]

theorem reportedAfter_syncStage : syncStage (s.reportedAfter tr r fl) = (syncStage s).reportedAfter tr r fl := by
  unfold syncStage
  show (if s.headerDue then (if s.bs.startsWithMagic then _ else _) else _) = _
  split
  · split
    · exact reportedAfter_emit tr r fl { s with expected := some (s.bs.peek 4) } .headerLock
    · exact reportedAfter_emit tr r fl (s.setReader 1).compact .framingNoise
  · rfl

theorem reportedAfter_sound (n : Word32) (now : Time) :
    (s.reportedAfter tr r fl).sound n now = (s.sound n now).reportedAfter tr r fl := by
  unfold State.sound
  split <;> rfl

theorem reportedAfter_takeEstop (now : Time) :
    (s.reportedAfter tr r fl).takeEstop now = (s.takeEstop now).reportedAfter tr r fl := by
  unfold State.takeEstop State.sound
  split <;> rfl

theorem reportedAfter_updateColour (c : Command) :
    (s.reportedAfter tr r fl).updateColour c = (s.updateColour c).reportedAfter tr r fl := by
  unfold State.updateColour
  show (if c.colour != s.dev.colour then (if c.colour != 3 then _ else _) else _) = _
  split
  · split <;> rfl
  · rfl

theorem reportedAfter_updateDetail (c : Command) :
    (s.reportedAfter tr r fl).updateDetail c = (s.updateDetail c).reportedAfter tr r fl := by
  unfold State.updateDetail
  show (if c.detail != s.dev.detail then (if c.detail != 3 then _ else _) else _) = _
  split
  · split <;> rfl
  · rfl

theorem reportedAfter_updateTime (c : Command) :
    (s.reportedAfter tr r fl).updateTime c = (s.updateTime c).reportedAfter tr r fl := by
  unfold State.updateTime
  show (if clampTime c.time != s.dev.time || c.timeEnabled != s.dev.timeEnabled then _ else _) = _
  split <;> rfl

theorem reportedAfter_updateFields (c : Command) :
    (s.reportedAfter tr r fl).updateFields c = (s.updateFields c).reportedAfter tr r fl := by
  have hmirror : (s.reportedAfter tr r fl).mirrorFields c = (s.mirrorFields c).reportedAfter tr r fl := rfl
  simp only [State.updateFields, hmirror, reportedAfter_updateColour, reportedAfter_updateDetail,
    reportedAfter_updateTime]

theorem reportedAfter_startEdge (now : Time) :
    startEdge now (s.reportedAfter tr r fl) = (startEdge now s).reportedAfter tr r fl :=
  congrArg (fun u : State => u.withDev { u.dev with countdown := true, mode := .counting })
    (reportedAfter_sound tr r fl
      (s.withDev { s.dev with lastTickTime := now, time := preDecrement s.dev.time }).redisplayDigits
      s.dev.startNumBeeps now)

theorem reportedAfter_stopEdge (now : Time) :
    stopEdge now (s.reportedAfter tr r fl) = (stopEdge now s).reportedAfter tr r fl :=
  congrArg (fun u : State => (u.withDev { u.dev with countdown := false }).enterBlank)
    (reportedAfter_sound tr r fl s s.dev.endNumBeeps now)

theorem reportedAfter_applyStage (c : Command) (now : Time) :
    applyStage c now (s.reportedAfter tr r fl) = (applyStage c now s).reportedAfter tr r fl := by
  have hclass : classify c (s.reportedAfter tr r fl).dev = classify c s.dev := rfl
  unfold applyStage
  rw [hclass]
  cases classify c s.dev with
  | reject => exact reportedAfter_emit tr r fl s .semanticReject
  | estop => simp only [classBody, estopBody, reportedAfter_takeEstop, reportedAfter_emit]
  | start => simp only [classBody, startBody, reportedAfter_updateFields, reportedAfter_startEdge, reportedAfter_emit]
  | stop => simp only [classBody, stopBody, reportedAfter_updateFields, reportedAfter_stopEdge, reportedAfter_emit]
  | update => simp only [classBody, updateBody, reportedAfter_updateFields, reportedAfter_emit]

theorem reportedAfter_dispose : dispose (s.reportedAfter tr r fl) = (dispose s).reportedAfter tr r fl := rfl

theorem reportedAfter_validateStage (now : Time) :
    validateStage now (s.reportedAfter tr r fl) = (validateStage now s).reportedAfter tr r fl := by
  unfold validateStage
  rw [reportedAfter_readChecksum]
  generalize readChecksum s = ck
  have hbs : (ck.2.reportedAfter tr r fl).bs = ck.2.bs := rfl
  simp only [hbs, reportedAfter_emit, reportedAfter_decodeStage, reportedAfter_applyStage, reportedAfter_dispose]
  split <;> rfl

theorem reportedAfter_receive (now : Time) (b : Byte) :
    receive now b (s.reportedAfter tr r fl) = (receive now b s).reportedAfter tr r fl := by
  unfold receive completionStage
  rw [reportedAfter_append, reportedAfter_syncStage, reportedAfter_validateStage]
  generalize syncStage (s.append b) = u
  have hcomplete : (u.reportedAfter tr r fl).frameComplete = u.frameComplete := rfl
  rw [hcomplete]
  split <;> rfl

end

/-- `t` is `s` but for what it reports. -/
def State.SameButReport (s t : State) : Prop := ∃ tr r fl, t = s.reportedAfter tr r fl

namespace State.SameButReport

variable {s t u : State}

theorem refl (s : State) : s.SameButReport s := ⟨[], s.io.result, s.io.flushed, rfl⟩

theorem trans (hst : s.SameButReport t) (htu : t.SameButReport u) : s.SameButReport u := by
  obtain ⟨tr, r, fl, rfl⟩ := hst
  obtain ⟨tr', r', fl', rfl⟩ := htu
  exact ⟨tr' ++ tr, r', fl', by simp [reportedAfter]⟩

theorem arch_eq (h : s.SameButReport t) : t.arch = s.arch := by
  obtain ⟨tr, r, fl, rfl⟩ := h
  rfl

/-- What an operation begins without is only reported. -/
theorem begin_self (s : State) : s.begin.SameButReport s :=
  ⟨s.io.trace, s.io.result, s.io.flushed, by simp [reportedAfter, State.begin]⟩

theorem receive (h : s.SameButReport t) (now : Time) (b : Byte) :
    (receive now b s).SameButReport (receive now b t) := by
  obtain ⟨tr, r, fl, rfl⟩ := h
  exact ⟨tr, r, fl, reportedAfter_receive tr r fl s now b⟩

theorem receiveAll (h : s.SameButReport t) (now : Time) (bytes : List Byte) :
    (receiveAll now bytes s).SameButReport (receiveAll now bytes t) := by
  induction bytes generalizing s t with
  | nil => exact h
  | cons b bytes ih => exact ih (h.receive now b)

end State.SameButReport

/-! ## Bytes received one by one -/

theorem receive_clock (now : Time) (b : Byte) (s : State) : (receive now b s).io.clock = s.io.clock := by
  refine receive_rel (R := fun s t => t.io.clock = s.io.clock) (fun _ _ _ hsu hut => hut.trans hsu)
    (fun _ _ hingest => hingest.clock) now (fun c s => ?_) b s
  obtain ⟨-, -, hclock, -⟩ := applyStage_ingest c now s
  exact hclock

theorem State.begin_setClock_self {now : Time} {s : State} (h : s.io.clock = now) :
    s.begin.setClock now = s.begin := by
  subst h
  rfl

theorem exec_rx {b : Byte} {now : Time} {s : State} (hbs : s.bs.Inv) (htime : s.TimeOk now) :
    exec (.rx b now) s = .next (receive now b (s.begin.setClock now)) :=
  runArrayAt_eq_next.mpr ⟨hbs.insideArray, htime, rfl⟩

/-- On a clock that already stands at the timestamp, the `RX` of each byte leaves what `receiveAll` leaves. -/
theorem execAll_rxAll_of_clock_eq {now : Time} (bytes : List Byte) {s : State} (hbs : s.bs.Inv)
    (hclock : s.io.clock = now) :
    ∃ u, execAll (Claims.rxAll now bytes) s = .next u ∧ u.SameButReport (receiveAll now bytes s) := by
  induction bytes generalizing s with
  | nil => exact ⟨s, rfl, .refl s⟩
  | cons b bytes ih =>
    have hfirst : exec (.rx b now) s = .next (receive now b s.begin) := by
      rw [exec_rx hbs (Nat.le_of_eq (congrArg BitVec.toNat hclock)), State.begin_setClock_self hclock]
    have hinv := receive_inv (s := s.begin) now b hbs
    obtain ⟨u, hrun, hsame⟩ := ih hinv ((receive_clock now b s.begin).trans hclock)
    refine ⟨u, ?_, hsame.trans (((State.SameButReport.begin_self s).receive now b).receiveAll now bytes)⟩
    rw [← hrun, Claims.rxAll, List.map_cons, execAll_cons, hfirst]
    rfl

/-- The first `RX` lets the clock reach the timestamp of them all. -/
theorem execAll_rxAll_cons {now : Time} (b : Byte) (bytes : List Byte) {s : State} (hbs : s.bs.Inv)
    (htime : s.TimeOk now) :
    ∃ u, execAll (Claims.rxAll now (b :: bytes)) s = .next u ∧
      u.SameButReport (receiveAll now (b :: bytes) (s.begin.setClock now)) := by
  have hfirst : exec (.rx b now) s = exec (.rx b now) (s.begin.setClock now) := by
    rw [exec_rx hbs htime, exec_rx (now := now) (s := s.begin.setClock now) hbs (Nat.le_refl _)]
    rfl
  obtain ⟨u, hrun, hsame⟩ := execAll_rxAll_of_clock_eq (now := now) (b :: bytes) (s := s.begin.setClock now) hbs rfl
  refine ⟨u, ?_, hsame⟩
  rw [← hrun, Claims.rxAll, List.map_cons, execAll_cons, execAll_cons, hfirst]

theorem exec_frame {f : Frame} {now : Time} {s : State} (hbs : s.bs.Inv) (htime : s.TimeOk now) :
    exec (.frame f now) s = .next (receiveAll now f.bytes (s.begin.setClock now)) :=
  runArrayAt_eq_next.mpr ⟨hbs.insideArray, htime, rfl⟩

end Sys2Proof.Machine
end

section
/-! Proofs of the statements of 30_encoding.md, fourth part: the steps of a pass decode and run its operations. -/

namespace Sys2Proof.Machine

/-- With well-formed operations first in the input list, as many steps run them, in order, and leave what follows. -/
theorem stepN_map_encode (is : List Instr) (hwf : ∀ i ∈ is, i.wf = true) (q : List Request) (ps : List Pass)
    (s : State) : stepN is.length (s.withAsks (is.map encode ++ q) ps) = execAll is (s.withAsks q ps) := by
  induction is generalizing s with
  | nil => rfl
  | cons i is ih =>
    obtain ⟨hi, his⟩ := List.forall_mem_cons.mp hwf
    have hstep : step (s.withAsks ((i :: is).map encode ++ q) ps) = exec i (s.withAsks (is.map encode ++ q) ps) :=
      step_of_decode_ok (State.nextRequest_cons rfl) (decode_encode hi)
    rw [List.length_cons, stepN_succ, hstep, execAll_cons, exec_withAsks, exec_withAsks, Step.withAsks, Step.withAsks,
      Step.bind_assoc, Step.bind_assoc]
    exact congrArg _ (funext (ih his))

theorem Pass.wf_ops (p : Pass) : ∀ i ∈ p.ops, i.wf = true := by
  intro i hi
  simp only [Pass.ops, List.mem_append, List.mem_cons, List.mem_map] at hi
  rcases hi with (rfl | ⟨a, -, rfl⟩) | rfl | rfl | h
  · rfl
  · rfl
  · rfl
  · rfl
  · cases h

theorem Pass.length_ops (p : Pass) : p.ops.length = p.steps := by simp [Pass.ops, Pass.steps]

/-- A step that opens a pass finds what it would find were the pass's operations in the input list. -/
theorem step_openPass {s : State} {p : Pass} {ps : List Pass} (hin : s.io.input = []) (hps : s.io.passes = p :: ps) :
    step s = step (s.withAsks (p.ops.map encode) ps) := by
  unfold step
  rw [State.nextRequest_pass hin hps, State.nextRequest_cons (s := s.withAsks (p.ops.map encode) ps) rfl]
  rfl

theorem stepN_pass {s : State} {p : Pass} {ps : List Pass} (hin : s.io.input = []) (hps : s.io.passes = p :: ps) :
    stepN p.steps s = execAll p.ops (s.withAsks [] ps) := by
  have hrun := stepN_map_encode p.ops p.wf_ops [] ps s
  rw [List.append_nil, p.length_ops] at hrun
  rw [← hrun, Pass.steps, stepN_succ, stepN_succ, step_openPass hin hps]

end Sys2Proof.Machine
end

section
/-! Proofs of the statements of 30_encoding.md: the statements. -/

namespace Sys2Proof.Machine

/-- Settles O3: `decode_encode`, by the operation's constructors. -/
theorem decodeOfEncodeIsIdentity : Obligations.DecodeOfEncodeIsIdentity := fun _ hwf => decode_encode hwf

/-- Settles O4: each word is one literal that the decoder evaluates. -/
theorem specWordsDecode : Obligations.SpecWordsDecode := ⟨rfl, rfl, rfl, rfl, rfl, rfl, rfl⟩

/-- Settles O6: both control words carry one Command. -/
theorem upperControlWordBitsIgnored : Obligations.UpperControlWordBitsIgnored := by
  intro cw cw' t sb eb now s hmod
  have hcommand : Command.ofWords cw t sb eb = Command.ofWords cw' t sb eb :=
    Command.ofWords_congr (fun i hi => getLsbD_eq_of_mod_eq hmod hi) t sb eb
  rw [exec_controlWord, exec_controlWord, hcommand]

/-- Settles O36: the `RX` of each byte and the reception of them all differ in their reports alone, which `State.arch`
leaves out. -/
theorem frameIsItsBytesReceived : Obligations.FrameIsItsBytesReceived := by
  intro f now s hbs htime
  obtain ⟨u, hrun, hsame⟩ := execAll_rxAll_cons 0xA4 ([0x11, 0xE4, 0xD8, f.len] ++ f.rest) hbs htime
  exact ⟨_, u, exec_frame hbs htime, hrun, hsame.arch_eq⟩

/-- Settles O45: where the state gives the class asked for, its body is what `APPLY` dispatches to. -/
theorem classRequestRunsAsDispatched : Obligations.ClassRequestRunsAsDispatched := by
  intro cls c now s
  rw [exec_class, funext (applyStage_of_class cls c now)]
  rfl

/-- Settles O46: the control word carries the Command whatever stands above bit 9, and `APPLY` completes on time. -/
theorem controlWordRunsAsItsCommand : Obligations.ControlWordRunsAsItsCommand := by
  intro c hi now s htime
  rw [exec_controlWord, Command.ofWords_or_shiftLeft]
  exact ⟨_, runAt_eq_next.mpr ⟨htime, rfl⟩, runAt_eq_next.mpr ⟨htime, rfl⟩⟩

/-- Settles O57: `stepN_pass`, on the state whose input list is empty already. -/
theorem stepsRunWholePass : Obligations.StepsRunWholePass := by
  intro s p ps hin hps
  have hasks : s.withAsks [] ps = { s with io := { s.io with passes := ps } } := by rw [State.withAsks, ← hin]
  rw [← hasks]
  exact stepN_pass hin hps

end Sys2Proof.Machine
end

section
/-! Proofs of the statements of 40_bytestream_ops.md, first part: bytes as big-endian numbers, and words taken in two's
complement. -/

namespace Sys2Proof.Machine

open Claims

/-! ## The bytes a wide read takes, and their value (R64, R116) -/

@[simp] theorem length_firstBytes (n : Nat) (l : List Byte) : (firstBytes n l).length = n := by
  simp [firstBytes]

theorem firstBytes_of_length_eq {n : Nat} {l : List Byte} (h : l.length = n) : firstBytes n l = l := by
  subst h
  exact List.take_left

theorem firstBytes_nil (n : Nat) : firstBytes n [] = List.replicate n 0 := by
  simp [firstBytes]

theorem beValue_append_singleton (l : List Byte) (b : Byte) : beValue (l ++ [b]) = beValue l * 256 + b.toNat := by
  simp [beValue]

/-- `n` bytes stand for a number of `n` digits to the base 256. -/
theorem beValue_lt (l : List Byte) : beValue l < 256 ^ l.length := by
  induction l using List.reverseRecOn with
  | nil => simp [beValue]
  | append_singleton l b ih =>
    have hb := b.isLt
    rw [beValue_append_singleton, List.length_append, List.length_singleton, Nat.pow_succ]
    omega

theorem beValue_replicate_zero (n : Nat) : beValue (List.replicate n 0) = 0 := by
  induction n with
  | zero => rfl
  | succ n ih => rw [List.replicate_succ', beValue_append_singleton, ih]; rfl

/-- The decoder's reading of bytes is the fold that `beValue` starts at zero. -/
theorem takeBE_length (l : List Byte) (acc : Nat) :
    takeBE l.length acc l = some (l.foldl (fun v b => v * 256 + b.toNat) acc, []) := by
  induction l generalizing acc with
  | nil => rfl
  | cons b l ih => exact ih (acc * 256 + b.toNat)

/-- The bytes written for a number stand for it, as far as they hold it. -/
theorem beValue_beBytes (n v : Nat) : beValue (beBytes n v) = v % 256 ^ n := by
  have hread := takeBE_length (beBytes n v) 0
  have hwritten := takeBE_beBytes n v 0 []
  rw [List.append_nil, Nat.zero_mul, Nat.zero_add] at hwritten
  rw [length_beBytes, hwritten] at hread
  simp only [Option.some.injEq, Prod.mk.injEq, and_true] at hread
  exact hread.symm

/-- The byte of index `j` of `n` has weight `256 ^ (n - 1 - j)`. -/
theorem toNat_getD_beBytes {n j : Nat} (v : Nat) (hj : j < n) :
    ((beBytes n v).getD j 0).toNat = v / 256 ^ (n - 1 - j) % 256 := by
  induction n generalizing j with
  | zero => omega
  | succ n ih =>
    cases j with
    | zero => simp [beBytes]
    | succ j =>
      have hexp : n + 1 - 1 - (j + 1) = n - 1 - j := by omega
      rw [hexp, ← ih (by omega)]
      rfl

/-- The word of a value just written is the value (R136). -/
theorem ofNat_beValue_beBytes {w n : Nat} (hw : 2 ^ w = 256 ^ n) (v : BitVec w) :
    BitVec.ofNat w (beValue (beBytes n v.toNat)) = v := by
  rw [beValue_beBytes, ← hw, Nat.mod_eq_of_lt v.isLt, BitVec.ofNat_toNat, BitVec.setWidth_eq]

/-- Two's complement in arithmetic: the upper half of the patterns stands for the negative values (G1). -/
theorem toInt_ofNat_of_lt {w v : Nat} (hw : 0 < w) (hv : v < 2 ^ w) :
    (BitVec.ofNat w v).toInt = if v < 2 ^ (w - 1) then (v : Int) else (v : Int) - 2 ^ w := by
  have hpow : 2 ^ w = 2 * 2 ^ (w - 1) := (mul_pow_sub_one hw.ne' 2).symm
  have hhalf : 2 * v < 2 ^ w ↔ v < 2 ^ (w - 1) := by omega
  rw [BitVec.toInt_eq_toNat_cond, BitVec.toNat_ofNat, Nat.mod_eq_of_lt hv, if_congr hhalf rfl rfl]
  norm_cast

end Sys2Proof.Machine
end

section
/-! Proofs of the statements of 40_bytestream_ops.md, second part: what a wide read and a wide write leave, in the terms
the statements use. -/

namespace Sys2Proof.Machine

open Claims

/-! ## Wide reads (R115 to R122) -/

/-- A wide read makes its result of the next bytes, zero-filled, and moves the reader past the valid ones. -/
theorem State.readInto_eq (w n : Nat) (mk : BitVec w → Result) (s : State) :
    s.readInto w n mk = (s.withBs { s.bs with ri := s.bs.ri + min n s.bs.unread.length }).setResult
      (mk (BitVec.ofNat w (beValue (firstBytes n s.bs.unread)))) := by
  unfold State.readInto
  rw [State.readWord_snd]
  simp only [State.readWord, ByteStream.readWord, ByteStream.consumeBE_fst]
  rfl

section
variable {i : Instr} {s : State} {w n : Nat} {mk : BitVec w → Result}
  (hin : s.bs.insideArray = true) (hi : exec i s = runArray (State.readInto w n mk) s)
include hin hi

theorem exec_wideRead : ∃ t, exec i s = .next t ∧
    t.arch = { s.arch with bs := { s.bs with ri := s.bs.ri + min n s.bs.unread.length } } ∧
    t.io.result = mk (BitVec.ofNat w (beValue (firstBytes n s.bs.unread))) ∧ t.io.trace = [] := by
  refine ⟨s.begin.readInto w n mk, ?_, ?_⟩
  · rw [hi]
    exact runArray_eq_next.mpr ⟨hin, rfl⟩
  · rw [State.readInto_eq]
    exact ⟨rfl, rfl, rfl⟩

/-- With nothing unread a wide read takes zero bytes only (R134). -/
theorem exec_wideRead_of_unread_nil (hnil : s.bs.unread = []) : ∃ t, exec i s = .next t ∧ t.io.result = mk 0 := by
  obtain ⟨t, ht, -, hres, -⟩ := exec_wideRead hin hi
  rw [hnil, firstBytes_nil, beValue_replicate_zero] at hres
  exact ⟨t, ht, hres⟩

end

/-- A signed read takes its word in two's complement (R118 to R120). -/
theorem toInt_ofNat_beValue {n : Nat} (hn : 0 < n) (l : List Byte) :
    (BitVec.ofNat (8 * n) (beValue (firstBytes n l))).toInt =
      if beValue (firstBytes n l) < 2 ^ (8 * n - 1) then (beValue (firstBytes n l) : Int)
      else (beValue (firstBytes n l) : Int) - 2 ^ (8 * n) := by
  have hlt := beValue_lt (firstBytes n l)
  rw [length_firstBytes, show 256 ^ n = 2 ^ (8 * n) from (Nat.pow_mul 2 8 n).symm] at hlt
  exact toInt_ofNat_of_lt (by omega) hlt

/-! ## Writes (R112, R123 to R130) -/

/-- The invariant keeps the array in canonical form. -/
theorem ByteStream.Inv.mem_wf {bs : ByteStream} (h : bs.Inv) : bs.mem.wf = true := by
  obtain ⟨-, -, -, -, hm, -⟩ := h
  exact hm

theorem exec_wideWrite {i : Instr} {s : State} {bytes : List Byte} (hinv : s.bs.Inv)
    (hi : exec i s = runArray (State.appendAll bytes) s) : ∃ t, exec i s = .next t ∧ Appended bytes s.begin t := by
  refine ⟨s.begin.appendAll bytes, ?_, State.appendAll_spec bytes s.begin hinv⟩
  rw [hi]
  exact runArray_eq_next.mpr ⟨hinv.insideArray, rfl⟩

/-- The bytes of a signed value are those of its pattern, so a signed write is the unsigned one (R126 to R128). -/
theorem exec_signedWrite {i : Instr} {s : State} {w n : Nat} {v : BitVec w}
    (hi : exec i s = runArray (State.appendAll (beBytes n (signedPattern w v.toInt))) s) :
    exec i s = runArray (State.appendAll (beBytes n v.toNat)) s := by
  rw [hi, signedPattern_toInt]

/-- Bytes that fit at the end of a buffer read to its end are the unread bytes then. -/
theorem Appended.unread_eq {bytes : List Byte} {s t : State} (h : Appended bytes s t) (hwi : s.bs.wi = s.bs.size)
    (hri : s.bs.ri = s.bs.size) (hfit : s.bs.size + bytes.length ≤ s.bs.capacity) : t.bs.unread = bytes := by
  have hall : min bytes.length (s.bs.capacity - s.bs.wi) = bytes.length := by omega
  have hsize : t.bs.size = s.bs.size + bytes.length := by
    rw [h.size, hall, hwi]
    split <;> omega
  have hstored := h.stored
  rw [hall, hwi] at hstored
  refine List.ext_getElem (by rw [ByteStream.length_unread, h.ri, hri, hsize]; omega) fun j hj hj' => ?_
  have hread := hstored j hj'
  rw [List.getD_eq_getElem _ _ hj'] at hread
  simp only [ByteStream.unread, ByteStream.bytes, List.getElem_drop, List.getElem_map, List.getElem_range, h.ri, hri,
    hread]

/-- A word written at the end of a buffer read to its end is read back, and the buffer is read to its end again
(R136). -/
theorem exec_wideWrite_wideRead {wr rd : Instr} {s : State} {w n : Nat} {v : BitVec w} {mk : BitVec w → Result}
    (hinv : s.bs.Inv) (hwi : s.bs.wi = s.bs.size) (hri : s.bs.ri = s.bs.size) (hw : 2 ^ w = 256 ^ n)
    (hwr : exec wr s = runArray (State.appendAll (beBytes n v.toNat)) s)
    (hrd : ∀ t, exec rd t = runArray (State.readInto w n mk) t) (hfit : s.bs.size + n ≤ s.bs.capacity) :
    ∃ t u, exec wr s = .next t ∧ exec rd t = .next u ∧ u.io.result = mk v ∧ u.bs.ri = u.bs.size := by
  obtain ⟨t, ht, h⟩ := exec_wideWrite hinv hwr
  obtain ⟨u, hu, harch, hres, -⟩ := exec_wideRead h.inv.insideArray (hrd t)
  have hunread : t.bs.unread = beBytes n v.toNat := h.unread_eq hwi hri (by rwa [length_beBytes])
  have hlen : t.bs.size - t.bs.ri = n := by rw [← ByteStream.length_unread, hunread, length_beBytes]
  have hle : t.bs.ri ≤ t.bs.size := h.inv.1
  have hbs : u.bs = { t.bs with ri := t.bs.ri + min n t.bs.unread.length } := congrArg State.bs harch
  refine ⟨t, u, ht, hu, ?_, ?_⟩
  · rw [hres, hunread, firstBytes_of_length_eq (length_beBytes n _), ofNat_beValue_beBytes hw]
  · simp only [hbs, ByteStream.length_unread]
    omega

/-! ## Index operands and the capacity (R131 to R133) -/

theorem cast_clampIndex (i : Int) (hi : Nat) : (clampIndex i hi : Int) = min (max i 0) hi := by
  unfold clampIndex
  omega

theorem resizable_iff {n : Int} : resizable n = true ↔ 0 ≤ n ∧ n ≤ 256 := by
  simp only [resizable, Bool.and_eq_true, decide_eq_true_eq]
  rfl

/-! ## After `BS.CLEAR` (R134) -/

theorem State.unread_clear (s : State) : s.clear.bs.unread = [] := rfl

theorem State.insideArray_clear {s : State} (hin : s.bs.insideArray = true) : s.clear.bs.insideArray = true := by
  simp only [ByteStream.insideArray, Bool.and_eq_true, decide_eq_true_eq] at hin ⊢
  exact ⟨hin.1, Nat.zero_le _⟩

end Sys2Proof.Machine
end

section
/-! Proofs of the statements of 40_bytestream_ops.md: the statements. -/

namespace Sys2Proof.Machine

/-- Settles O17, by whether the writer has reached the capacity. -/
theorem appendStoresAtWriter : Obligations.AppendStoresAtWriter := by
  intro b s hinv
  refine ⟨s.begin.append b, runArray_eq_next.mpr ⟨hinv.insideArray, rfl⟩, ⟨?_, ?_, ?_⟩, ?_, ?_, ?_, ?_⟩
  · exact State.append_dev b _
  · exact State.append_bz b _
  · exact State.append_out b _
  · exact State.append_expected b _
  · exact State.append_ri b _
  · exact State.append_capacity b _
  · have hread := State.append_read (b := b) (s := s.begin) hinv.mem_wf
    split
    · next hroom =>
      refine ⟨State.append_wi hroom, State.append_size hroom, ?_, fun p hp hne => ?_, fun p hp => ?_,
        State.append_trace hroom⟩
      · exact (hread hroom _ (.inr le_rfl)).trans (if_pos rfl)
      · exact (hread hroom p (.inl hp)).trans (if_neg hne)
      · exact (hread hroom p (.inr hp.le)).trans (if_neg hp.ne')
    · next hfull =>
      rw [State.append_full (s := s.begin) hfull]
      exact ⟨rfl, rfl⟩

/-- Settles O19: `ByteStream.consume_eq`. -/
theorem consumeReturnsNextByteOrZero : Obligations.ConsumeReturnsNextByteOrZero := by
  intro s hin
  refine ⟨_, runArray_eq_next.mpr ⟨hin, rfl⟩, ?_⟩
  rw [State.begin_bs, ByteStream.consume_eq]
  exact ⟨rfl, rfl, rfl⟩

/-- Settles O20: each accessor is one `State.readInto`. -/
theorem wideReadsAreBigEndian : Obligations.WideReadsAreBigEndian := fun _ hin =>
  ⟨exec_wideRead hin rfl, exec_wideRead hin rfl, exec_wideRead hin rfl, exec_wideRead hin rfl, exec_wideRead hin rfl⟩

/-- Settles O21: the word of a wide read of `n` bytes has `8 * n` bits. -/
theorem signedReadsAreTwosComplement : Obligations.SignedReadsAreTwosComplement := by
  intro s hin reads
  have hreads {i : Instr} {n : Nat} (hn : 0 < n)
      (hi : exec i s = runArray (State.readInto (8 * n) n (fun v => .signed v.toInt)) s) : reads i n := by
    obtain ⟨t, ht, harch, hres, htrace⟩ := exec_wideRead hin hi
    exact ⟨t, ht, harch, htrace, hres.trans (congrArg Result.signed (toInt_ofNat_beValue hn s.bs.unread))⟩
  exact ⟨hreads (by decide) rfl, hreads (by decide) rfl, hreads (by decide) rfl⟩

/-- Settles O22: each write is one `State.appendAll` of big-endian bytes, a signed one of its pattern's. -/
theorem wideWritesAreBigEndian : Obligations.WideWritesAreBigEndian := by
  intro s hinv writes
  have hwrites {i : Instr} {n v : Nat} (hi : exec i s = runArray (State.appendAll (beBytes n v)) s) :
      writes i n v := by
    obtain ⟨t, ht, h⟩ := exec_wideWrite hinv hi
    obtain ⟨hdev, hbz, hout, hexp, hri, hcap, hwi, hsize, hstored, hkept, htrace, -⟩ := h
    rw [length_beBytes] at hwi hsize hstored hkept htrace
    refine ⟨t, ht, ⟨hdev, hbz, hout⟩, hexp, hri, hcap, hwi, hsize, fun j hj => ?_, hkept, htrace⟩
    exact (congrArg BitVec.toNat (hstored j hj)).trans (toNat_getD_beBytes v (by omega))
  exact ⟨fun _ => hwrites rfl, fun _ => hwrites rfl, fun _ => hwrites rfl, fun _ => hwrites rfl,
    fun _ => hwrites rfl, fun _ => hwrites rfl, fun _ => hwrites rfl, fun _ => hwrites rfl⟩

/-- Settles O23: the bytes written are the unread ones, and their word is the value. -/
theorem writeThenReadRoundTrip : Obligations.WriteThenReadRoundTrip := by
  intro s hinv hwi hri back
  have hback {wr rd : Instr} {w n : Nat} {v : BitVec w} {mk : BitVec w → Result} (hw : 2 ^ w = 256 ^ n)
      (hwr : exec wr s = runArray (State.appendAll (beBytes n v.toNat)) s)
      (hrd : ∀ t, exec rd t = runArray (State.readInto w n mk) t) : back wr rd n (mk v) :=
    exec_wideWrite_wideRead hinv hwi hri hw hwr hrd
  have h16 : 2 ^ 16 = 256 ^ 2 := by norm_num
  have h32 : 2 ^ 32 = 256 ^ 4 := by norm_num
  have h64 : 2 ^ 64 = 256 ^ 8 := by norm_num
  refine ⟨fun _ => hback h16 rfl fun _ => rfl, fun _ => hback h32 rfl fun _ => rfl,
    fun _ => hback h64 rfl fun _ => rfl, fun v => ?_, fun v => ?_, fun v => ?_,
    fun _ => hback h32 rfl fun _ => rfl, fun _ => hback h64 rfl fun _ => rfl⟩
  · exact hback (mk := fun v => .signed v.toInt) h16 (exec_signedWrite rfl) fun _ => rfl
  · exact hback (mk := fun v => .signed v.toInt) h32 (exec_signedWrite rfl) fun _ => rfl
  · exact hback (mk := fun v => .signed v.toInt) h64 (exec_signedWrite rfl) fun _ => rfl

/-- Settles O28: the copy puts the unread bytes in front (`State.compact_bytes`) and writes below the new size only. -/
theorem compactKeepsUnreadBytes : Obligations.CompactKeepsUnreadBytes := by
  intro s hinv
  refine ⟨s.begin.compact, runArray_eq_next.mpr ⟨hinv.insideArray, rfl⟩, rfl, ?_, rfl, rfl, rfl, fun p hp => ?_, rfl⟩
  · exact State.compact_bytes hinv.mem_wf
  · have hout : ¬ (0 ≤ p ∧ p < 0 + (s.bs.size - s.bs.ri)) := by
      have : s.bs.size - s.bs.ri ≤ p := hp
      omega
    exact (Memory.read_copyDown hinv.mem_wf s.bs.ri 0 _ p (Nat.zero_le _)).trans (if_neg hout)

/-- Settles O18: `ByteStream.peek_eq_getD`. -/
theorem peekReturnsUnreadByteOrZero : Obligations.PeekReturnsUnreadByteOrZero := fun off s hin =>
  ⟨_, runArray_eq_next.mpr ⟨hin, rfl⟩, rfl, congrArg Result.byte (ByteStream.peek_eq_getD s.bs off.toNat), rfl⟩

/-- Settles O24, by whether the array can hold the capacity asked for. -/
theorem resizeGrantsOrFailsUnchanged : Obligations.ResizeGrantsOrFailsUnchanged := by
  intro n s
  refine ⟨_, rfl, ?_⟩
  split
  · next hgrant =>
    simp only [State.resize, resizeStatus, resizable_iff.mpr hgrant, if_true]
    exact ⟨rfl, rfl, rfl⟩
  · next hfail =>
    have hno : ¬ resizable n.toInt = true := resizable_iff.not.mpr hfail
    simp only [State.resize, resizeStatus, if_neg hno]
    exact ⟨rfl, rfl, rfl⟩

/-- Settles O25: the clamp of `State.setReader`. -/
theorem setReaderClamps : Obligations.SetReaderClamps := fun i s =>
  ⟨s.begin.setReader i.toInt, rfl, rfl, rfl, cast_clampIndex i.toInt s.bs.size⟩

/-- Settles O26: the clamp of `State.setWriter`. -/
theorem setWriterClamps : Obligations.SetWriterClamps := fun i s =>
  ⟨s.begin.setWriter i.toInt, rfl, rfl, rfl, cast_clampIndex i.toInt s.bs.capacity⟩

/-- Settles O27: after `BS.CLEAR` nothing is unread, so a peek and a consume find no byte and a wide read takes zero
bytes. -/
theorem clearZeroesCountersOnly : Obligations.ClearZeroesCountersOnly := by
  intro s
  refine ⟨s.begin.clear, rfl, rfl, rfl, fun hin off => ?_, fun hin => ?_⟩
  · obtain ⟨u, hu, -, hres, -⟩ := peekReturnsUnreadByteOrZero off s.begin.clear (State.insideArray_clear hin)
    exact ⟨u, hu, hres⟩
  · have hclear : s.begin.clear.bs.insideArray = true := State.insideArray_clear hin
    have hwide {i : Instr} {w n : Nat} {mk : BitVec w → Result}
        (hi : exec i s.begin.clear = runArray (State.readInto w n mk) s.begin.clear) :
        ∃ u, exec i s.begin.clear = .next u ∧ u.io.result = mk 0 :=
      exec_wideRead_of_unread_nil hclear hi (State.unread_clear _)
    have hsigned {i : Instr} {w n : Nat}
        (hi : exec i s.begin.clear = runArray (State.readInto w n (fun v => .signed v.toInt)) s.begin.clear) :
        ∃ u, exec i s.begin.clear = .next u ∧ u.io.result = .signed 0 := by
      obtain ⟨u, hu, hres⟩ := hwide hi
      exact ⟨u, hu, hres.trans (congrArg Result.signed BitVec.toInt_zero)⟩
    obtain ⟨u, hu, -, hres, -⟩ := consumeReturnsNextByteOrZero s.begin.clear hclear
    simp only [List.forall_mem_cons, List.not_mem_nil, false_implies, implies_true, and_true]
    exact ⟨⟨u, hu, hres⟩, hwide rfl, hwide rfl, hwide rfl, hsigned rfl, hsigned rfl, hsigned rfl, hwide rfl,
      hwide rfl⟩

end Sys2Proof.Machine
end

section
/-! Proofs of the statements of 41_frame_sync.md, first part: the stages `DECODE` and `VALIDATE` in terms of the valid
bytes of the buffer. -/

namespace Sys2Proof.Machine

open Claims

/-! ## Words and sums of the unread bytes (R87, R173) -/

theorem drop_min_length {α : Type} (n : Nat) (l : List α) : l.drop (min n l.length) = l.drop n :=
  List.drop_eq_drop_iff.mpr (by omega)

/-- A read of a word takes the next four bytes, zero-filled (R116). -/
theorem State.readWord_fst (s : State) : (s.readWord 32 4).1 = wordAt s.bs.unread 0 := by
  simp only [State.readWord, ByteStream.readWord, ByteStream.consumeBE_fst]
  rfl

theorem unread_readWord (s : State) : (s.readWord 32 4).2.bs.unread = s.bs.unread.drop 4 := by
  rw [State.readWord_snd, State.withBs_bs, ByteStream.unread_move, drop_min_length]

theorem unread_setReader (n : Nat) (s : State) : (s.setReader n).bs.unread = s.bs.bytes.drop n := by
  rw [← drop_min_length, ByteStream.length_bytes]
  rfl

theorem wordAt_drop (l : List Byte) (j k : Nat) : wordAt (l.drop j) k = wordAt l (j + k) := by
  rw [wordAt, List.drop_drop, wordAt]

theorem byteSum_append_singleton (l : List Byte) (b : Byte) : byteSum (l ++ [b]) = byteSum l + b.toNat := by
  simp [byteSum]

/-- The running sum of `VALIDATE` is the sum of the bytes it has gone over, modulo 2^32 (R173). -/
theorem ByteStream.payloadSum_eq (bs : ByteStream) {n : Nat} (hn : n ≤ bs.unread.length) :
    bs.payloadSum n = BitVec.ofNat 32 (byteSum (bs.unread.take n)) := by
  induction n with
  | zero => rfl
  | succ n ih =>
    have hbyte : bs.peek n = bs.unread[n] := by
      rw [ByteStream.peek_eq_getD, List.getD_eq_getElem _ _ hn]
    rw [ByteStream.payloadSum, ih (by omega), hbyte, List.take_succ_eq_append_getElem hn, byteSum_append_singleton,
      BitVec.ofNat_add, BitVec.ofNat_toNat]

theorem ByteStream.payloadSum_unread (bs : ByteStream) :
    bs.payloadSum (bs.size - bs.ri) = BitVec.ofNat 32 (byteSum bs.unread) := by
  rw [← ByteStream.length_unread, ByteStream.payloadSum_eq bs le_rfl, List.take_length]

/-! ## Reads move the reader only -/

/-- `t` is `s` with the reader somewhere else. -/
def State.ReaderMoved (s t : State) : Prop := ∃ ri, t = s.withBs { s.bs with ri := ri }

namespace State.ReaderMoved

variable {s t u : State}

theorem trans (hst : s.ReaderMoved t) (htu : t.ReaderMoved u) : s.ReaderMoved u := by
  obtain ⟨ri, rfl⟩ := hst
  obtain ⟨ri', rfl⟩ := htu
  exact ⟨ri', rfl⟩

theorem emit (h : s.ReaderMoved t) (e : Event) : (s.emit e).ReaderMoved (t.emit e) := by
  obtain ⟨ri, rfl⟩ := h
  exact ⟨ri, rfl⟩

theorem setReader (s : State) (i : Int) : s.ReaderMoved (s.setReader i) := ⟨_, rfl⟩

theorem readWord (s : State) (w n : Nat) : s.ReaderMoved (s.readWord w n).2 := ⟨_, State.readWord_snd w n s⟩

theorem readChecksum (s : State) : s.ReaderMoved (readChecksum s).2 := (setReader s _).trans (readWord _ _ _)

theorem decodeStage (s : State) : s.ReaderMoved (decodeStage s).2 :=
  (((readWord s _ _).trans (readWord _ _ _)).trans (readWord _ _ _)).trans (readWord _ _ _)

/-- The disposal of a frame forgets where the reader stood (R176), -/
theorem dispose_eq (h : s.ReaderMoved t) : dispose t = dispose s := by
  obtain ⟨ri, rfl⟩ := h
  rfl

/-- and `APPLY` does not look there. -/
theorem applyStage (h : s.ReaderMoved t) (c : Command) (now : Time) :
    (applyStage c now s).ReaderMoved (applyStage c now t) := by
  obtain ⟨ri, rfl⟩ := h
  obtain ⟨hbs, -⟩ := applyStage_ingest c now s
  exact ⟨ri, by rw [ignoresStream_applyStage, hbs]⟩

end State.ReaderMoved

/-! ## The stages (R170 to R176, R185) -/

theorem readChecksum_fst (s : State) : (readChecksum s).1 = wordAt s.bs.bytes 5 := by
  rw [readChecksum, State.readWord_fst, unread_setReader, wordAt_drop]
  rfl

theorem unread_readChecksum (s : State) : (readChecksum s).2.bs.unread = s.bs.bytes.drop 9 := by
  rw [readChecksum, unread_readWord, unread_setReader, List.drop_drop]
  rfl

/-- `DECODE` makes its Command of the next four words (R185, R186). -/
theorem decodeStage_fst (s : State) : (decodeStage s).1 =
    Command.ofWords (wordAt s.bs.unread 0) (wordAt s.bs.unread 4) (wordAt s.bs.unread 8) (wordAt s.bs.unread 12) := by
  simp only [decodeStage, State.readWord_fst, unread_readWord, wordAt_drop, List.drop_drop, Nat.reduceAdd]

/-- What `VALIDATE` does with the bytes in the buffer: the Command of a frame whose checksum holds is applied, and the
frame is disposed of either way (R174 to R176). -/
theorem validateStage_eq (now : Time) (s : State) : validateStage now s =
    if ChecksumOk s.bs.bytes then dispose (applyStage (frameCommand s.bs.bytes) now (s.emit .frameOk))
    else (dispose s).emit .checksumFail := by
  have hsum : (readChecksum s).2.bs.payloadSum ((readChecksum s).2.bs.size - (readChecksum s).2.bs.ri) =
      BitVec.ofNat 32 (byteSum (s.bs.bytes.drop 9)) := by
    rw [ByteStream.payloadSum_unread, unread_readChecksum]
  have hread := State.ReaderMoved.readChecksum s
  unfold validateStage
  simp only [readChecksum_fst, hsum]
  split
  · have hcommand : (decodeStage ((readChecksum s).2.emit .frameOk)).1 = frameCommand s.bs.bytes := by
      rw [decodeStage_fst, State.emit_bs, unread_readChecksum]
      simp only [wordAt_drop, frameCommand]
    have hdecode := (hread.emit .frameOk).trans (State.ReaderMoved.decodeStage _)
    rw [hcommand]
    exact (hdecode.applyStage _ now).dispose_eq
  · exact (hread.emit .checksumFail).dispose_eq

/-- A frame of at most five bytes has a checksum that holds: no byte of it is summed, and the field reads as zero
(R190). -/
theorem checksumOk_of_length_le {frame : List Byte} (h : frame.length ≤ 5) : ChecksumOk frame := by
  have hfield : frame.drop 5 = [] := List.drop_of_length_le h
  have hpayload : frame.drop 9 = [] := List.drop_of_length_le (by omega)
  rw [ChecksumOk, wordAt, hfield, hpayload]
  rfl

end Sys2Proof.Machine
end

section
/-! Proofs of the statements of 41_frame_sync.md, second part: what `SYNC` and `RX` do, case by case. -/

namespace Sys2Proof.Machine

open Claims

/-! ## Nothing but the ingest side differs -/

/-- `t` is `s` but for the ByteStream, `expected` and the event labels. -/
def State.SameButIngest (s t : State) : Prop :=
  t = { s with bs := t.bs, expected := t.expected, io := { s.io with trace := t.io.trace } }

namespace State.SameButIngest

variable {s t u : State}

theorem refl (s : State) : s.SameButIngest s := rfl

theorem trans (hst : s.SameButIngest t) (htu : t.SameButIngest u) : s.SameButIngest u := by
  unfold SameButIngest at hst htu
  rw [hst] at htu
  exact htu

theorem sameDevice (h : s.SameButIngest t) : s.SameDevice t := by
  unfold SameButIngest at h
  rw [h]
  exact ⟨rfl, rfl, rfl⟩

theorem append (b : Byte) (hwi : s.bs.wi = s.bs.size) : s.SameButIngest (s.append b) := by
  by_cases hroom : s.bs.wi < s.bs.capacity
  · rw [State.append_noGap hroom hwi.le]
    rfl
  · rw [State.append_full hroom]
    rfl

theorem syncStage (s : State) : s.SameButIngest (syncStage s) := by
  unfold Machine.syncStage
  split
  · split <;> rfl
  · exact refl s

theorem exists_reframe (h : s.SameButIngest t) : ∃ base : State,
    s = base.reframe s.bs s.expected s.io.trace ∧ t = base.reframe t.bs t.expected t.io.trace :=
  ⟨{ s with io := { s.io with trace := [] } }, by simp [reframe], Eq.trans h (by simp [reframe])⟩

/-- `APPLY` does the same to the device of both, and labels both alike. -/
theorem applyStage (h : s.SameButIngest t) (c : Command) (now : Time) :
    (applyStage c now s).SameDevice (applyStage c now t) ∧
      ∃ tr, (applyStage c now s).io.trace = s.io.trace ++ tr ∧
        (applyStage c now t).io.trace = t.io.trace ++ tr := by
  obtain ⟨base, hs, ht⟩ := h.exists_reframe
  have hs' := (congrArg (Machine.applyStage c now) hs).trans (applyStage_reframe ..)
  have ht' := (congrArg (Machine.applyStage c now) ht).trans (applyStage_reframe ..)
  rw [hs', ht']
  exact ⟨⟨rfl, rfl, rfl⟩, _, rfl, rfl⟩

end State.SameButIngest

/-! ## The header check (R152 to R154) -/

/-- The oldest byte is dropped (R154). -/
def State.dropOldest (s : State) : State := ((s.setReader 1).compact).emit .framingNoise

/-- The length byte is recorded (R153). -/
def State.lock (len : Byte) (s : State) : State := ({ s with expected := some len } : State).emit .headerLock

theorem ByteStream.startsWithMagic_iff {bs : ByteStream} (h : 4 ≤ bs.unread.length) :
    bs.startsWithMagic = true ↔ bs.unread.take 4 = Config.magic := by
  simp only [ByteStream.startsWithMagic, beq_iff_eq, ByteStream.peek_eq_getD]
  match hunread : bs.unread with
  | a :: b :: c :: d :: rest => rfl
  | [] | [_] | [_, _] | [_, _, _] => simp [hunread] at h

theorem ByteStream.unread_of_ri_eq_zero {bs : ByteStream} (h : bs.ri = 0) : bs.unread = bs.bytes := by
  rw [ByteStream.unread, h, List.drop_zero]

section
variable {s : State} (hhunt : s.expected = none) (hsize : s.bs.size = 5) (hri : s.bs.ri = 0)
include hsize hri

theorem startsWithMagic_iff_of_fiveBytes : s.bs.startsWithMagic = true ↔ s.bs.bytes.take 4 = Config.magic := by
  have hunread := ByteStream.unread_of_ri_eq_zero hri
  rw [ByteStream.startsWithMagic_iff (by rw [hunread, ByteStream.length_bytes]; omega), hunread]

include hhunt

theorem syncStage_of_magic (h : s.bs.bytes.take 4 = Config.magic) : syncStage s = s.lock (s.bs.mem.read 4) := by
  have hlen : s.bs.peek 4 = s.bs.mem.read 4 := by
    rw [ByteStream.peek, hri, ByteStream.readAt, if_pos (by omega)]
  rw [syncStage, if_pos (headerDue_iff.mpr ⟨hhunt, hsize⟩),
    if_pos ((startsWithMagic_iff_of_fiveBytes hsize hri).mpr h), hlen]
  rfl

theorem syncStage_of_noise (h : s.bs.bytes.take 4 ≠ Config.magic) : syncStage s = s.dropOldest := by
  rw [syncStage, if_pos (headerDue_iff.mpr ⟨hhunt, hsize⟩),
    if_neg (mt (startsWithMagic_iff_of_fiveBytes hsize hri).mp h)]
  rfl

end

theorem dropOldest_bytes {s : State} (hm : s.bs.mem.wf = true) : s.dropOldest.bs.bytes = s.bs.bytes.tail := by
  rw [State.dropOldest, State.emit_bs, State.compact_bytes (by exact hm), ← List.drop_one]
  exact unread_setReader 1 s

/-- The cursors after the oldest of some bytes is dropped. -/
theorem dropOldest_bs {s : State} (hsize : 1 ≤ s.bs.size) : s.dropOldest.bs =
    { s.bs with mem := s.dropOldest.bs.mem, size := s.bs.size - 1, ri := 0, wi := s.bs.size - 1 } := by
  have hri : (s.setReader 1).bs.ri = 1 := by simp [State.setReader, clampIndex, hsize]
  simp only [State.dropOldest, State.compact, State.emit_bs, State.withBs_bs, hri]
  rfl

/-- Only addresses below the new size are written (R135). -/
theorem dropOldest_read {s : State} (hm : s.bs.mem.wf = true) (hsize : 1 ≤ s.bs.size) {p : Nat}
    (hp : s.bs.size - 1 ≤ p) : s.dropOldest.bs.mem.read p = s.bs.mem.read p := by
  have hri : (s.setReader 1).bs.ri = 1 := by simp [State.setReader, clampIndex, hsize]
  refine (Memory.read_copyDown hm _ 0 _ p (Nat.zero_le _)).trans (if_neg ?_)
  show ¬ (0 ≤ p ∧ p < 0 + (s.bs.size - (s.setReader 1).bs.ri))
  omega

end Sys2Proof.Machine
end

section
/-! Proofs of the statements of 41_frame_sync.md, third part: the cases of an `RX`, each an equation. -/

namespace Sys2Proof.Machine

open Claims

/-! ## The completion check (R155) -/

theorem frameComplete_iff {s : State} :
    s.frameComplete = true ↔ ∃ l, s.expected = some l ∧ s.bs.size = l.toNat := by
  unfold State.frameComplete
  cases s.expected <;> simp

theorem completionStage_of_open {s : State} (now : Time) (h : ∀ l, s.expected = some l → s.bs.size ≠ l.toNat) :
    completionStage now s = s := by
  rw [completionStage, if_neg]
  rw [frameComplete_iff]
  exact fun ⟨l, hl, hsize⟩ => h l hl hsize

theorem completionStage_of_complete {s : State} {l : Byte} (now : Time) (hl : s.expected = some l)
    (hsize : s.bs.size = l.toNat) : completionStage now s = validateStage now s :=
  if_pos (frameComplete_iff.mpr ⟨l, hl, hsize⟩)

/-- `VALIDATE` ends with an empty buffer (R176) and writes no byte. -/
theorem validateStage_ingest (now : Time) (s : State) : (validateStage now s).expected = none ∧
    (validateStage now s).bs = { s.bs with size := 0, ri := 0, wi := 0 } := by
  rw [validateStage_eq]
  split
  · obtain ⟨hbs, -⟩ := applyStage_ingest (frameCommand s.bs.bytes) now (s.emit .frameOk)
    refine ⟨rfl, ?_⟩
    rw [dispose, State.clear, State.withBs_bs, hbs]
    rfl
  · exact ⟨rfl, rfl⟩

theorem completionStage_mem (now : Time) (s : State) : (completionStage now s).bs.mem = s.bs.mem := by
  unfold completionStage
  split
  · obtain ⟨-, hbs⟩ := validateStage_ingest now s
    rw [hbs]
  · rfl

/-! ## The append of an `RX` (R151) -/

section
variable {b : Byte} {s : State} (hport : s.PortInv)
include hport

theorem State.PortInv.wi_eq : s.bs.wi = s.bs.size := by
  obtain ⟨-, hwi, -⟩ := hport
  exact hwi

theorem State.PortInv.capacity_eq : s.bs.capacity = 256 := by
  obtain ⟨-, -, hcap, -⟩ := hport
  exact hcap

theorem State.PortInv.ri_eq : s.bs.ri = 0 := by
  obtain ⟨hri, -⟩ := hport
  exact hri

theorem State.PortInv.room (hsize : s.bs.size < 256) : s.bs.wi < s.bs.capacity := by
  rw [hport.wi_eq, hport.capacity_eq]
  exact hsize

theorem State.PortInv.append_size (hsize : s.bs.size < 256) : (s.append b).bs.size = s.bs.size + 1 := by
  have hwi := hport.wi_eq
  rw [State.append_size (hport.room hsize)]
  omega

theorem State.PortInv.append_bytes (hbs : s.bs.Inv) (hsize : s.bs.size < 256) :
    (s.append b).bs.bytes = s.bs.bytes ++ [b] :=
  State.append_bytes hbs.mem_wf (hport.room hsize) hport.wi_eq

theorem State.PortInv.append_read (hbs : s.bs.Inv) (hsize : s.bs.size < 256) (p : Nat) :
    (s.append b).bs.mem.read p = if p = s.bs.size then b else s.bs.mem.read p := by
  have hwi := hport.wi_eq
  rw [State.append_read hbs.mem_wf (hport.room hsize) p (by omega), hwi]

theorem State.PortInv.append_read_of_ne (hbs : s.bs.Inv) (hsize : s.bs.size < 256) {p : Nat} (hp : p ≠ s.bs.size) :
    (s.append b).bs.mem.read p = s.bs.mem.read p :=
  (hport.append_read hbs hsize p).trans (if_neg hp)

/-- A byte that completes no header and no frame is appended only (R151). -/
theorem receive_of_gathered (now : Time) (hhunt : s.expected = none → s.bs.size < 4)
    (hopen : ∀ l, s.expected = some l → s.bs.size + 1 ≠ l.toNat) : receive now b s = s.append b := by
  by_cases hsize : s.bs.size < 256
  · have happend := hport.append_size (b := b) hsize
    rw [receive, syncStage_of_not_due, completionStage_of_open]
    · rw [State.append_expected, happend]
      exact hopen
    · rintro ⟨hnone, hfive⟩
      have := hhunt (by rwa [State.append_expected] at hnone)
      omega
  · have hfull : ¬ s.bs.wi < s.bs.capacity := by rwa [hport.wi_eq, hport.capacity_eq]
    obtain ⟨-, -, hclosed⟩ := State.portInv_iff.mp hport
    rw [receive, State.append_full hfull, syncStage_of_not_due, completionStage_of_open]
    · intro l hl hcomplete
      exact Bool.false_ne_true (hclosed.symm.trans (frameComplete_iff.mpr ⟨l, hl, hcomplete⟩))
    · rintro ⟨-, hfive⟩
      rw [State.emit_bs] at hfive
      omega

section
variable (hbs : s.bs.Inv) (hhunt : s.expected = none) (hsize : s.bs.size = 4)
include hbs hsize

theorem append_dropOldest_bytes : (s.append b).dropOldest.bs.bytes = s.bs.bytes.tail ++ [b] := by
  have hne : s.bs.bytes ≠ [] := List.ne_nil_of_length_pos (by rw [ByteStream.length_bytes]; omega)
  rw [dropOldest_bytes (State.append_inv hbs).mem_wf, hport.append_bytes hbs (by omega),
    List.tail_append_of_ne_nil hne]

/-- The cursors, and the bytes above the five, after the oldest of five bytes is dropped. -/
theorem append_dropOldest_bs : (s.append b).dropOldest.bs.ri = 0 ∧ (s.append b).dropOldest.bs.wi = 4 ∧
    (s.append b).dropOldest.bs.capacity = s.bs.capacity ∧
    ∀ p, 4 < p → (s.append b).dropOldest.bs.mem.read p = s.bs.mem.read p := by
  have hfive : (s.append b).bs.size = 5 := by rw [hport.append_size (by omega), hsize]
  have hdrop := dropOldest_bs (s := s.append b) (by omega)
  refine ⟨by rw [hdrop], by rw [hdrop, hfive], by rw [hdrop, State.append_capacity], fun p hp => ?_⟩
  rw [dropOldest_read (State.append_inv hbs).mem_wf (by omega) (by omega),
    hport.append_read_of_ne hbs (by omega) (by omega)]

include hhunt

/-- The fifth byte after four that are not the magic drops the oldest (R154). -/
theorem receive_of_noise (now : Time) (hnoise : s.bs.bytes ≠ Config.magic) :
    receive now b s = (s.append b).dropOldest := by
  have hbytes := hport.append_bytes (b := b) hbs (by omega)
  have hhunt' : (s.append b).expected = none := by rwa [State.append_expected]
  rw [receive, syncStage_of_noise hhunt', completionStage_of_open]
  · exact fun l hl => nomatch hhunt'.symm.trans hl
  · rw [hport.append_size (by omega), hsize]
  · rw [State.append_ri, hport.ri_eq]
  · rwa [hbytes, List.take_left' (by rw [ByteStream.length_bytes, hsize])]

/-- The fifth byte after the magic is recorded as the length (R153). -/
theorem syncStage_append_of_magic (hmagic : s.bs.bytes = Config.magic) :
    syncStage (s.append b) = (s.append b).lock b := by
  have hbytes := hport.append_bytes (b := b) hbs (by omega)
  have hlen : (s.append b).bs.mem.read 4 = b := by rw [hport.append_read hbs (by omega), if_pos hsize.symm]
  rw [syncStage_of_magic (by rwa [State.append_expected]), hlen]
  · rw [hport.append_size (by omega), hsize]
  · rw [State.append_ri, hport.ri_eq]
  · rw [hbytes, hmagic]
    rfl

theorem receive_of_magic (now : Time) (hmagic : s.bs.bytes = Config.magic) :
    receive now b s = completionStage now ((s.append b).lock b) := by
  rw [receive, syncStage_append_of_magic hport hbs hhunt hsize hmagic]

/-- A length byte other than 5 leaves the frame open. -/
theorem receive_of_magic_open (now : Time) (hmagic : s.bs.bytes = Config.magic) (hb : b ≠ 5) :
    receive now b s = (s.append b).lock b := by
  rw [receive_of_magic hport hbs hhunt hsize now hmagic]
  refine completionStage_of_open now fun l hl hcomplete => hb ?_
  have hfive : (s.append b).bs.size = 5 := by rw [hport.append_size (by omega), hsize]
  obtain rfl : b = l := Option.some.inj hl
  exact BitVec.eq_of_toNat_eq (hcomplete.symm.trans hfive)

end

end

/-! ## The byte that completes a frame -/

theorem syncStage_append_of_collecting {s : State} {l : Byte} (b : Byte) (hl : s.expected = some l) :
    syncStage (s.append b) = s.append b := by
  refine syncStage_of_not_due fun ⟨hnone, _⟩ => ?_
  rw [State.append_expected, hl] at hnone
  exact Option.some_ne_none l hnone

theorem size_of_bytes_eq_magic {bs : ByteStream} (h : bs.bytes = Config.magic) : bs.size = 4 := by
  rw [← ByteStream.length_bytes, h]
  rfl

/-- The next byte `b` completes a frame of length `l`: it is the last one of a frame collected, or the length byte of
a frame that is a header alone. -/
abbrev State.Completes (l b : Byte) (s : State) : Prop :=
  s.expected = some l ∧ s.bs.size + 1 = l.toNat ∨
    s.expected = none ∧ s.bs.bytes = Config.magic ∧ l = 5 ∧ b = 5

section
variable {l b : Byte} {s : State} (hport : s.PortInv) (hbs : s.bs.Inv) (h : s.Completes l b)

include h in
theorem State.Completes.size : s.bs.size + 1 = l.toNat := by
  rcases h with ⟨-, hsize⟩ | ⟨-, hmagic, rfl, -⟩
  · exact hsize
  · rw [size_of_bytes_eq_magic hmagic]
    rfl

include h in
theorem State.Completes.size_lt : s.bs.size < 256 := by
  have hsize := h.size
  have hl := l.isLt
  omega

include h in
/-- A frame whose checksum fails has more than a header, so that nothing was locked on in the same `RX`. -/
theorem syncStage_append_of_badChecksum (hbad : ¬ ChecksumOk (s.bs.bytes ++ [b])) :
    syncStage (s.append b) = s.append b := by
  rcases h with ⟨hl, -⟩ | ⟨-, hmagic, -⟩
  · exact syncStage_append_of_collecting b hl
  · exact absurd (checksumOk_of_length_le (by rw [hmagic]; rfl)) hbad

include hport hbs h

/-- Before the completion check the header is locked, and the buffer holds the frame. -/
theorem syncStage_append_of_completes :
    (syncStage (s.append b)).expected = some l ∧ (syncStage (s.append b)).bs = (s.append b).bs := by
  rcases h with ⟨hl, -⟩ | ⟨hhunt, hmagic, rfl, rfl⟩
  · rw [syncStage_append_of_collecting b hl]
    exact ⟨(State.append_expected b s).trans hl, rfl⟩
  · rw [syncStage_append_of_magic hport hbs hhunt (size_of_bytes_eq_magic hmagic) hmagic]
    exact ⟨rfl, rfl⟩

/-- The frame is validated at once (R155), -/
theorem receive_eq_validateStage (now : Time) : receive now b s = validateStage now (syncStage (s.append b)) := by
  obtain ⟨hl, hsync⟩ := syncStage_append_of_completes hport hbs h
  exact completionStage_of_complete now hl (by rw [hsync, hport.append_size h.size_lt, h.size])

/-- its Command is applied when the checksum holds, and it is disposed of either way (R174 to R176); -/
theorem receive_of_completes (now : Time) : receive now b s =
    if ChecksumOk (s.bs.bytes ++ [b]) then
      dispose (applyStage (frameCommand (s.bs.bytes ++ [b])) now ((syncStage (s.append b)).emit .frameOk))
    else (dispose (syncStage (s.append b))).emit .checksumFail := by
  obtain ⟨-, hsync⟩ := syncStage_append_of_completes hport hbs h
  rw [receive_eq_validateStage hport hbs h, validateStage_eq, hsync, hport.append_bytes hbs h.size_lt]

/-- then the buffer is empty, and the last byte is the only one written. -/
theorem receive_ingest_of_completes (now : Time) : (receive now b s).expected = none ∧
    (receive now b s).bs = { (s.append b).bs with size := 0, ri := 0, wi := 0 } := by
  obtain ⟨-, hsync⟩ := syncStage_append_of_completes hport hbs h
  rw [receive_eq_validateStage hport hbs h, ← hsync]
  exact validateStage_ingest now _

/-- A good frame has its Command applied as an `APPLY` in any state with the same device would (R174). -/
theorem receive_good_frame {base : State} (hbase : base.SameButIngest s) (now : Time)
    (hgood : ChecksumOk (s.bs.bytes ++ [b])) :
    (applyStage (frameCommand (s.bs.bytes ++ [b])) now base).SameDevice (receive now b s) ∧
      (base.io.trace = [] →
        [.frameOk] ++ (applyStage (frameCommand (s.bs.bytes ++ [b])) now base).io.trace <:+
          (receive now b s).io.trace) := by
  have hsame : base.SameButIngest ((syncStage (s.append b)).emit .frameOk) :=
    ((hbase.trans (.append b hport.wi_eq)).trans (.syncStage _)).trans rfl
  obtain ⟨hdevice, tr, htrace, htrace'⟩ := hsame.applyStage (frameCommand (s.bs.bytes ++ [b])) now
  rw [receive_of_completes hport hbs h, if_pos hgood]
  refine ⟨hdevice, fun hempty => ⟨(syncStage (s.append b)).io.trace, ?_⟩⟩
  rw [htrace, hempty, List.nil_append, ← List.append_assoc]
  exact htrace'.symm

/-- A bad frame is labelled and changes nothing of the device (R175). -/
theorem receive_bad_frame (now : Time) (hbad : ¬ ChecksumOk (s.bs.bytes ++ [b])) :
    s.SameDevice (receive now b s) ∧ (receive now b s).io.trace = s.io.trace ++ [.checksumFail] := by
  rw [receive_of_completes hport hbs h, if_neg hbad, syncStage_append_of_badChecksum h hbad]
  exact ⟨(State.SameButIngest.append b hport.wi_eq).sameDevice,
    congrArg (· ++ [Event.checksumFail]) (State.append_trace (hport.room h.size_lt))⟩

end

end Sys2Proof.Machine
end

section
/-! Proofs of the statements of 41_frame_sync.md, fourth part: bytes received one after the other, from noise to the
end of a frame (R157). -/

namespace Sys2Proof.Machine

open Claims

/-! ## Streams without the magic -/

/-- The magic can only be completed by its last byte. -/
theorem noMagic_append_singleton {l : List Byte} {b : Byte} (h : NoMagic l) (hb : b ≠ 0xD8) : NoMagic (l ++ [b]) := by
  intro hmagic
  rcases List.infix_concat_iff.mp hmagic with hsuffix | hinfix
  · rcases List.suffix_concat_iff.mp hsuffix with hnil | ⟨front, hfront, -⟩
    · exact absurd hnil (by decide)
    · have hlast := congrArg List.getLast? hfront
      rw [List.getLast?_concat] at hlast
      exact hb (Option.some.inj hlast).symm
  · exact h hinfix

/-- The last four bytes of a stream without the magic are not the magic. -/
theorem rtake_ne_magic {l : List Byte} (h : NoMagic l) : l.rtake 4 ≠ Config.magic := fun hmagic =>
  h (hmagic ▸ (List.drop_suffix _ l).isInfix)

/-- Before its last byte the magic that ends a stream is not complete, and no other is. -/
theorem noMagic_dropLast_append_magic {noise : List Byte} (h : NoMagic noise) :
    NoMagic (noise ++ Config.magic).dropLast := by
  have hstart : NoMagic (noise ++ [0xA4] ++ [0x11] ++ [0xE4]) :=
    noMagic_append_singleton (noMagic_append_singleton (noMagic_append_singleton h (by decide)) (by decide)) (by decide)
  rw [List.dropLast_append_of_ne_nil (by decide)]
  simpa [Config.magic] using hstart

/-! ## What the receiver has taken in -/

/-- After bytes received from `base` on: the device is as it was, and the buffer holds `bytes`. -/
structure State.Received (base : State) (expected : Option Byte) (bytes : List Byte) (s : State) : Prop where
  inv : s.bs.Inv
  port : s.PortInv
  same : base.SameButIngest s
  expected_eq : s.expected = expected
  bytes_eq : s.bs.bytes = bytes

namespace State.Received

variable {base s : State} {expected : Option Byte} {bytes : List Byte} {now : Time} {b : Byte}

theorem size_eq (h : base.Received expected bytes s) : s.bs.size = bytes.length := by
  rw [← h.bytes_eq, ByteStream.length_bytes]

theorem gather (h : base.Received expected bytes s) (hhunt : expected = none → bytes.length < 4)
    (hopen : ∀ l, expected = some l → bytes.length + 1 ≠ l.toNat) (hroom : bytes.length < 256) :
    base.Received expected (bytes ++ [b]) (receive now b s) := by
  have hinv := receive_inv now b h.inv
  have hport := receive_portInv (now := now) (b := b) h.inv.mem_wf h.port
  have hsize := h.size_eq
  have hstep : receive now b s = s.append b :=
    receive_of_gathered h.port now (by rwa [h.expected_eq, hsize]) (by rwa [h.expected_eq, hsize])
  rw [hstep] at hinv hport ⊢
  exact ⟨hinv, hport, h.same.trans (.append b h.port.wi_eq), by rw [append_expected, h.expected_eq],
    by rw [h.port.append_bytes h.inv (by omega), h.bytes_eq]⟩

theorem drop (h : base.Received none bytes s) (hlen : bytes.length = 4) (hnoise : bytes ≠ Config.magic) :
    base.Received none (bytes.tail ++ [b]) (receive now b s) := by
  have hinv := receive_inv now b h.inv
  have hport := receive_portInv (now := now) (b := b) h.inv.mem_wf h.port
  have hsize := h.size_eq
  have hstep : receive now b s = (s.append b).dropOldest :=
    receive_of_noise h.port h.inv h.expected_eq (by omega) now (by rwa [h.bytes_eq])
  rw [hstep] at hinv hport ⊢
  refine ⟨hinv, hport, (h.same.trans (.append b h.port.wi_eq)).trans rfl, ?_, ?_⟩
  · exact (append_expected b s).trans h.expected_eq
  · rw [append_dropOldest_bytes h.port h.inv (hsize.trans hlen), h.bytes_eq]

theorem lock (h : base.Received none Config.magic s) (hb : b ≠ 5) :
    base.Received (some b) (Config.magic ++ [b]) (receive now b s) := by
  have hinv := receive_inv now b h.inv
  have hport := receive_portInv (now := now) (b := b) h.inv.mem_wf h.port
  have hsize : s.bs.size = 4 := h.size_eq
  have hstep : receive now b s = (s.append b).lock b :=
    receive_of_magic_open h.port h.inv h.expected_eq hsize now h.bytes_eq hb
  rw [hstep] at hinv hport ⊢
  exact ⟨hinv, hport, (h.same.trans (.append b h.port.wi_eq)).trans rfl, rfl,
    (h.port.append_bytes h.inv (by omega)).trans (congrArg (· ++ [b]) h.bytes_eq)⟩

/-- The last byte of a good frame has the frame's Command applied (R155, R174), and the receiver waits again. -/
theorem complete {l : Byte} (h : base.Received expected bytes s) (hlast : s.Completes l b)
    (hgood : ChecksumOk (bytes ++ [b])) :
    (applyStage (frameCommand (bytes ++ [b])) now base).SameDevice (receive now b s) ∧ Waiting (receive now b s) := by
  obtain ⟨hexpected, hbs⟩ := receive_ingest_of_completes h.port h.inv hlast now
  rw [← h.bytes_eq] at hgood ⊢
  obtain ⟨hdevice, -⟩ := receive_good_frame h.port h.inv hlast h.same now hgood
  exact ⟨hdevice, hexpected, congrArg ByteStream.size hbs⟩

end State.Received

/-- What two states that differ in their reports have in common. -/
theorem State.SameButReport.fields_eq {s t : State} (h : s.SameButReport t) :
    t.dev = s.dev ∧ t.bz = s.bz ∧ t.out = s.out ∧ t.bs = s.bs ∧ t.expected = s.expected := by
  obtain ⟨tr, r, fl, rfl⟩ := h
  exact ⟨rfl, rfl, rfl, rfl, rfl⟩

/-- The `RX` of some bytes leaves what `receiveAll` leaves, but for the report. -/
theorem execAll_rxAll {now : Time} {s : State} (bytes : List Byte) (hne : bytes ≠ []) (hbs : s.bs.Inv)
    (htime : s.TimeOk now) : ∃ u, execAll (rxAll now bytes) s = .next u ∧
      u.SameButReport (receiveAll now bytes (s.begin.setClock now)) := by
  obtain ⟨b, rest, rfl⟩ := List.exists_cons_of_ne_nil hne
  exact execAll_rxAll_cons b rest hbs htime

theorem receiveAll_append (now : Time) (l l' : List Byte) (s : State) :
    receiveAll now (l ++ l') s = receiveAll now l' (receiveAll now l s) := List.foldl_append

theorem receiveAll_concat (now : Time) (l : List Byte) (b : Byte) (s : State) :
    receiveAll now (l ++ [b]) s = receive now b (receiveAll now l s) := receiveAll_append now l [b] s

/-- While no header is matched the buffer holds the last four bytes of the stream. -/
theorem received_stream {base s : State} (h : base.Received none [] s) (now : Time) (stream : List Byte)
    (hnone : NoMagic stream.dropLast) : base.Received none (stream.rtake 4) (receiveAll now stream s) := by
  induction stream using List.reverseRecOn with
  | nil => exact h
  | append_singleton stream b ih =>
    rw [List.dropLast_concat] at hnone
    have hbefore : NoMagic stream.dropLast := fun hmagic => hnone (hmagic.trans stream.dropLast_prefix.isInfix)
    have hlast := ih hbefore
    rw [receiveAll_concat, List.rtake_concat_succ]
    have hlength : (stream.rtake 4).length = min 4 stream.length := by rw [List.rtake, List.length_drop]; omega
    by_cases hshort : stream.length < 4
    · have hall : stream.rtake 3 = stream.rtake 4 := by rw [List.rtake, List.rtake]; congr 1; omega
      rw [hall]
      exact hlast.gather (fun _ => by omega) nofun (by omega)
    · have htail : stream.rtake 3 = (stream.rtake 4).tail := by
        rw [List.rtake, List.rtake, List.tail_drop]
        congr 1
        omega
      rw [htail]
      exact hlast.drop (by omega) (rtake_ne_magic hnone)

theorem rtake_append_magic (noise : List Byte) : (noise ++ Config.magic).rtake 4 = Config.magic := by
  rw [List.rtake, List.drop_left']
  rw [List.length_append]
  rfl

/-- The bytes of a frame after its header are gathered until the last one. -/
theorem received_payload {base s : State} {l : Byte} {bytes : List Byte} (now : Time) (payload : List Byte)
    (h : base.Received (some l) bytes s) (hlen : bytes.length + payload.length < l.toNat) :
    base.Received (some l) (bytes ++ payload) (receiveAll now payload s) := by
  have hl := l.isLt
  induction payload generalizing s bytes with
  | nil => rwa [List.append_nil]
  | cons b payload ih =>
    rw [List.length_cons] at hlen
    have hfirst : base.Received (some l) (bytes ++ [b]) (receive now b s) :=
      h.gather nofun (fun l' hl' => by obtain rfl := Option.some.inj hl'; omega) (by omega)
    have hrest := ih hfirst (by rw [List.length_append, List.length_singleton]; omega)
    rwa [List.append_assoc, List.singleton_append] at hrest

theorem lengthOk_iff {f : Frame} : f.lengthOk = true ↔ f.rest.length = f.len.toNat - 5 := by
  rw [Frame.lengthOk, beq_iff_eq]
  rfl

/-- After the magic the rest of a good frame is received whole. -/
theorem receiveAll_good_frame {base s : State} {len : Byte} {rest : List Byte} (now : Time)
    (h : base.Received none Config.magic s) (hlength : rest.length = len.toNat - 5) (hlen : 5 ≤ len.toNat)
    (hgood : ChecksumOk (Config.magic ++ len :: rest)) :
    (applyStage (frameCommand (Config.magic ++ len :: rest)) now base).SameDevice (receiveAll now (len :: rest) s) ∧
      Waiting (receiveAll now (len :: rest) s) := by
  rcases List.eq_nil_or_concat' rest with rfl | ⟨payload, b, rfl⟩
  · rw [List.length_nil] at hlength
    have hfive : len = 5 := BitVec.eq_of_toNat_eq (show len.toNat = 5 by omega)
    exact h.complete (.inr ⟨h.expected_eq, h.bytes_eq, hfive, hfive⟩) hgood
  · rw [List.length_append, List.length_singleton] at hlength
    have hlock : base.Received (some len) (Config.magic ++ [len]) (receive now len s) :=
      h.lock fun hfive => by subst hfive; exact absurd hlength (Nat.succ_ne_zero _)
    have hheader : (Config.magic ++ [len]).length = 5 := rfl
    have hgather := received_payload now payload hlock (by omega)
    have hlast : (receiveAll now payload (receive now len s)).Completes len b := by
      refine .inl ⟨hgather.expected_eq, ?_⟩
      rw [hgather.size_eq, List.length_append]
      omega
    have hframe : Config.magic ++ len :: (payload ++ [b]) = Config.magic ++ [len] ++ payload ++ [b] := by simp
    rw [hframe] at hgood ⊢
    rw [← List.cons_append, receiveAll_concat]
    exact hgather.complete hlast hgood

end Sys2Proof.Machine
end

section
/-! Proofs of the statements of 41_frame_sync.md, fifth part: the lock-up of a length byte below 5 (R156). -/

namespace Sys2Proof.Machine

/-! ## Operations that recognise no frame and flush nothing -/

/-- The operation last run validated no frame and flushed nothing. -/
structure State.RecognisesNothing (s : State) : Prop where
  flushed : s.io.flushed = none
  frameOk : .frameOk ∉ s.io.trace
  checksumFail : .checksumFail ∉ s.io.trace

namespace State.RecognisesNothing

variable {s t : State}

theorem start (i : Instr) (s : State) : (s.start i).RecognisesNothing :=
  ⟨start_flushed i s, by simp, by simp⟩

theorem of_eq (h : s.RecognisesNothing) (hflushed : t.io.flushed = s.io.flushed) (htrace : t.io.trace = s.io.trace) :
    t.RecognisesNothing :=
  ⟨hflushed ▸ h.flushed, htrace ▸ h.frameOk, htrace ▸ h.checksumFail⟩

theorem emit {e : Event} (h : s.RecognisesNothing) (hok : e ≠ .frameOk) (hfail : e ≠ .checksumFail) :
    (s.emit e).RecognisesNothing :=
  ⟨h.flushed, by simp [h.frameOk, hok.symm], by simp [h.checksumFail, hfail.symm]⟩

theorem append (h : s.RecognisesNothing) (b : Byte) : (s.append b).RecognisesNothing := by
  by_cases hroom : s.bs.wi < s.bs.capacity
  · exact h.of_eq (ingest_append b s).flushed (State.append_trace hroom)
  · rw [State.append_full hroom]
    exact h.emit nofun nofun

theorem countdownEnd (h : s.RecognisesNothing) (now : Time) : (countdownEnd now s).RecognisesNothing := by
  have hsound : (s.sound s.dev.endNumBeeps now).RecognisesNothing :=
    h.of_eq (State.sound_flushed _ _ s) (State.sound_trace _ _ s)
  unfold Machine.countdownEnd
  simp only
  split <;> refine emit ?_ (by decide) (by decide) <;> exact hsound.of_eq rfl rfl

theorem tickCountdown (h : s.RecognisesNothing) (now : Time) : (tickCountdown now s).RecognisesNothing := by
  rcases tickCountdown_cases now s with hsame | ⟨-, hdec⟩ | hend
  · rwa [hsame]
  · rw [hdec]
    refine emit ?_ (by decide) (by decide)
    exact h.of_eq rfl rfl
  · rw [hend]
    exact h.countdownEnd now

theorem tickBuzzer (h : s.RecognisesNothing) (now : Time) (vol : Volume) :
    (tickBuzzer now vol s).RecognisesNothing := by
  rcases tickBuzzer_cases now vol s with hsame | hend | ⟨tone, htone⟩
  · rwa [hsame]
  · rw [hend]
    have hemit := h.emit (e := .buzzerEnd) nofun nofun
    cases hcountdown : s.dev.countdown with
    | true =>
      rw [endSchedule_of_countdown hcountdown]
      exact hemit.of_eq rfl rfl
    | false =>
      rw [endSchedule_of_no_countdown hcountdown]
      refine hemit.of_eq ?_ ?_ <;> rw [State.fullRedisplay_io] <;> rfl
  · rw [htone]
    exact h.of_eq rfl rfl

end State.RecognisesNothing

/-- While a frame is collected no flush is emitted (R252). -/
theorem flushDisplay_of_collecting {s : State} {l : Byte} (h : s.expected = some l) : flushDisplay s = s := by
  rw [flushDisplay, if_neg]
  simp [State.flushDue, State.collecting, h]

/-! ## The lock-up -/

theorem append_size_le (b : Byte) (s : State) : s.bs.size ≤ (s.append b).bs.size := by
  by_cases hroom : s.bs.wi < s.bs.capacity
  · rw [State.append_size hroom]
    exact le_max_left _ _
  · rw [State.append_full hroom]
    rfl

/-- A length byte below 5 is recorded, between port operations, with at least `n` bytes in the buffer. -/
structure State.LockedUp (l : Byte) (n : Nat) (s : State) : Prop where
  inv : s.bs.Inv
  port : s.PortInv
  expected_eq : s.expected = some l
  short : l.toNat < 5
  size_le : n ≤ s.bs.size

/-- The buffer already holds the header, so no byte completes the frame. -/
theorem State.LockedUp.never_complete {l : Byte} {n : Nat} {s : State} (h : s.LockedUp l n) :
    s.bs.size + 1 ≠ l.toNat := by
  obtain ⟨-, ⟨-, hcollect⟩, -⟩ := State.portInv_iff.mp h.port
  obtain ⟨hfive, -⟩ := hcollect (by rw [h.expected_eq]; exact Option.some_ne_none l)
  have hshort := h.short
  omega

theorem State.LockedUp.receive_eq {l : Byte} {n : Nat} {s : State} (h : s.LockedUp l n) (now : Time) (b : Byte) :
    receive now b s = s.append b := by
  refine receive_of_gathered h.port now (fun hnone => nomatch h.expected_eq.symm.trans hnone) fun l' hl' => ?_
  obtain rfl : l = l' := Option.some.inj (h.expected_eq.symm.trans hl')
  exact h.never_complete

theorem effectOf_of_lockedUp {i : Instr} {l : Byte} {n : Nat} {s : State} (hport : i.isPort = true)
    (hreset : i ≠ .reset) (h : s.LockedUp l n) (hnothing : s.RecognisesNothing) :
    (effectOf i s).expected = some l ∧ n ≤ (effectOf i s).bs.size ∧ (effectOf i s).RecognisesNothing := by
  have hexpected := h.expected_eq
  have hsize := h.size_le
  cases i with
  | reset => exact absurd rfl hreset
  | sample mp => exact ⟨hexpected, hsize, hnothing.of_eq rfl rfl⟩
  | rx b now =>
    simp only [effectOf, h.receive_eq]
    exact ⟨by rwa [State.append_expected], hsize.trans (append_size_le b s), hnothing.append b⟩
  | tick now vol =>
    obtain ⟨hbs, hexp⟩ := tick_sameIngest now vol s
    simp only [effectOf, hbs, hexp]
    exact ⟨hexpected, hsize, (hnothing.tickCountdown now).tickBuzzer now vol⟩
  | flush =>
    simp only [effectOf, flushDisplay_of_collecting hexpected]
    exact ⟨hexpected, hsize, hnothing⟩
  | _ => exact absurd hport Bool.false_ne_true

theorem exec_of_lockedUp {i : Instr} {l : Byte} {n : Nat} {s t : State} (hport : i.isPort = true)
    (hreset : i ≠ .reset) (h : s.LockedUp l n) (he : exec i s = .next t) : t.LockedUp l n ∧ t.RecognisesNothing := by
  obtain ⟨-, -, rfl⟩ := exec_eq_next.mp he
  have hstart : (s.start i).LockedUp l n := by
    obtain ⟨hinv, hportInv, hexpected, hshort, hsize⟩ := h
    exact ⟨by rwa [State.start_bs], hportInv.of_sameIngest ⟨State.start_bs i s, State.start_expected i s⟩,
      by rwa [State.start_expected], hshort, by rwa [State.start_bs]⟩
  obtain ⟨hexpected, hsize, hnothing⟩ := effectOf_of_lockedUp hport hreset hstart (.start i s)
  exact ⟨⟨effectOf_bs_inv i hstart.inv, effectOf_portInv hport hstart.inv.mem_wf hstart.port, hexpected, h.short,
    hsize⟩, hnothing⟩

/-- No sequence of port operations without a `RESET` leads out of the lock-up (R156). -/
theorem execAll_of_lockedUp {l : Byte} {n : Nat} {is : List Instr} {s t : State}
    (hports : ∀ i ∈ is, i.isPort = true ∧ i ≠ .reset) (h : s.LockedUp l n) (hrun : execAll is s = .next t) :
    t.LockedUp l n ∧ (is ≠ [] → t.RecognisesNothing) := by
  induction is generalizing s with
  | nil =>
    obtain rfl : s = t := Host.Outcome.next.inj hrun
    exact ⟨h, fun hne => absurd rfl hne⟩
  | cons i is ih =>
    obtain ⟨⟨hport, hreset⟩, hrest⟩ := List.forall_mem_cons.mp hports
    rw [execAll_cons] at hrun
    cases hstep : exec i s with
    | next u =>
      rw [hstep, Step.bind_next] at hrun
      obtain ⟨hu, hnothing⟩ := exec_of_lockedUp hport hreset h hstep
      obtain ⟨ht, hlast⟩ := ih hrest hu hrun
      refine ⟨ht, fun _ => ?_⟩
      cases is with
      | nil =>
        obtain rfl : u = t := Host.Outcome.next.inj hrun
        exact hnothing
      | cons j is => exact hlast (List.cons_ne_nil j is)
    | fault r => rw [hstep] at hrun; exact nomatch hrun
    | refused r => rw [hstep] at hrun; exact nomatch hrun

end Sys2Proof.Machine
end

section
/-! Proofs of the statements of 41_frame_sync.md: the statements. -/

namespace Sys2Proof.Machine

open Claims

/-- Settles O29, by whether the header check is due and what it finds. -/
theorem syncLocksOrDropsOldestByte : Obligations.SyncLocksOrDropsOldestByte := by
  intro s hinv hri
  refine ⟨syncStage s.begin, runArray_eq_next.mpr ⟨hinv.insideArray, rfl⟩, ?_, ?_⟩
  · exact (State.SameButIngest.syncStage s.begin).sameDevice
  · split
    · next hdue =>
      obtain ⟨hhunt, hsize⟩ := hdue
      split
      · next hmagic =>
        rw [syncStage_of_magic (s := s.begin) hhunt hsize hri hmagic]
        exact ⟨rfl, rfl, rfl⟩
      · next hnoise =>
        have hsome : 1 ≤ s.begin.bs.size := by rw [State.begin_bs, hsize]; decide
        have hbs := dropOldest_bs hsome
        rw [syncStage_of_noise (s := s.begin) hhunt hsize hri hnoise]
        refine ⟨dropOldest_bytes hinv.mem_wf, ?_, ?_, ?_, ?_, fun p hp => ?_, hhunt, rfl⟩
        · rw [hbs, State.begin_bs, hsize]
        · rw [hbs, State.begin_bs, hsize]
        · rw [hbs]
        · rw [hbs, State.begin_bs]
        · exact dropOldest_read (s := s.begin) hinv.mem_wf hsome (by rw [State.begin_bs, hsize]; exact hp)
    · next hidle =>
      rw [syncStage_of_not_due (s := s.begin) hidle]
      exact ⟨⟨rfl, rfl⟩, rfl⟩

/-- Settles O30: the `RX` is its append (`receive_of_gathered`), by whether the buffer is full. -/
theorem rxGathersBytes : Obligations.RxGathersBytes := by
  intro b now s hinv hport htime hhunt hopen
  have hinv' : (s.begin.setClock now).bs.Inv := hinv
  have hport' : (s.begin.setClock now).PortInv := hport
  obtain ⟨hend, -, -⟩ := State.portInv_iff.mp hport'
  obtain ⟨hri, hwi, -, -⟩ := append_atEnd (b := b) hend
  refine ⟨_, exec_rx hinv htime, ?_⟩
  rw [receive_of_gathered hport' now hhunt hopen]
  refine ⟨(State.SameButIngest.append b hport'.wi_eq).sameDevice, State.append_expected b _, hri, hwi,
    State.append_capacity b _, ?_⟩
  split
  · next hroom =>
    have hsize : (s.begin.setClock now).bs.size < 256 := hport.capacity_eq ▸ hroom
    exact ⟨hport'.append_bytes hinv' hsize, fun p hp => hport'.append_read_of_ne hinv' hsize hp.ne',
      State.append_trace (hport'.room hsize)⟩
  · next hfull =>
    rw [← hport.wi_eq] at hfull
    rw [State.append_full (s := s.begin.setClock now) hfull]
    exact ⟨rfl, rfl⟩

/-- Settles O31, by whether the four bytes in the buffer are the magic. -/
theorem rxChecksHeader : Obligations.RxChecksHeader := by
  intro b now s hinv hport htime hhunt hsize
  have hinv' : (s.begin.setClock now).bs.Inv := hinv
  have hport' : (s.begin.setClock now).PortInv := hport
  have hsize' : (s.begin.setClock now).bs.size < 256 := hsize.trans_lt (by decide)
  have happend := (State.SameButIngest.append b hport'.wi_eq).sameDevice
  have htrace := State.append_trace (b := b) (hport'.room hsize')
  refine ⟨_, exec_rx hinv htime, ?_⟩
  split
  · next hmagic =>
    refine ⟨fun p hp => ?_, fun hopen => ?_⟩
    · rw [receive_of_magic hport' hinv' hhunt hsize now hmagic, completionStage_mem]
      exact hport'.append_read_of_ne hinv' hsize' (hsize ▸ hp.ne')
    · rw [receive_of_magic_open hport' hinv' hhunt hsize now hmagic hopen]
      refine ⟨happend, rfl, hport'.append_bytes hinv' hsize', ?_, ?_, State.append_capacity b _, ?_⟩
      · exact (State.append_ri b _).trans hport'.ri_eq
      · exact (State.append_wi (hport'.room hsize')).trans (by rw [hport'.wi_eq]; exact congrArg (· + 1) hsize)
      · exact congrArg (· ++ [Event.headerLock]) htrace
  · next hnoise =>
    obtain ⟨hri, hwi, hcap, hread⟩ := append_dropOldest_bs (b := b) hport' hinv' hsize
    rw [receive_of_noise hport' hinv' hhunt hsize now hnoise]
    exact ⟨hread, happend, (State.append_expected b _).trans hhunt, append_dropOldest_bytes hport' hinv' hsize, hri,
      hwi, hcap, congrArg (· ++ [Event.framingNoise]) htrace⟩

/-- Settles O32: the frame is validated within the `RX` (`receive_of_completes`). -/
theorem rxCompletesFrame : Obligations.RxCompletesFrame := by
  intro b now s l hinv hport htime h
  have hinv' : (s.begin.setClock now).bs.Inv := hinv
  have hport' : (s.begin.setClock now).PortInv := hport
  have hlast : (s.begin.setClock now).Completes l b := h
  obtain ⟨hexpected, hbs⟩ := receive_ingest_of_completes hport' hinv' hlast now
  refine ⟨_, _, exec_rx hinv htime, runAt_eq_next.mpr ⟨htime, rfl⟩, hexpected, ?_, ?_, ?_, ?_, fun p hp => ?_, ?_⟩
  · rw [hbs]; rfl
  · rw [hbs]
  · rw [hbs]
  · rw [hbs]; exact State.append_capacity b _
  · rw [hbs]; exact hport'.append_read_of_ne hinv' hlast.size_lt hp
  · split
    · next hgood =>
      obtain ⟨hdevice, hlabels⟩ := receive_good_frame hport' hinv' hlast (.refl _) now hgood
      exact ⟨hdevice, hlabels rfl⟩
    · next hbad => exact receive_bad_frame hport' hinv' hlast now hbad

/-- Settles O37: after the noise and the magic the buffer holds the magic (`received_stream`), and the rest of the
frame is received whole (`receiveAll_good_frame`). -/
theorem resyncDeliversFrame : Obligations.ResyncDeliversFrame := by
  intro noise f now s hinv hport htime hwait hnoise hlength hlen hgood
  obtain ⟨hbs, -⟩ := hinv
  obtain ⟨hhunt, hempty⟩ := hwait
  have hstart : (s.begin.setClock now).Received none [] (s.begin.setClock now) :=
    ⟨hbs, hport, .refl _, hhunt, List.eq_nil_of_length_eq_zero ((ByteStream.length_bytes _).trans hempty)⟩
  have hstream := received_stream hstart now _ (noMagic_dropLast_append_magic hnoise)
  rw [rtake_append_magic] at hstream
  obtain ⟨hdevice, hwaiting⟩ := receiveAll_good_frame now hstream (lengthOk_iff.mp hlength) hlen hgood
  rw [← receiveAll_append, List.append_assoc, ← Frame.bytes] at hdevice hwaiting
  obtain ⟨t, hrun, hsame⟩ := execAll_rxAll (noise ++ f.bytes) (by simp [Frame.bytes]) hbs htime
  obtain ⟨hdev, hbz, hout, hbs', hexpected⟩ := hsame.fields_eq
  refine ⟨t, _, hrun, runAt_eq_next.mpr ⟨htime, rfl⟩, ?_, ?_⟩
  · rwa [State.SameDevice, hdev, hbz, hout] at hdevice
  · rwa [Waiting, hexpected, hbs'] at hwaiting

/-- Settles O39: the lock-up is kept by every port operation but `RESET`. -/
theorem shortLengthByteLocksUp : Obligations.ShortLengthByteLocksUp := by
  intro l is s t hinv hport hexpected hshort hports hne hrun
  obtain ⟨hlocked, hlast⟩ := execAll_of_lockedUp hports ⟨hinv, hport, hexpected, hshort, le_rfl⟩ hrun
  obtain ⟨hflushed, hok, hfail⟩ := hlast hne
  exact ⟨hlocked.expected_eq, hflushed, hlocked.size_le, hok, hfail⟩

end Sys2Proof.Machine
end

section
/-! Proofs of the statements of 42_frame_validate.md, first part: a flipped payload bit is seen by the checksum (R179). -/

namespace Sys2Proof.Machine

open Claims

/-! ## The checksum field -/

theorem firstBytes_take (n : Nat) (l : List Byte) : firstBytes n (l.take n) = firstBytes n l := by
  have hmissing : n - min n l.length = n - l.length := by omega
  simp only [firstBytes, List.take_append, List.take_take, min_self, List.length_take, hmissing]

/-- A word is read from four bytes: nothing behind them matters. -/
theorem wordAt_congr {l l' : List Byte} {k : Nat} (h : l.take (k + 4) = l'.take (k + 4)) :
    wordAt l k = wordAt l' k := by
  have hbytes (l : List Byte) : firstBytes 4 (l.drop k) = firstBytes 4 ((l.take (k + 4)).drop k) := by
    rw [List.drop_take, Nat.add_sub_cancel_left, firstBytes_take]
  rw [wordAt, wordAt, hbytes l, hbytes l', h]

theorem wordAt_modify {k i : Nat} (l : List Byte) (g : Byte → Byte) (h : k + 4 ≤ i) :
    wordAt (l.modify i g) k = wordAt l k := by
  refine wordAt_congr ?_
  rw [List.take_modify, List.modify_eq_self ((List.length_take_le _ _).trans h)]

/-! ## The sum -/

theorem byteSum_append (l l' : List Byte) : byteSum (l ++ l') = byteSum l + byteSum l' := by
  simp [byteSum]

theorem byteSum_cons (b : Byte) (l : List Byte) : byteSum (b :: l) = b.toNat + byteSum l := by
  simp [byteSum]

/-- One byte changed moves the sum by the change of that byte. -/
theorem byteSum_modify {l : List Byte} {k : Nat} (g : Byte → Byte) (h : k < l.length) :
    byteSum (l.modify k g) + l[k].toNat = byteSum l + (g l[k]).toNat := by
  have hsplit : byteSum l = byteSum (l.take k ++ l[k] :: l.drop (k + 1)) := by
    rw [List.cons_getElem_drop_succ, List.take_append_drop]
  rw [hsplit, List.modify_eq_take_cons_drop h, byteSum_append, byteSum_append, byteSum_cons, byteSum_cons]
  omega

/-- A flipped bit changes the byte. -/
theorem xor_ofNat_two_pow_ne (b : Byte) {j : Nat} (hj : j < 8) : b ^^^ BitVec.ofNat 8 (2 ^ j) ≠ b := by
  intro hsame
  have hpow : 2 ^ j < 2 ^ 8 := Nat.pow_lt_pow_right one_lt_two hj
  have hzero : BitVec.ofNat 8 (2 ^ j) = 0 := (BitVec.xor_right_inj b).mp (hsame.trans BitVec.xor_zero.symm)
  have hval : (BitVec.ofNat 8 (2 ^ j)).toNat = 0 := congrArg BitVec.toNat hzero
  rw [BitVec.toNat_ofNat, Nat.mod_eq_of_lt hpow] at hval
  exact (Nat.two_pow_pos j).ne' hval

/-- A flipped bit changes the sum modulo 2^32: it moves it by less than 256. -/
theorem ofNat_byteSum_flipBit_ne {l : List Byte} {k j : Nat} (hk : k < l.length) (hj : j < 8) :
    BitVec.ofNat 32 (byteSum (flipBit l k j)) ≠ BitVec.ofNat 32 (byteSum l) := by
  intro hsame
  have hsum := byteSum_modify (fun b => b ^^^ BitVec.ofNat 8 (2 ^ j)) hk
  have hflipped : (l[k] ^^^ BitVec.ofNat 8 (2 ^ j)).toNat ≠ l[k].toNat := fun heq =>
    xor_ofNat_two_pow_ne l[k] hj (BitVec.eq_of_toNat_eq heq)
  have hmod : byteSum (flipBit l k j) % 2 ^ 32 = byteSum l % 2 ^ 32 := by
    simpa only [BitVec.toNat_ofNat] using congrArg BitVec.toNat hsame
  have hold := l[k].isLt
  have hnew := (l[k] ^^^ BitVec.ofNat 8 (2 ^ j)).isLt
  rw [flipBit] at hmod
  omega

/-- A payload bit flipped, the field stands as it was and the sum does not (R179). -/
theorem not_checksumOk_flipBit {frame : List Byte} {k j : Nat} (hgood : ChecksumOk frame) (hpayload : 9 ≤ k)
    (hk : k < frame.length) (hj : j < 8) : ¬ ChecksumOk (flipBit frame k j) := by
  intro hbad
  have hfield : wordAt (flipBit frame k j) 5 = wordAt frame 5 := wordAt_modify frame _ hpayload
  have hsummed : (flipBit frame k j).drop 9 = flipBit (frame.drop 9) (k - 9) j :=
    List.drop_modify_of_ge _ _ _ _ hpayload
  have hlength : k - 9 < (frame.drop 9).length := by rw [List.length_drop]; omega
  refine ofNat_byteSum_flipBit_ne hlength hj ?_
  calc BitVec.ofNat 32 (byteSum (flipBit (frame.drop 9) (k - 9) j))
      = wordAt (flipBit frame k j) 5 := by rw [hbad, hsummed]
    _ = BitVec.ofNat 32 (byteSum (frame.drop 9)) := hfield.trans hgood

/-- Byte `k` behind the header is byte `k + 5` of the frame. -/
theorem bytes_flipBit (f : Frame) (k j : Nat) :
    ({ f with rest := flipBit f.rest k j } : Frame).bytes = flipBit f.bytes (k + 5) j := rfl

end Sys2Proof.Machine
end

section
/-! Proofs of the statements of 42_frame_validate.md, second part: a frame with a bad checksum, from its first byte to
its disposal (R175). -/

namespace Sys2Proof.Machine

open Claims

namespace State.Received

variable {base s : State} {expected : Option Byte} {bytes : List Byte} {now : Time} {b : Byte}

theorem start (hbs : s.bs.Inv) (hport : s.PortInv) (hwait : Waiting s) : s.Received none [] s := by
  obtain ⟨hhunt, hempty⟩ := hwait
  exact ⟨hbs, hport, .refl s, hhunt, List.eq_nil_of_length_eq_zero ((ByteStream.length_bytes _).trans hempty)⟩

/-- A byte that is gathered raises no label, -/
theorem gather_trace (h : base.Received expected bytes s) (hhunt : expected = none → bytes.length < 4)
    (hopen : ∀ l, expected = some l → bytes.length + 1 ≠ l.toNat) (hroom : bytes.length < 256) :
    (receive now b s).io.trace = s.io.trace := by
  have hsize := h.size_eq
  rw [receive_of_gathered h.port now (by rwa [h.expected_eq, hsize]) (by rwa [h.expected_eq, hsize])]
  exact append_trace (h.port.room (hsize ▸ hroom))

/-- nor do any number of them before the next check. -/
theorem gather_all (now : Time) (more : List Byte) (h : base.Received expected bytes s)
    (hhunt : expected = none → bytes.length + more.length ≤ 4)
    (hopen : ∀ l, expected = some l → bytes.length + more.length < l.toNat) :
    base.Received expected (bytes ++ more) (receiveAll now more s) ∧
      (receiveAll now more s).io.trace = s.io.trace := by
  have hroom : bytes.length + more.length ≤ 256 := by
    cases hexpected : expected with
    | none => exact (hhunt hexpected).trans (by decide)
    | some l => exact ((hopen l hexpected).trans l.isLt).le
  induction more using List.reverseRecOn with
  | nil => exact ⟨by rwa [List.append_nil], rfl⟩
  | append_singleton more b ih =>
    rw [List.length_append, List.length_singleton] at hhunt hopen hroom
    obtain ⟨hbefore, htrace⟩ := ih (fun hnone => by have := hhunt hnone; omega)
      (fun l hl => by have := hopen l hl; omega) (by omega)
    have hlength : (bytes ++ more).length = bytes.length + more.length := List.length_append
    have hhunt' : expected = none → (bytes ++ more).length < 4 := fun hnone => by have := hhunt hnone; omega
    have hopen' : ∀ l, expected = some l → (bytes ++ more).length + 1 ≠ l.toNat :=
      fun l hl => by have := hopen l hl; omega
    rw [receiveAll_concat, ← List.append_assoc]
    exact ⟨hbefore.gather hhunt' hopen' (by omega), (hbefore.gather_trace hhunt' hopen' (by omega)).trans htrace⟩

theorem lock_trace (h : base.Received none Config.magic s) (hb : b ≠ 5) :
    (receive now b s).io.trace = s.io.trace ++ [.headerLock] := by
  have hsize : s.bs.size = 4 := h.size_eq
  rw [receive_of_magic_open h.port h.inv h.expected_eq hsize now h.bytes_eq hb]
  exact congrArg (· ++ [Event.headerLock]) (append_trace (h.port.room (hsize.trans_lt (by decide))))

/-- The last byte of a frame with a bad checksum leaves the device as it was (R175), and the receiver waits again. -/
theorem complete_of_badChecksum {l : Byte} (h : base.Received expected bytes s) (hlast : s.Completes l b)
    (hbad : ¬ ChecksumOk (bytes ++ [b])) :
    base.SameDevice (receive now b s) ∧ Waiting (receive now b s) ∧
      (receive now b s).io.trace = s.io.trace ++ [.checksumFail] := by
  obtain ⟨hexpected, hbs⟩ := receive_ingest_of_completes h.port h.inv hlast now
  rw [← h.bytes_eq] at hbad
  obtain ⟨⟨hdev, hbz, hout⟩, htrace⟩ := receive_bad_frame h.port h.inv hlast now hbad
  obtain ⟨hdev', hbz', hout'⟩ := h.same.sameDevice
  exact ⟨⟨hdev.trans hdev', hbz.trans hbz', hout.trans hout'⟩, ⟨hexpected, congrArg ByteStream.size hbs⟩, htrace⟩

end State.Received

/-- A whole frame with a bad checksum is locked on, gathered and discarded. -/
theorem receiveAll_badChecksum {base s : State} {f : Frame} (now : Time) (h : base.Received none [] s)
    (hlength : f.lengthOk = true) (hbad : ¬ ChecksumOk f.bytes) :
    base.SameDevice (receiveAll now f.bytes s) ∧ Waiting (receiveAll now f.bytes s) ∧
      (receiveAll now f.bytes s).io.trace = s.io.trace ++ [.headerLock, .checksumFail] := by
  obtain ⟨len, rest⟩ := f
  have hlen : rest.length = len.toNat - 5 := lengthOk_iff.mp hlength
  rcases List.eq_nil_or_concat' rest with rfl | ⟨payload, b, rfl⟩
  · exact absurd (checksumOk_of_length_le le_rfl) hbad
  · rw [List.length_append, List.length_singleton] at hlen
    have hframe : (⟨len, payload ++ [b]⟩ : Frame).bytes = Config.magic ++ [len] ++ payload ++ [b] := by
      simp [Frame.bytes]
    have hfive : len ≠ 5 := fun hfive => by subst hfive; exact absurd hlen (Nat.succ_ne_zero _)
    have hheader : (Config.magic ++ [len]).length = 5 := rfl
    obtain ⟨hmagic, hmagicTrace⟩ := h.gather_all now Config.magic (fun _ => le_rfl) nofun
    have hlock := hmagic.lock (now := now) hfive
    have hlockTrace := hmagic.lock_trace (now := now) hfive
    obtain ⟨hgather, hgatherTrace⟩ := hlock.gather_all now payload nofun
      fun l hl => by obtain rfl := Option.some.inj hl; omega
    have hlast : (receiveAll now payload (receive now len (receiveAll now Config.magic s))).Completes len b := by
      refine .inl ⟨hgather.expected_eq, ?_⟩
      rw [hgather.size_eq, List.length_append]
      omega
    rw [hframe] at hbad ⊢
    obtain ⟨hdevice, hwaiting, htrace⟩ := hgather.complete_of_badChecksum (now := now) hlast hbad
    rw [receiveAll_concat, receiveAll_append, receiveAll_concat]
    refine ⟨hdevice, hwaiting, ?_⟩
    rw [htrace, hgatherTrace, hlockTrace, hmagicTrace, List.append_assoc]
    rfl

end Sys2Proof.Machine
end

section
/-! Proofs of the statements of 42_frame_validate.md: the statements. -/

namespace Sys2Proof.Machine

open Claims

theorem exec_validate {now : Time} {s : State} (hbs : s.bs.Inv) (htime : s.TimeOk now) :
    exec (.validate now) s = .next (validateStage now (s.begin.setClock now)) :=
  runArrayAt_eq_next.mpr ⟨hbs.insideArray, htime, rfl⟩

/-- Settles O33: the checksum decides the branch of `validateStage_eq`. -/
theorem validateDiscardsBadChecksum : Obligations.ValidateDiscardsBadChecksum := by
  intro now s l hinv htime _ _ _ _ hbad
  refine ⟨_, exec_validate hinv htime, ?_⟩
  rw [validateStage_eq, if_neg (by exact hbad)]
  exact ⟨⟨rfl, rfl, rfl⟩, rfl, rfl, rfl⟩

/-- Settles O34: the `APPLY` within the stage finds another label before its own and is otherwise the `APPLY` asked for
by itself (`State.SameButIngest.applyStage`). -/
theorem validateAppliesGoodFrame : Obligations.ValidateAppliesGoodFrame := by
  intro now s l hinv htime _ _ _ _ hgood
  have hsame : (s.begin.setClock now).SameButIngest ((s.begin.setClock now).emit .frameOk) := rfl
  obtain ⟨hdevice, labels, halone, hwithin⟩ := hsame.applyStage (frameCommand s.bs.bytes) now
  obtain ⟨hexpected, hbs⟩ := validateStage_ingest now (s.begin.setClock now)
  have hstage : validateStage now (s.begin.setClock now) =
      dispose (applyStage (frameCommand s.bs.bytes) now ((s.begin.setClock now).emit .frameOk)) := by
    rw [validateStage_eq, if_pos (by exact hgood)]
    rfl
  refine ⟨_, _, exec_validate hinv htime, runAt_eq_next.mpr ⟨htime, rfl⟩, ?_, hexpected, hbs, ?_⟩
  · rw [hstage]
    exact hdevice
  · rw [hstage, halone]
    exact hwithin

/-- Settles O38: the flipped bit spoils the checksum (`not_checksumOk_flipBit`) and leaves the frame as long as it
says, so it is received to its end and discarded (`receiveAll_badChecksum`). -/
theorem payloadBitFlipDiscardsFrame : Obligations.PayloadBitFlipDiscardsFrame := by
  intro f k j now s hinv hport htime hwait hlength hgood hpayload hk hj
  obtain ⟨hbs, -⟩ := hinv
  have hstart : (s.begin.setClock now).Received none [] (s.begin.setClock now) := .start hbs hport hwait
  have hlength' : ({ f with rest := flipBit f.rest k j } : Frame).lengthOk = true := by
    rw [lengthOk_iff] at hlength ⊢
    exact (List.length_modify _ _ _).trans hlength
  have hinside : k + 5 < f.bytes.length := Nat.add_lt_add_right hk 5
  have hbad : ¬ ChecksumOk ({ f with rest := flipBit f.rest k j } : Frame).bytes :=
    not_checksumOk_flipBit hgood (Nat.add_le_add_right hpayload 5) hinside hj
  obtain ⟨hdevice, hwaiting, htrace⟩ := receiveAll_badChecksum now hstart hlength' hbad
  exact ⟨_, exec_frame hbs htime, hdevice, hwaiting, htrace⟩

end Sys2Proof.Machine
end

section
/-! Proofs of the statements of 43_command_decode.md. -/

namespace Sys2Proof.Machine

open Claims

/-! ## The stage `DECODE` (R185, R190) -/

/-- `DECODE` moves the reader past the valid bytes among the sixteen it reads, and nothing else. -/
theorem decodeStage_snd (s : State) :
    (decodeStage s).2 = s.withBs { s.bs with ri := s.bs.ri + min 16 s.bs.unread.length } := by
  simp only [decodeStage, State.readWord_snd, State.withBs, ByteStream.length_unread]
  congr 2
  omega

/-- Settles O35: `decodeStage_fst` and `decodeStage_snd` say what the stage reads and where it leaves the reader. -/
theorem decodeReadsFourWords : Obligations.DecodeReadsFourWords := by
  intro s hin
  refine ⟨(decodeStage s.begin).2.setResult (.command (decodeStage s.begin).1), runArray_eq_next.mpr ⟨hin, rfl⟩, ?_⟩
  rw [decodeStage_fst, decodeStage_snd]
  exact ⟨rfl, rfl, rfl⟩

/-! ## The control word (R86, R187) -/

/-- A flag of the control word, in arithmetic: the bit of weight `2 ^ i` (R86). -/
theorem getLsbD_eq_decide_div {w : Nat} (v : BitVec w) (i : Nat) :
    v.getLsbD i = decide (v.toNat / 2 ^ i % 2 = 1) := by
  rw [← BitVec.testBit_toNat, Nat.testBit_eq_decide_div_mod_eq]

/-- A two-bit code of the control word, in arithmetic: the two bits from weight `2 ^ i` on (R86). -/
theorem toNat_extractLsb'_two {w : Nat} (v : BitVec w) (i : Nat) :
    (v.extractLsb' i 2).toNat = v.toNat / 2 ^ i % 4 := by
  rw [BitVec.extractLsb'_toNat, Nat.shiftRight_eq_div_pow]

/-- Settles O5: each flag is one bit of the word and each code two. -/
theorem controlWordFieldLayout : Obligations.ControlWordFieldLayout := by
  intro cw t sb eb
  refine ⟨?_, toNat_extractLsb'_two cw 1, toNat_extractLsb'_two cw 3, getLsbD_eq_decide_div cw 5,
    getLsbD_eq_decide_div cw 6, getLsbD_eq_decide_div cw 7, getLsbD_eq_decide_div cw 8, getLsbD_eq_decide_div cw 9,
    rfl, rfl, rfl⟩
  rw [← Nat.div_one cw.toNat]
  exact getLsbD_eq_decide_div cw 0

end Sys2Proof.Machine
end

section
/-! Proofs of the statements of 44_command_dispatch.md, first part: the class a Command is given, and what the field
updates leave, in the terms of the statements. -/

namespace Sys2Proof.Machine

open Claims

/-! ## The class of a Command (R88, R201) -/

theorem guardRejects_iff {c : Command} {d : DeviceState} : guardRejects c d = true ↔ Guarded c d := by
  simp [guardRejects]

theorem classify_of_guarded {c : Command} {d : DeviceState} (h : Guarded c d) : classify c d = .reject :=
  if_pos (guardRejects_iff.mpr h)

section
variable {c : Command} {d : DeviceState} (hguard : ¬ Guarded c d)
include hguard

theorem guardRejects_eq_false : guardRejects c d = false :=
  Bool.eq_false_iff.mpr (mt guardRejects_iff.mp hguard)

theorem classify_of_estop (hestop : c.emergencyStop = true) : classify c d = .estop := by
  simp [classify, guardRejects_eq_false hguard, hestop]

theorem classify_of_start (hestop : c.emergencyStop = false) (hidle : d.countdown = false)
    (hactive : c.countdownActive = true) : classify c d = .start := by
  simp [classify, guardRejects_eq_false hguard, hestop, hidle, hactive]

theorem classify_of_stop (hestop : c.emergencyStop = false) (hcounting : d.countdown = true)
    (hactive : c.countdownActive = false) : classify c d = .stop := by
  simp [classify, guardRejects_eq_false hguard, hestop, hcounting, hactive]

theorem classify_of_update (hestop : c.emergencyStop = false) (hsame : c.countdownActive = d.countdown) :
    classify c d = .update := by
  simp [classify, guardRejects_eq_false hguard, hestop, hsame]

theorem classify_ne_reject : classify c d ≠ .reject := by
  cases hestop : c.emergencyStop with
  | true =>
    rw [classify_of_estop hguard hestop]
    nofun
  | false => rcases classify_of_accepted hguard hestop with h | h | h <;> rw [h] <;> nofun

end

theorem exec_apply {c : Command} {now : Time} {s : State} (htime : s.TimeOk now) :
    exec (.apply c now) s = .next (applyStage c now (s.begin.setClock now)) :=
  runAt_eq_next.mpr ⟨htime, rfl⟩

/-- A Command on time runs the body of its class, asked for as `APPLY` or as the class (R88, R200), and touches
nothing of the ingest side. -/
theorem exec_of_class {cls : CmdClass} {c : Command} {now : Time} {s : State} (htime : s.TimeOk now)
    (hclass : classify c s.dev = cls) :
    ∃ t, exec (.apply c now) s = .next t ∧ exec (cls.instr c now) s = .next t ∧ s.SameIngest t ∧
      t = classBody cls c now (s.begin.setClock now) := by
  obtain ⟨hbs, hexpected, -, -⟩ := applyStage_ingest c now (s.begin.setClock now)
  have hbody : applyStage c now (s.begin.setClock now) = classBody cls c now (s.begin.setClock now) := by
    rw [← hclass]
    rfl
  exact ⟨_, exec_apply htime, (classRequestRunsAsDispatched cls c now s).trans (exec_apply htime), ⟨hbs, hexpected⟩,
    hbody⟩

/-! ## Times and digits, in integers (R208, R209, R44) -/

theorem toInt_clampTime (v : Word32) : (clampTime v).toInt = max v.toInt 0 := by
  unfold clampTime
  split
  · next h => rw [max_eq_right h.le]; rfl
  · next h => rw [max_eq_left (Int.not_lt.mp h)]

theorem clampTime_eq_ofInt (v : Word32) : clampTime v = BitVec.ofInt 32 (max v.toInt 0) := by
  rw [← toInt_clampTime, BitVec.ofInt_toInt]

theorem toInt_preDecrement (t : Word32) : (preDecrement t).toInt = max (t.toInt - 1) 0 := by
  unfold preDecrement
  split
  · next h => rw [toInt_sub_one h, max_eq_left (Int.sub_nonneg.mpr h)]
  · next h => rw [max_eq_right (by omega)]; rfl

theorem preDecrement_eq_ofInt (t : Word32) : preDecrement t = BitVec.ofInt 32 (max (t.toInt - 1) 0) := by
  rw [← toInt_preDecrement, BitVec.ofInt_toInt]

/-- The digits of a time that is not negative (R35, R208). -/
theorem digitsOf_eq_shown {d : DeviceState} (h : 0 ≤ d.time.toInt) : digitsOf d = shown d.timeEnabled d.time.toInt := by
  have hmin : min d.time.toInt (Config.params.digitMax : Int) = ((min d.time.toInt.toNat 999 : Nat) : Int) := by
    rw [show (Config.params.digitMax : Int) = 999 from rfl]
    omega
  unfold digitsOf shown
  rw [hmin, BitVec.ofInt_natCast]

/-! ## The schedule (R240) -/

theorem sounded_sound (n : Word32) (now : Time) (s : State) : Sounded n.toInt now s.bz (s.sound n now).bz := by
  unfold Sounded
  rcases State.sound_bz_cases n now s with ⟨hn, hbz⟩ | ⟨hn, hbz⟩
  · rwa [if_pos hn]
  · rwa [if_neg (Int.not_lt.mpr hn)]

/-! ## The field updates (R205 to R208) -/

section
variable (c : Command) (s : State)

theorem updateColour_dev : (s.updateColour c).dev = { s.dev with colour := c.colour } := by
  unfold State.updateColour
  split
  · simp only
    split <;> rfl
  · next h => rw [show c.colour = s.dev.colour by simpa using h]

theorem updateDetail_dev : (s.updateDetail c).dev = { s.dev with detail := c.detail } := by
  unfold State.updateDetail
  split
  · simp only
    split <;> rfl
  · next h => rw [show c.detail = s.dev.detail by simpa using h]

/-- R207: the indicator is issued on a change, code 3 never. -/
theorem updateColour_out : (s.updateColour c).out =
    { s.out with
      ind := if ColourChanges c s.dev then c.colour else s.out.ind
      dirty := s.out.dirty || decide (ColourChanges c s.dev) } := by
  unfold State.updateColour
  split
  · next hchange =>
    dsimp only
    split
    · next hcode =>
      have h : ColourChanges c s.dev := ⟨bne_iff_ne.mp hchange, bne_iff_ne.mp hcode⟩
      rw [if_pos h, decide_eq_true h, Bool.or_true]
      rfl
    · next hcode =>
      have h : ¬ ColourChanges c s.dev := fun h => hcode (bne_iff_ne.mpr h.2)
      rw [if_neg h, decide_eq_false h, Bool.or_false]
      rfl
  · next hsame =>
    have h : ¬ ColourChanges c s.dev := fun h => hsame (bne_iff_ne.mpr h.1)
    rw [if_neg h, decide_eq_false h, Bool.or_false]

/-- R207: the detail is issued on a change, code 3 never. -/
theorem updateDetail_out : (s.updateDetail c).out =
    { s.out with
      det := if DetailChanges c s.dev then c.detail else s.out.det
      dirty := s.out.dirty || decide (DetailChanges c s.dev) } := by
  unfold State.updateDetail
  split
  · next hchange =>
    dsimp only
    split
    · next hcode =>
      have h : DetailChanges c s.dev := ⟨bne_iff_ne.mp hchange, bne_iff_ne.mp hcode⟩
      rw [if_pos h, decide_eq_true h, Bool.or_true]
      rfl
    · next hcode =>
      have h : ¬ DetailChanges c s.dev := fun h => hcode (bne_iff_ne.mpr h.2)
      rw [if_neg h, decide_eq_false h, Bool.or_false]
      rfl
  · next hsame =>
    have h : ¬ DetailChanges c s.dev := fun h => hsame (bne_iff_ne.mpr h.1)
    rw [if_neg h, decide_eq_false h, Bool.or_false]

theorem timeChanges_iff {d : DeviceState} :
    (clampTime c.time != d.time || c.timeEnabled != d.timeEnabled) = true ↔ TimeChanges c d := by
  rw [Bool.or_eq_true, bne_iff_ne, bne_iff_ne, TimeChanges, ← toInt_clampTime, Ne, Ne, Ne, BitVec.toInt_inj]

/-- R208: the digits are issued on a change of the time or of timeEnabled. -/
theorem updateTime_out : (s.updateTime c).out =
    { s.out with
      dig := if TimeChanges c s.dev then shown c.timeEnabled (max c.time.toInt 0) else s.out.dig
      dirty := s.out.dirty || decide (TimeChanges c s.dev) } := by
  unfold State.updateTime
  by_cases hchange : TimeChanges c s.dev
  · rw [if_pos ((timeChanges_iff c).mpr hchange), State.redisplayDigits_out,
      digitsOf_eq_shown (by exact clampTime_nonneg c.time)]
    simp [hchange, toInt_clampTime]
  · rw [if_neg (mt (timeChanges_iff c).mp hchange)]
    simp [hchange]

theorem updateFields_dev_eq : (s.updateFields c).dev = fieldsDev c s.dev := by
  rw [State.updateFields_dev, clampTime_eq_ofInt]
  rfl

theorem updateFields_out : (s.updateFields c).out = fieldsOut c s.dev s.out := by
  rw [State.updateFields, updateTime_out, updateDetail_out, updateColour_out, updateDetail_dev, updateColour_dev,
    fieldsOut, Bool.decide_or (ColourChanges c s.dev), Bool.decide_or (DetailChanges c s.dev), ← Bool.or_assoc,
    ← Bool.or_assoc]
  rfl

theorem updateFields_bz : (s.updateFields c).bz = s.bz := (State.updateFields_ingest c s).2.2.1
theorem updateFields_io : (s.updateFields c).io = s.io := (State.updateFields_ingest c s).2.2.2

end

end Sys2Proof.Machine
end

section
/-! Proofs of the statements of 44_command_dispatch.md, second part: what the body of each class leaves. -/

namespace Sys2Proof.Machine

open Claims

/-! ## The label of a class (R270) -/

/-- The event label a Command of the class leaves (R270). -/
def classLabel : CmdClass → Event
  | .reject => .semanticReject
  | .estop => .cmdEstop
  | .start => .cmdStart
  | .stop => .cmdStop
  | .update => .cmdUpdate

theorem classBody_trace (cls : CmdClass) (c : Command) (now : Time) (s : State) :
    (classBody cls c now s).io.trace = s.io.trace ++ [classLabel cls] := by
  cases cls with
  | reject => rfl
  | estop => simp [classBody, estopBody, classLabel]
  | start => simp [classBody, startBody, startEdge, updateFields_io, classLabel]
  | stop => simp [classBody, stopBody, stopEdge, updateFields_io, classLabel]
  | update => simp [classBody, updateBody, updateFields_io, classLabel]

theorem classLabel_eq_semanticReject {cls : CmdClass} (h : classLabel cls = .semanticReject) : cls = .reject := by
  cases cls with
  | reject => rfl
  | estop | start | stop | update => exact nomatch h

section
variable (c : Command) (now : Time) (s : State)

/-! ## `CMD.START` (R209) -/

theorem startBody_dev_eq : (startBody c now s).dev =
    { fieldsDev c s.dev with
      time := BitVec.ofInt 32 (max (max c.time.toInt 0 - 1) 0), lastTickTime := now, countdown := true,
      mode := .counting } := by
  rw [startBody_dev, State.updateFields_dev, preDecrement_eq_ofInt, toInt_clampTime]
  rfl

theorem startBody_sounded : Sounded c.startBeeps.toInt now s.bz (startBody c now s).bz := by
  rw [← updateFields_bz c s]
  simp only [startBody, startEdge, State.emit_bz, State.withDev_bz, State.withDev_dev, State.updateFields_dev]
  exact sounded_sound c.startBeeps now _

/-- The start shows the pre-decremented time, whatever the field updates showed (R209). -/
theorem startBody_out : (startBody c now s).out =
    { fieldsOut c s.dev s.out with
      dig := shown c.timeEnabled (max (max c.time.toInt 0 - 1) 0), dirty := true } := by
  have hdigits : digitsOf { (s.updateFields c).dev with
      lastTickTime := now, time := preDecrement (s.updateFields c).dev.time } =
        shown c.timeEnabled (max (max c.time.toInt 0 - 1) 0) := by
    rw [digitsOf_eq_shown (preDecrement_nonneg _), toInt_preDecrement, State.updateFields_dev, toInt_clampTime]
  rw [← hdigits, ← updateFields_out]
  simp [startBody, startEdge]

/-! ## `CMD.STOP` (R210) -/

theorem stopBody_dev_eq : (stopBody c now s).dev = { fieldsDev c s.dev with countdown := false, mode := .blank } := by
  rw [stopBody_dev, updateFields_dev_eq]

theorem stopBody_sounded : Sounded c.endBeeps.toInt now s.bz (stopBody c now s).bz := by
  rw [← updateFields_bz c s]
  simp only [stopBody, stopEdge, State.emit_bz, State.enterBlank_bz, State.withDev_bz, State.updateFields_dev]
  exact sounded_sound c.endBeeps now _

/-- Entering Blank overwrites every intent the field updates issued (R212). -/
theorem stopBody_out : (stopBody c now s).out = blankOut s.out := by
  simp [stopBody, stopEdge, updateFields_out, fieldsOut, blankOut]

/-! ## `CMD.ESTOP` (R203) -/

theorem estopBody_out :
    (estopBody now s).out = { ind := 0, det := 0, dig := .blank, tone := .off, dirty := true } := by
  simp [estopBody]

/-- The alert: five beeps of `BEEP_MS`, whatever schedule ran before (R203, R240). -/
theorem estopBody_bz : (estopBody now s).bz.active = true ∧ (estopBody now s).bz.startTime = now ∧
    (now.toNat + 5000 < 2 ^ 64 → (estopBody now s).bz.endTime.toNat = now.toNat + 5000) := by
  have hpulses : Config.params.estopPulses.toInt = 5 := rfl
  rcases State.sound_bz_cases Config.params.estopPulses now
    (((s.withDev { s.dev with countdown := false }).withBz { s.bz with active := false }).setTone .off) with
    ⟨hn, -⟩ | ⟨-, hactive, hstart, -, hend⟩
  · rw [hpulses] at hn
    omega
  · exact ⟨hactive, hstart, hend⟩

end

/-- An emergency stop that the guard lets pass: what its alert starts from (R203). -/
theorem exec_estop {c : Command} {now : Time} {s : State} (htime : s.TimeOk now) (hguard : ¬ Guarded c s.dev)
    (hestop : c.emergencyStop = true) :
    ∃ t, exec (.apply c now) s = .next t ∧ exec (.cmdEstop c now) s = .next t ∧ s.SameIngest t ∧
      t.dev = { s.dev with countdown := false, mode := .blank } ∧
      t.bz.active = true ∧ t.bz.startTime = now ∧
      (now.toNat + 5000 < 2 ^ 64 → t.bz.endTime.toNat = now.toNat + 5000) ∧
      t.out = { ind := 0, det := 0, dig := .blank, tone := .off, dirty := true } ∧ t.io.trace = [.cmdEstop] ∧
      t.io.clock = now := by
  obtain ⟨t, happly, hcmd, hingest, rfl⟩ := exec_of_class htime (classify_of_estop hguard hestop)
  obtain ⟨hactive, hstart, hend⟩ := estopBody_bz now (s.begin.setClock now)
  have hclock : (estopBody now (s.begin.setClock now)).io.clock = now := by simp [estopBody]
  exact ⟨_, happly, hcmd, hingest, estopBody_dev now _, hactive, hstart, hend, estopBody_out now _,
    classBody_trace .estop c now _, hclock⟩

end Sys2Proof.Machine
end

section
/-! Proofs of the statements of 44_command_dispatch.md, third part: `TICK` on the states that a Command leaves. -/

namespace Sys2Proof.Machine

open Claims

/-! ## The countdown's part (R231 to R234) -/

theorem countdownDue_iff {now : Time} {d : DeviceState} : countdownDue now d = true ↔ Due now d := by
  have helapsed : Config.params.tickMs ≤ elapsed now d.lastTickTime ↔ d.lastTickTime.toNat + 1000 ≤ now.toNat := by
    rw [show Config.params.tickMs = 1000 from rfl, elapsed]
    omega
  rw [countdownDue, Bool.and_eq_true, decide_eq_true_iff, decide_eq_true_iff, helapsed]

/-- Only Counting has countdown events (R231). -/
theorem not_due_of_blank {now : Time} {d : DeviceState} (h : d.mode = .blank) : ¬ Due now d :=
  fun hdue => nomatch h.symm.trans hdue.1

section
variable {now : Time} {s : State}

theorem tickCountdown_of_not_due (h : ¬ Due now s.dev) : tickCountdown now s = s :=
  if_neg (mt countdownDue_iff.mp h)

theorem tickCountdown_of_time_left (hdue : Due now s.dev) (htime : 1 < s.dev.time.toInt) :
    tickCountdown now s = countdownDecrement now s := by
  rw [tickCountdown, if_pos (countdownDue_iff.mpr hdue), if_pos htime]

theorem tickCountdown_of_last (hdue : Due now s.dev) (htime : s.dev.time.toInt ≤ 1) :
    tickCountdown now s = countdownEnd now s := by
  rw [tickCountdown, if_pos (countdownDue_iff.mpr hdue), if_neg (Int.not_lt.mpr htime)]

/-- The countdown's end leaves the label of the branch taken (R234). -/
theorem countdownEnd_trace (now : Time) (s : State) : (countdownEnd now s).io.trace =
    s.io.trace ++ [if s.dev.countdownContinues then .countdownEndContinue else .countdownEnd] := by
  cases h : s.dev.countdownContinues <;> simp [countdownEnd, h]

/-! ## The buzzer's part (R241 to R243) -/

theorem scheduleElapsed_iff {bz : Buzzer} : scheduleElapsed now bz = true ↔ bz.endTime.toNat ≤ now.toNat :=
  decide_eq_true_iff

theorem tickBuzzer_of_elapsed (vol : Volume) (h : Elapsed now s.bz) : tickBuzzer now vol s = s.endSchedule := by
  rw [tickBuzzer, if_pos h.1, if_pos (scheduleElapsed_iff.mpr h.2)]

theorem tickBuzzer_of_running (vol : Volume) (hactive : s.bz.active = true) (hrun : now.toNat < s.bz.endTime.toNat) :
    tickBuzzer now vol s = toggleTone now vol s := by
  rw [tickBuzzer, if_pos hactive, if_neg (mt scheduleElapsed_iff.mp (Nat.not_le.mpr hrun))]

/-- In the first phase of a schedule a silent tone comes on as the volume says (R242). -/
theorem toggleTone_of_first_phase (vol : Volume) (hphase : now.toNat < s.bz.startTime.toNat + 500)
    (hsilent : s.out.tone = .off) : toggleTone now vol s = s.setTone (toneOf vol) := by
  have hzero : elapsed now s.bz.startTime / Config.params.beepHalfMs = 0 := by
    rw [show Config.params.beepHalfMs = 500 from rfl, elapsed, Nat.div_eq_zero_iff]
    omega
  have hwanted : toneWanted now s.bz.startTime = true := by rw [toneWanted, hzero]; rfl
  rw [toggleTone, if_pos hwanted, if_pos hsilent]

/-- With no countdown active the end of a schedule shows the stored state again (R243, R245). -/
theorem endSchedule_out_of_no_countdown (hidle : s.dev.countdown = false) (htime : 0 ≤ s.dev.time.toInt) :
    s.endSchedule.out = { redisplayOut s.dev s.out with tone := .off } := by
  rw [endSchedule_of_no_countdown hidle, State.fullRedisplay_out, digitsOf_eq_shown (by exact htime)]
  rfl

/-- While a countdown is active, the buzzer's part touches only the buzzer (R243). -/
theorem tickBuzzer_of_countdown (vol : Volume) (h : s.dev.countdown = true) :
    (tickBuzzer now vol s).dev = s.dev ∧ (tickBuzzer now vol s).out.dig = s.out.dig ∧
      (tickBuzzer now vol s).io.clock = s.io.clock := by
  rcases tickBuzzer_cases now vol s with e | e | ⟨tone, e⟩ <;> rw [e]
  · exact ⟨rfl, rfl, rfl⟩
  · rw [endSchedule_of_countdown h]
    exact ⟨rfl, rfl, rfl⟩
  · exact ⟨rfl, rfl, rfl⟩

end

/-! ## A whole `TICK` -/

section
variable {now : Time} {s : State} (vol : Volume)

theorem exec_tick (htime : s.TimeOk now) :
    exec (.tick now vol) s = .next (tickBuzzer now vol (tickCountdown now (s.begin.setClock now))) :=
  (runAt_eq_next (k := fun s => tickBuzzer now vol (tickCountdown now s))).mpr ⟨htime, rfl⟩

variable (htime : s.TimeOk now) (hdue : ¬ Due now s.dev)
include htime hdue

theorem exec_tick_of_elapsed (helapsed : Elapsed now s.bz) :
    exec (.tick now vol) s = .next (s.begin.setClock now).endSchedule := by
  rw [exec_tick vol htime, tickCountdown_of_not_due (by exact hdue), tickBuzzer_of_elapsed vol (by exact helapsed)]

theorem exec_tick_of_first_phase (hactive : s.bz.active = true) (hrun : now.toNat < s.bz.endTime.toNat)
    (hphase : now.toNat < s.bz.startTime.toNat + 500) (hsilent : s.out.tone = .off) :
    exec (.tick now vol) s = .next ((s.begin.setClock now).setTone (toneOf vol)) := by
  rw [exec_tick vol htime, tickCountdown_of_not_due (by exact hdue),
    tickBuzzer_of_running vol (by exact hactive) (by exact hrun),
    toggleTone_of_first_phase vol (by exact hphase) (by exact hsilent)]

end

end Sys2Proof.Machine
end

section
/-! Proofs of the statements of 44_command_dispatch.md, fourth part: the countdown from its start to its last tick
(R235). -/

namespace Sys2Proof.Machine

open Claims

/-- The ticks of R235: `k` of them, every 1000 ms after `t0`. -/
def countdownTicks (t0 : Time) (vol : Volume) (k : Nat) : List Instr :=
  (List.range k).map (fun j => Instr.tick (BitVec.ofNat 64 (t0.toNat + (j + 1) * 1000)) vol)

theorem countdownTicks_succ (t0 : Time) (vol : Volume) (k : Nat) :
    countdownTicks t0 vol (k + 1) =
      countdownTicks t0 vol k ++ [.tick (BitVec.ofNat 64 (t0.toNat + (k + 1) * 1000)) vol] := by
  simp [countdownTicks, List.range_succ]

theorem toNat_countdownTick {t0 : Time} {k : Nat} (hfit : t0.toNat + (k + 1) * 1000 < 2 ^ 64) :
    (BitVec.ofNat 64 (t0.toNat + (k + 1) * 1000)).toNat = t0.toNat + k * 1000 + 1000 := by
  rw [BitVec.toNat_ofNat, Nat.mod_eq_of_lt hfit]
  omega

/-- A countdown under way whose last event was at `lastEvent`, with the time `left` shown (R235). -/
structure State.CountingAt (lastEvent : Nat) (left : Int) (enabled continues : Bool) (s : State) : Prop where
  mode : s.dev.mode = .counting
  countdown : s.dev.countdown = true
  time : s.dev.time.toInt = left
  anchor : s.dev.lastTickTime.toNat = lastEvent
  clock : s.io.clock.toNat = lastEvent
  dig : s.out.dig = shown enabled left
  timeEnabled : s.dev.timeEnabled = enabled
  countdownContinues : s.dev.countdownContinues = continues

/-- The start begins it with the time pre-decremented (R209). -/
theorem applyStage_countingAt {c : Command} {now : Time} {s : State} (hclass : classify c s.dev = .start)
    (hclock : s.io.clock = now) (htime : 1 ≤ c.time.toInt) :
    (applyStage c now s).CountingAt now.toNat (c.time.toInt - 1) c.timeEnabled
      (s.dev.countdownContinues || c.countdownContinues) := by
  have hleft : max (max c.time.toInt 0 - 1) 0 = c.time.toInt - 1 := by omega
  have hbody : applyStage c now s = startBody c now s := by rw [applyStage, hclass]; rfl
  have htoInt : (startBody c now s).dev.time.toInt = c.time.toInt - 1 := by
    rw [startBody_dev, toInt_preDecrement, State.updateFields_dev, toInt_clampTime, hleft]
  obtain ⟨-, -, hkept, -⟩ := applyStage_ingest c now s
  constructor
  case time => rw [hbody, htoInt]
  case clock => rw [hkept, hclock]
  case dig => rw [hbody, startBody_out, hleft]
  all_goals simp [hbody, startBody_dev_eq, fieldsDev]

section
variable {t0 now : Time} {left : Int} {enabled continues : Bool} {n : Nat} {s : State}

theorem State.CountingAt.due (h : s.CountingAt n left enabled continues) (hnow : n + 1000 ≤ now.toNat) :
    Due now s.dev := by
  refine ⟨h.mode, ?_⟩
  rw [h.anchor]
  exact hnow

/-- A tick 1000 ms later with more than one second left shows one second less (R232). -/
theorem State.CountingAt.tick (h : s.CountingAt n left enabled continues) (vol : Volume)
    (hnow : now.toNat = n + 1000) (hleft : 1 < left) :
    ∃ t, exec (.tick now vol) s = .next t ∧ t.CountingAt now.toNat (left - 1) enabled continues := by
  have htime : s.TimeOk now := by rw [State.TimeOk, h.clock]; omega
  have hstep : tickCountdown now (s.begin.setClock now) = countdownDecrement now (s.begin.setClock now) :=
    tickCountdown_of_time_left (h.due hnow.ge) (by exact h.time.symm ▸ hleft)
  have htoInt : (s.dev.time - 1).toInt = left - 1 := by rw [toInt_sub_one (by rw [h.time]; omega), h.time]
  obtain ⟨hdev, hdig, hclock⟩ := tickBuzzer_of_countdown (now := now)
    (s := countdownDecrement now (s.begin.setClock now)) vol h.countdown
  rw [exec_tick vol htime, hstep]
  refine ⟨_, rfl, ?_⟩
  constructor
  case clock => rw [hclock]; rfl
  case dig =>
    have hshown := digitsOf_eq_shown (d := { s.dev with time := s.dev.time - 1 }) (by rw [htoInt]; omega)
    rw [htoInt, h.timeEnabled] at hshown
    exact hdig.trans hshown
  all_goals rw [hdev, countdownDecrement_dev]
  case time => exact htoInt
  case mode => exact h.mode
  case countdown => exact h.countdown
  case timeEnabled => exact h.timeEnabled
  case countdownContinues => exact h.countdownContinues

/-- A tick 1000 ms later with one second left is the countdown's end (R234). -/
theorem State.CountingAt.last_tick (h : s.CountingAt n 1 enabled continues) (vol : Volume)
    (hnow : now.toNat = n + 1000) :
    ∃ t, exec (.tick now vol) s = .next t ∧
      if continues then .countdownEndContinue ∈ t.io.trace
      else .countdownEnd ∈ t.io.trace ∧ t.dev.countdown = false := by
  have htime : s.TimeOk now := by rw [State.TimeOk, h.clock]; omega
  have hstep : tickCountdown now (s.begin.setClock now) = countdownEnd now (s.begin.setClock now) :=
    tickCountdown_of_last (h.due hnow.ge) h.time.le
  have hcontinues : (s.begin.setClock now).dev.countdownContinues = continues := h.countdownContinues
  have htrace := (tickBuzzer_trace now vol (countdownEnd now (s.begin.setClock now))).subset
  rw [countdownEnd_trace, hcontinues] at htrace
  rw [exec_tick vol htime, hstep]
  refine ⟨_, rfl, ?_⟩
  cases continues with
  | true => exact htrace List.mem_concat_self
  | false =>
    have hstopped : (countdownEnd now (s.begin.setClock now)).dev.countdown = false := by
      rw [countdownEnd_dev, hcontinues]
      rfl
    refine ⟨htrace List.mem_concat_self, ?_⟩
    rcases tickBuzzer_dev now vol (countdownEnd now (s.begin.setClock now)) with e | ⟨-, e⟩ <;> rw [e]
    · exact hstopped
    · exact hstopped

/-- `k` ticks on time with more than one second left before each show `k` seconds less (R235), by induction on `k`. -/
theorem State.CountingAt.ticks (h : s.CountingAt t0.toNat left enabled continues) (vol : Volume) (k : Nat)
    (hleft : (k : Int) < left) (hfit : t0.toNat + k * 1000 < 2 ^ 64) :
    ∃ t, execAll (countdownTicks t0 vol k) s = .next t ∧
      t.CountingAt (t0.toNat + k * 1000) (left - k) enabled continues := by
  induction k with
  | zero => exact ⟨s, rfl, by simpa using h⟩
  | succ k ih =>
    obtain ⟨u, hrun, hu⟩ := ih (by omega) (lt_of_le_of_lt (by omega) hfit)
    have hnow := toNat_countdownTick hfit
    obtain ⟨t, htick, ht⟩ := hu.tick vol hnow (by omega)
    rw [hnow, show left - k - 1 = left - (k + 1 : Nat) by omega, Nat.add_assoc, ← Nat.succ_mul] at ht
    refine ⟨t, ?_, ht⟩
    rw [countdownTicks_succ, execAll_append, hrun, Step.bind_next, execAll_cons, htick]
    rfl

end

end Sys2Proof.Machine
end

section
/-! Proofs of the statements of 44_command_dispatch.md: the statements. -/

namespace Sys2Proof.Machine

open Claims

/-- Settles O40: the guard alone decides the class `reject`, whose body leaves its label and nothing else; the other
classes leave other labels. -/
theorem guardedCommandChangesNothing : Obligations.GuardedCommandChangesNothing := by
  intro c now s htime
  refine ⟨_, exec_apply htime, (classRequestRunsAsDispatched .reject c now s).trans (exec_apply htime), ?_⟩
  rw [applyStage, classBody_trace]
  split
  · next hguard =>
    rw [show classify c (s.begin.setClock now).dev = .reject from classify_of_guarded hguard]
    exact ⟨rfl, rfl⟩
  · next hpass => exact fun hlabel =>
      classify_ne_reject hpass (classLabel_eq_semanticReject (List.mem_singleton.mp hlabel).symm)

/-- Settles O41: the Command is of the class `estop` (`exec_estop`); a `TICK` in the alert's first phase finds no
countdown due and a silent tone. -/
theorem emergencyStopEffect : Obligations.EmergencyStopEffect := by
  intro c now s htime hguard hestop
  obtain ⟨t, happly, hcmd, hingest, hdev, hactive, hstart, hend, hout, htrace, hclock⟩ := exec_estop htime hguard hestop
  refine ⟨t, happly, hcmd, hingest, hdev, hactive, hstart, hout, htrace,
    fun hfit => ⟨hend hfit, fun later vol hlater hsoon => ?_⟩⟩
  have htimeLater : t.TimeOk later := by rwa [State.TimeOk, hclock]
  have hnotDue : ¬ Due later t.dev := not_due_of_blank (by rw [hdev])
  have hrunning : later.toNat < t.bz.endTime.toNat := by
    rw [hend hfit]
    exact hsoon.trans (by omega)
  have hphase : later.toNat < t.bz.startTime.toNat + 500 := by rwa [hstart]
  have hsilent : t.out.tone = .off := by rw [hout]
  refine ⟨_, exec_tick_of_first_phase vol htimeLater hnotDue hactive hrunning hphase hsilent, ?_⟩
  cases vol <;> rfl

/-- Settles O42: the Command is of the class `start`. -/
theorem startCommandEffect : Obligations.StartCommandEffect := by
  intro c now s htime hguard hestop hidle hactive
  obtain ⟨t, happly, hcmd, hingest, rfl⟩ := exec_of_class htime (classify_of_start hguard hestop hidle hactive)
  exact ⟨_, happly, hcmd, hingest, startBody_dev_eq c now _, startBody_sounded c now (s.begin.setClock now),
    startBody_out c now _, classBody_trace .start c now _⟩

/-- Settles O43: the Command is of the class `stop`. -/
theorem stopCommandEffect : Obligations.StopCommandEffect := by
  intro c now s htime hguard hestop hcounting hactive
  obtain ⟨t, happly, hcmd, hingest, rfl⟩ := exec_of_class htime (classify_of_stop hguard hestop hcounting hactive)
  exact ⟨_, happly, hcmd, hingest, stopBody_dev_eq c now _, stopBody_sounded c now (s.begin.setClock now),
    stopBody_out c now _, classBody_trace .stop c now _⟩

/-- Settles O44: the Command is of the class `update`, which does the field updates and nothing else. -/
theorem updateCommandEffect : Obligations.UpdateCommandEffect := by
  intro c now s htime hguard hestop hsame
  obtain ⟨t, happly, hcmd, hingest, rfl⟩ := exec_of_class htime (classify_of_update hguard hestop hsame)
  exact ⟨_, happly, hcmd, hingest, updateFields_dev_eq c _, updateFields_bz c _, updateFields_out c _,
    classBody_trace .update c now _⟩

/-- Settles O55: the emergency stop leaves Blank, so no countdown is due, and 5000 ms later its alert has ended. -/
theorem emergencyStopLeadsToIdle : Obligations.EmergencyStopLeadsToIdle := by
  intro c now later vol s htime hguard hestop hnonneg hlater
  obtain ⟨t, happly, -, -, hdev, hactive, -, hend, hout, -, hclock⟩ := exec_estop htime hguard hestop
  have htimeLater : t.TimeOk later := by
    rw [State.TimeOk, hclock]
    exact (Nat.le_add_right _ _).trans hlater
  have hnotDue : ¬ Due later t.dev := not_due_of_blank (by rw [hdev])
  have helapsed : Elapsed later t.bz := ⟨hactive, by rwa [hend (hlater.trans_lt later.isLt)]⟩
  have hidle : t.dev.countdown = false := by rw [hdev]
  have htime : 0 ≤ t.dev.time.toInt := by rwa [hdev]
  refine ⟨(t.begin.setClock later).endSchedule, ?_, ?_, ?_, ?_⟩
  · rw [execAll_cons, happly, Step.bind_next, execAll_cons, exec_tick_of_elapsed vol htimeLater hnotDue helapsed]
    rfl
  · rw [State.endSchedule_dev, State.setClock_dev, State.begin_dev, hdev]
    rfl
  · rw [State.endSchedule_bz]
  · rw [endSchedule_out_of_no_countdown (by exact hidle) (by exact htime), State.setClock_dev, State.begin_dev,
      hdev, State.setClock_out, State.begin_out, hout]
    rfl

/-- Settles O16: the start leaves `T - 1` (`applyStage_countingAt`), each tick on time one second less
(`State.CountingAt.ticks`), and the tick that finds one second ends the countdown (`State.CountingAt.last_tick`). -/
theorem countdownCadence : Obligations.CountdownCadence := by
  intro c t0 vol s k _ htime hguard hestop hactive hidle hT hfit
  have hstart := applyStage_countingAt (now := t0) (s := s.begin.setClock t0)
    (classify_of_start hguard hestop hidle hactive) rfl (by omega)
  have hrun : ∀ ticks, execAll (.apply c t0 :: ticks) s = execAll ticks (applyStage c t0 (s.begin.setClock t0)) := by
    intro ticks
    rw [execAll_cons, exec_apply htime, Step.bind_next]
  refine ⟨fun hk => ?_, fun hk => ?_⟩
  · obtain ⟨t, hticks, ht⟩ := hstart.ticks vol k hk hfit
    exact ⟨t, (hrun _).trans hticks, ht.mode, ht.time, ht.dig⟩
  · obtain ⟨m, rfl⟩ : ∃ m, k = m + 1 := ⟨k - 1, by omega⟩
    obtain ⟨u, hticks, hu⟩ := hstart.ticks vol m (by omega) (lt_of_le_of_lt (by omega) hfit)
    rw [show c.time.toInt - 1 - m = 1 by omega] at hu
    obtain ⟨t, hlast, ht⟩ := hu.last_tick vol (toNat_countdownTick hfit)
    refine ⟨t, ?_, ?_⟩
    · refine (hrun _).trans ?_
      rw [← countdownTicks, countdownTicks_succ, execAll_append, hticks, Step.bind_next, execAll_cons, hlast]
      rfl
    · simpa using ht

end Sys2Proof.Machine
end

section
/-! Proofs of the statements of 45_tick_and_loop.md, first part: what each part of `TICK` leaves, in the terms of the
statements. -/

namespace Sys2Proof.Machine

open Claims

/-! ## The countdown's part (R232, R234) -/

/-- The digits after a decrement show one second less (R232). -/
theorem countdownDecrement_out {now : Time} {s : State} (htime : 1 < s.dev.time.toInt) :
    (countdownDecrement now s).out =
      { s.out with dig := shown s.dev.timeEnabled (s.dev.time.toInt - 1), dirty := true } := by
  have hleft : (s.dev.time - 1).toInt = s.dev.time.toInt - 1 := toInt_sub_one htime.le
  have hshown := digitsOf_eq_shown (d := { s.dev with time := s.dev.time - 1 }) (by rw [hleft]; omega)
  rw [← hleft, ← hshown]
  rfl

/-- The end of a countdown enters Blank, unless the countdown continues (R234). -/
theorem countdownEnd_out (now : Time) (s : State) :
    (countdownEnd now s).out = if s.dev.countdownContinues then s.out else blankOut s.out := by
  cases h : s.dev.countdownContinues <;> simp [countdownEnd, blankOut, h]

/-- Either way the end beeps start (R234, R240). -/
theorem countdownEnd_bz (now : Time) (s : State) : (countdownEnd now s).bz = (s.sound s.dev.endNumBeeps now).bz := by
  cases h : s.dev.countdownContinues <;> simp [countdownEnd, h]

theorem countdownEnd_sounded (now : Time) (s : State) :
    Sounded s.dev.endNumBeeps.toInt now s.bz (countdownEnd now s).bz := by
  rw [countdownEnd_bz]
  exact sounded_sound s.dev.endNumBeeps now s

/-! ## The schedule -/

theorem eq_of_sounded {n : Int} {now : Time} {old new : Buzzer} (h : Sounded n now old new) (hn : n < 1) :
    new = old := by
  rwa [Sounded, if_pos hn] at h

theorem starts_of_sounded {n : Int} {now : Time} {old new : Buzzer} (h : Sounded n now old new) (hn : 1 ≤ n) :
    new.active = true ∧ new.startTime = now ∧
      (now.toNat + n.toNat * 1000 < 2 ^ 64 → new.endTime.toNat = now.toNat + n.toNat * 1000) := by
  rw [Sounded, if_neg (Int.not_lt.mpr hn)] at h
  obtain ⟨hactive, hstart, -, hend⟩ := h
  exact ⟨hactive, hstart, hend⟩

/-- Beeps whose end 64 bits hold have not ended when they start. -/
theorem not_elapsed_of_sounded {n : Int} {now : Time} {old new : Buzzer} (h : Sounded n now old new) (hn : 1 ≤ n)
    (hfit : now.toNat + n.toNat * 1000 < 2 ^ 64) : ¬ Elapsed now new := by
  obtain ⟨-, -, hend⟩ := starts_of_sounded h hn
  rintro ⟨-, hended⟩
  rw [hend hfit] at hended
  omega

/-! ## The buzzer's part (R241 to R243) -/

/-- The schedule after part B of `TICK`: one that has ended is off. -/
def buzzerAfter (now : Time) (bz : Buzzer) : Buzzer := { bz with active := bz.active && !decide (Elapsed now bz) }

theorem buzzerAfter_of_elapsed {now : Time} {bz : Buzzer} (h : Elapsed now bz) :
    buzzerAfter now bz = { bz with active := false } := by
  rw [buzzerAfter, decide_eq_true h, Bool.not_true, Bool.and_false]

theorem buzzerAfter_of_not_elapsed {now : Time} {bz : Buzzer} (h : ¬ Elapsed now bz) : buzzerAfter now bz = bz := by
  rw [buzzerAfter, decide_eq_false h, Bool.not_false, Bool.and_true]

section
variable {now : Time} {s : State} (vol : Volume)

theorem tickBuzzer_of_silent (h : s.bz.active = false) : tickBuzzer now vol s = s := by
  rw [tickBuzzer, h]
  rfl

/-- Toggling writes the tone that R242 wants: on in an even phase, off in an odd one. -/
theorem toggleTone_eq : toggleTone now vol s = s.setTone (toggled now vol s.bz s.out.tone) := by
  have hwanted : toneWanted now s.bz.startTime = true ↔ (now.toNat - s.bz.startTime.toNat) / 500 % 2 = 0 := beq_iff_eq
  have hkept : s = s.setTone s.out.tone := rfl
  unfold toggleTone toggled
  by_cases hphase : (now.toNat - s.bz.startTime.toNat) / 500 % 2 = 0
  · rw [if_pos (hwanted.mpr hphase), if_pos hphase]
    by_cases hsilent : s.out.tone = .off
    · rw [if_pos hsilent, if_pos hsilent]
      cases vol <;> rfl
    · rw [if_neg hsilent, if_neg hsilent, ← hkept]
  · rw [if_neg (mt hwanted.mp hphase), if_neg hphase]
    by_cases hsilent : s.out.tone = .off
    · rw [if_pos hsilent, ← hsilent, ← hkept]
    · rw [if_neg hsilent]

/-- While no schedule ends, or a countdown is active, part B of `TICK` leaves the mode and the display (R242, R243). -/
theorem tickBuzzer_of_stays (hstays : Elapsed now s.bz → s.dev.countdown = true) :
    (tickBuzzer now vol s).dev = s.dev ∧
      (tickBuzzer now vol s).out = { s.out with tone := toneAfter now vol s.bz s.out.tone } ∧
      (tickBuzzer now vol s).bz = buzzerAfter now s.bz ∧
      (tickBuzzer now vol s).io.trace = s.io.trace ++ if Elapsed now s.bz then [.buzzerEnd] else [] := by
  by_cases helapsed : Elapsed now s.bz
  · rw [tickBuzzer_of_elapsed vol helapsed, endSchedule_of_countdown (hstays helapsed), if_pos helapsed,
      buzzerAfter_of_elapsed helapsed, toneAfter, if_pos helapsed.1, if_pos helapsed.2]
    exact ⟨rfl, rfl, rfl, rfl⟩
  · rw [if_neg helapsed, buzzerAfter_of_not_elapsed helapsed, List.append_nil]
    cases hactive : s.bz.active with
    | false =>
      rw [tickBuzzer_of_silent vol hactive, toneAfter, hactive]
      exact ⟨rfl, rfl, rfl, rfl⟩
    | true =>
      have hrun : ¬ s.bz.endTime.toNat ≤ now.toNat := fun hended => helapsed ⟨hactive, hended⟩
      rw [tickBuzzer_of_running vol hactive (Nat.not_le.mp hrun), toggleTone_eq, toneAfter, if_pos hactive, if_neg hrun]
      exact ⟨rfl, rfl, rfl, rfl⟩

theorem State.SameIngest.tickBuzzer {s u : State} (h : s.SameIngest u) (now : Time) (vol : Volume) :
    s.SameIngest (tickBuzzer now vol u) := by
  obtain ⟨hbs, hexpected⟩ := tickBuzzer_sameIngest now vol u
  exact ⟨hbs.trans h.1, hexpected.trans h.2⟩

/-- At a schedule's end with no countdown active it enters Idle and shows the stored state (R243, R245). -/
theorem endSchedule_of_return (hidle : s.dev.countdown = false) (htime : 0 ≤ s.dev.time.toInt) :
    s.endSchedule.dev = { s.dev with mode := .idle } ∧
      s.endSchedule.out = { redisplayOut s.dev s.out with tone := .off } := by
  refine ⟨?_, endSchedule_out_of_no_countdown hidle htime⟩
  rw [State.endSchedule_dev, hidle]
  rfl

end

/-! ## A whole `TICK` with no countdown event -/

section
variable {now : Time} {s : State} (vol : Volume) (htime : s.TimeOk now) (hdue : ¬ Due now s.dev)
include htime hdue

theorem exec_tick_of_running (hactive : s.bz.active = true) (hrun : now.toNat < s.bz.endTime.toNat) :
    exec (.tick now vol) s = .next ((s.begin.setClock now).setTone (toggled now vol s.bz s.out.tone)) := by
  rw [exec_tick vol htime, tickCountdown_of_not_due (by exact hdue),
    tickBuzzer_of_running vol (by exact hactive) (by exact hrun), toggleTone_eq]
  rfl

theorem exec_tick_of_silent (hsilent : s.bz.active = false) :
    exec (.tick now vol) s = .next (s.begin.setClock now) := by
  rw [exec_tick vol htime, tickCountdown_of_not_due (by exact hdue), tickBuzzer_of_silent vol (by exact hsilent)]

end

/-! ## A whole `TICK` with a countdown event -/

section
variable {now : Time} {s : State} (vol : Volume) (htime : s.TimeOk now) (hdue : Due now s.dev)
include htime hdue

theorem exec_tick_of_time_left (hleft : 1 < s.dev.time.toInt) :
    exec (.tick now vol) s = .next (tickBuzzer now vol (countdownDecrement now (s.begin.setClock now))) := by
  rw [exec_tick vol htime, tickCountdown_of_time_left (by exact hdue) (by exact hleft)]

/-- The countdown's end (R234): what it leaves to the buzzer's part, with the continue flag and without. -/
theorem exec_tick_of_last (hlast : s.dev.time.toInt ≤ 1) :
    ∃ u, exec (.tick now vol) s = .next (tickBuzzer now vol u) ∧ s.SameIngest u ∧
      u.dev = (if s.dev.countdownContinues then { s.dev with countdownContinues := false, lastTickTime := now }
        else { s.dev with countdown := false, mode := .blank }) ∧
      u.out = (if s.dev.countdownContinues then s.out else blankOut s.out) ∧
      Sounded s.dev.endNumBeeps.toInt now s.bz u.bz ∧
      u.io.trace = [if s.dev.countdownContinues then .countdownEndContinue else .countdownEnd] := by
  refine ⟨countdownEnd now (s.begin.setClock now), ?_, countdownEnd_sameIngest now (s.begin.setClock now),
    countdownEnd_dev now _, countdownEnd_out now _, countdownEnd_sounded now (s.begin.setClock now),
    countdownEnd_trace now _⟩
  rw [exec_tick vol htime, tickCountdown_of_last (by exact hdue) (by exact hlast)]

end

end Sys2Proof.Machine
end

section
/-! Proofs of the statements of 45_tick_and_loop.md, second part: the mode and the labels it changes under (R254). -/

namespace Sys2Proof.Machine

/-- Work that changes the mode only while it leaves a label named for the new one, and keeps the labels left before. -/
structure ModeLabelled (labels : Mode → List Event) (s t : State) : Prop where
  trace : s.io.trace <+: t.io.trace
  mode : t.dev.mode = s.dev.mode ∨ ∃ e ∈ labels t.dev.mode, e ∈ t.io.trace

section
variable {labels : Mode → List Event} {s u t : State}

theorem ModeLabelled.trans (h : ModeLabelled labels s u) (k : ModeLabelled labels u t) : ModeLabelled labels s t := by
  refine ⟨h.trace.trans k.trace, ?_⟩
  rcases k.mode with hsame | hlabel
  · rw [hsame]
    exact h.mode.imp_right fun ⟨e, he, htrace⟩ => ⟨e, he, k.trace.subset htrace⟩
  · exact .inr hlabel

theorem modeLabelled_of_ingest (h : IngestStep s t) : ModeLabelled labels s t :=
  ⟨h.trace, .inl (congrArg DeviceState.mode h.dev)⟩

end

/-! ## Commands -/

/-- The labels a Command leaves when it enters a mode: none of them enters Idle. -/
def commandLabels : Mode → List Event
  | .idle => []
  | .counting => [.cmdStart]
  | .blank => [.cmdEstop, .cmdStop]

theorem mem_commandLabels {e : Event} {m : Mode} (h : e ∈ commandLabels m) :
    m = .counting ∧ e = .cmdStart ∨ m = .blank ∧ (e = .cmdEstop ∨ e = .cmdStop) := by
  cases m with
  | idle => exact nomatch (show e ∈ [] from h)
  | counting => exact .inl ⟨rfl, List.mem_singleton.mp h⟩
  | blank => exact .inr ⟨rfl, List.mem_pair.mp h⟩

theorem applyStage_modeLabelled (c : Command) (now : Time) (s : State) :
    ModeLabelled commandLabels s (applyStage c now s) := by
  unfold applyStage
  have htrace := classBody_trace (classify c s.dev) c now s
  refine ⟨by rw [htrace]; exact List.prefix_append _ _, ?_⟩
  rw [htrace]
  cases classify c s.dev with
  | reject => exact .inl rfl
  | update => exact .inl (by rw [classBody, updateBody_dev, State.updateFields_dev])
  | estop => exact .inr ⟨.cmdEstop, by simp [classBody, estopBody_dev, commandLabels], List.mem_concat_self⟩
  | start => exact .inr ⟨.cmdStart, by simp [classBody, startBody_dev, commandLabels], List.mem_concat_self⟩
  | stop => exact .inr ⟨.cmdStop, by simp [classBody, stopBody_dev, commandLabels], List.mem_concat_self⟩

/-- So does every operation made of ingest work and Commands. -/
theorem effectOf_modeLabelled {i : Instr} (hi : ingestsOrApplies i = true) (s : State) :
    ModeLabelled commandLabels s (effectOf i s) :=
  effectOf_rel (fun _ _ _ h k => h.trans k) (fun _ _ h => modeLabelled_of_ingest h) hi
    (fun now _ c s => applyStage_modeLabelled c now s) s

/-! ## The tick -/

/-- The labels a `TICK` leaves when it enters a mode: it never enters Counting. -/
def tickLabels : Mode → List Event
  | .idle => [.buzzerEnd]
  | .counting => []
  | .blank => [.countdownEnd]

theorem mem_tickLabels {e : Event} {m : Mode} (h : e ∈ tickLabels m) :
    m = .idle ∧ e = .buzzerEnd ∨ m = .blank ∧ e = .countdownEnd := by
  cases m with
  | idle => exact .inl ⟨rfl, List.mem_singleton.mp h⟩
  | counting => exact nomatch (show e ∈ [] from h)
  | blank => exact .inr ⟨rfl, List.mem_singleton.mp h⟩

theorem tickCountdown_modeLabelled (now : Time) (s : State) : ModeLabelled tickLabels s (tickCountdown now s) := by
  rcases tickCountdown_cases now s with h | ⟨-, h⟩ | h <;> rw [h]
  · exact ⟨List.prefix_refl _, .inl rfl⟩
  · exact ⟨List.prefix_append _ _, .inl rfl⟩
  · refine ⟨by rw [countdownEnd_trace]; exact List.prefix_append _ _, ?_⟩
    rw [countdownEnd_dev, countdownEnd_trace]
    cases s.dev.countdownContinues with
    | true => exact .inl rfl
    | false => exact .inr ⟨.countdownEnd, List.mem_singleton_self _, List.mem_concat_self⟩

theorem tickBuzzer_modeLabelled (now : Time) (vol : Volume) (s : State) :
    ModeLabelled tickLabels s (tickBuzzer now vol s) := by
  refine ⟨tickBuzzer_trace now vol s, ?_⟩
  rcases tickBuzzer_cases now vol s with h | h | ⟨tone, h⟩ <;> rw [h]
  · exact .inl rfl
  · rw [State.endSchedule_dev, State.endSchedule_trace]
    cases s.dev.countdown with
    | true => exact .inl rfl
    | false => exact .inr ⟨.buzzerEnd, List.mem_singleton_self _, List.mem_concat_self⟩
  · exact .inl rfl

theorem tick_modeLabelled (now : Time) (vol : Volume) (s : State) :
    ModeLabelled tickLabels s (tickBuzzer now vol (tickCountdown now s)) :=
  (tickCountdown_modeLabelled now s).trans (tickBuzzer_modeLabelled now vol _)

/-! ## The other operations -/

theorem effectOf_mode_of_not_tick {i : Instr} (hi : ingestsOrApplies i = false) (hreset : i ≠ .reset)
    (htick : ∀ now vol, i ≠ .tick now vol) (s : State) : (effectOf i s).dev.mode = s.dev.mode := by
  cases i with
  | reset => exact absurd rfl hreset
  | tick now vol => exact absurd rfl (htick now vol)
  | sample mp => rfl
  | flush => exact congrArg DeviceState.mode (flushDisplay_dev s)
  | bsResize n =>
    simp only [effectOf, State.resize]
    split <;> rfl
  | _ => exact absurd hi Bool.noConfusion

end Sys2Proof.Machine
end

section
/-! Proofs of the statements of 45_tick_and_loop.md, third part: runs of the control loop. -/

namespace Sys2Proof.Machine

/-! ## Passes one after the other -/

/-- The steps of some passes run the loop over them, by induction on the passes: one pass is `stepN_pass`, and it runs
the same whatever passes are still to come. -/
theorem stepN_passes {s : State} (hin : s.io.input = []) :
    stepN ((s.io.passes.map Pass.steps).sum) s = runLoop s.io.passes (s.withAsks [] []) := by
  generalize hps : s.io.passes = ps
  induction ps generalizing s with
  | nil =>
    have hsame : s.withAsks [] [] = s := by rw [State.withAsks, ← hin, ← hps]
    rw [hsame]
    rfl
  | cons p ps ih =>
    have hrest : (fun t : State => Step.bind (.next (t.withAsks [] ps)) (stepN (ps.map Pass.steps).sum)) =
        fun t : State => Step.bind (.next (t.withAsks [] [])) (runLoop ps) :=
      funext fun t => ih (s := t.withAsks [] ps) rfl rfl
    rw [List.map_cons, List.sum_cons, stepN_add, stepN_pass hin hps, runLoop_cons, execAll_withAsks, execAll_withAsks,
      Step.withAsks, Step.withAsks, Step.bind_assoc, Step.bind_assoc, hrest]

/-! ## One operation of a pass -/

theorem exec_sample (mp : Matchplay) (s : State) :
    exec (.sample mp) s = .next (s.begin.withDev { s.dev with matchplayMode := mp }) := rfl

theorem exec_flush (s : State) : exec .flush s = .next (flushDisplay s.begin) := rfl

theorem receive_matchplayMode (now : Time) (b : Byte) (s : State) :
    (receive now b s).dev.matchplayMode = s.dev.matchplayMode :=
  effectOf_matchplayMode (i := .rx b now) nofun nofun s

theorem tickCountdown_clock (now : Time) (s : State) : (tickCountdown now s).io.clock = s.io.clock := by
  rcases tickCountdown_cases now s with h | ⟨-, h⟩ | h <;> rw [h]
  · rfl
  · cases hc : s.dev.countdownContinues <;> simp [countdownEnd, hc]

theorem tickBuzzer_clock (now : Time) (vol : Volume) (s : State) :
    (tickBuzzer now vol s).io.clock = s.io.clock := by
  rcases tickBuzzer_cases now vol s with h | h | ⟨tone, h⟩ <;> rw [h]
  · exact State.endSchedule_clock s
  · rfl

/-- A flush is due exactly when an intent is pending and no frame is being assembled (R252). -/
theorem flushDue_iff {s : State} : s.flushDue = true ↔ s.out.dirty = true ∧ s.expected = none := by
  simp [State.flushDue, State.collecting]

/-! ## The bytes of a pass -/

/-- The timestamps from the clock through those of the bytes to `now` do not decrease (R302 (c)). -/
abbrev OnTimeUntil (now : Time) (rx : List (Byte × Time)) (s : State) : Prop :=
  (s.io.clock :: rx.map Prod.snd ++ [now]).Pairwise (fun a b => a.toNat ≤ b.toNat)

theorem OnTimeUntil.take {now : Time} {rx : List (Byte × Time)} {s : State} (h : OnTimeUntil now rx s) (k : Nat) :
    OnTimeUntil now (rx.take k) s :=
  h.sublist ((((List.take_sublist k rx).map Prod.snd).cons_cons _).append_right _)

/-- Bytes received on time are all received, under one matchplay mode, and leave time for what comes at `now`. -/
theorem execAll_rx {now : Time} {rx : List (Byte × Time)} {s : State} (hbs : s.bs.Inv) (htime : OnTimeUntil now rx s) :
    ∃ v, execAll (rx.map (fun a => .rx a.1 a.2)) s = .next v ∧ v.dev.matchplayMode = s.dev.matchplayMode ∧
      v.TimeOk now := by
  induction rx generalizing s with
  | nil => exact ⟨s, rfl, rfl, List.rel_of_pairwise_cons htime List.mem_cons_self⟩
  | cons a rx ih =>
    obtain ⟨hfirst, hrest⟩ := List.pairwise_cons.mp htime
    have hrx := exec_rx (b := a.1) hbs (hfirst a.2 List.mem_cons_self)
    obtain ⟨v, hrun, hmode, hnow⟩ := ih (s := receive a.2 a.1 (s.begin.setClock a.2)) (receive_inv a.2 a.1 hbs)
      (by rw [OnTimeUntil, receive_clock]; exact hrest)
    refine ⟨v, ?_, hmode.trans (receive_matchplayMode a.2 a.1 _), hnow⟩
    rw [List.map_cons, execAll_cons, hrx, Step.bind_next, hrun]

/-- A pass up to some of its bytes: the mode sampled stands. -/
theorem execAll_sample_rx {now : Time} {rx : List (Byte × Time)} {s : State} (mp : Matchplay) (hbs : s.bs.Inv)
    (htime : OnTimeUntil now rx s) :
    ∃ v, execAll (.sample mp :: rx.map (fun a => .rx a.1 a.2)) s = .next v ∧ v.dev.matchplayMode = mp ∧
      v.TimeOk now := by
  rw [execAll_cons, exec_sample, Step.bind_next]
  exact execAll_rx (s := s.begin.withDev { s.dev with matchplayMode := mp }) hbs htime

/-- The `TICK` of a pass keeps the mode sampled and brings the clock to its timestamp. -/
theorem exec_tick_on_time {now : Time} {s : State} (vol : Volume) (htime : s.TimeOk now) :
    ∃ u, exec (.tick now vol) s = .next u ∧ u.dev.matchplayMode = s.dev.matchplayMode ∧ u.io.clock = now := by
  refine ⟨_, exec_tick vol htime, tick_matchplayMode now vol (s.begin.setClock now), ?_⟩
  rw [tickBuzzer_clock, tickCountdown_clock, State.setClock_io_clock]

end Sys2Proof.Machine
end

section
/-! Proofs of the statements of 45_tick_and_loop.md: the statements. -/

namespace Sys2Proof.Machine

open Claims

/-- Settles O10: the decrement, then a buzzer's part that finds the countdown active. -/
theorem tickDecrementsCountdown : Obligations.TickDecrementsCountdown := by
  intro now vol s htime hcountdown hdue hleft
  obtain ⟨hdev, hout, hbz, htrace⟩ := tickBuzzer_of_stays (now := now)
    (s := countdownDecrement now (s.begin.setClock now)) vol (fun _ => hcountdown)
  rw [countdownDecrement_out (by exact hleft)] at hout
  refine ⟨_, exec_tick_of_time_left vol htime hdue hleft, ?_, ?_, hout, hbz, ?_, htrace⟩
  · rw [hdev]
    exact toInt_sub_one hleft.le
  · rw [hdev]
    rfl
  · exact tickBuzzer_sameIngest now vol (countdownDecrement now (s.begin.setClock now))

/-- Settles O11: the countdown's end leaves no countdown active, so the buzzer's part returns to Idle exactly when the
schedule that then stands has ended: never the end beeps, which have just started, but an older one may have. -/
theorem tickEndsCountdown : Obligations.TickEndsCountdown := by
  intro now vol s htime _ hdue hnonneg hlast hcontinues
  obtain ⟨u, hexec, hingest, hdev, hout, hsounded, htrace⟩ := exec_tick_of_last vol htime hdue hlast
  rw [if_neg (Bool.eq_false_iff.mp hcontinues)] at hdev hout htrace
  have hblank (hrunning : ¬ Elapsed now u.bz) :
      (tickBuzzer now vol u).dev = { s.dev with countdown := false, mode := .blank } ∧
        (tickBuzzer now vol u).bz = u.bz ∧
        (tickBuzzer now vol u).out = { blankOut s.out with tone := toneAfter now vol u.bz s.out.tone } ∧
        (tickBuzzer now vol u).io.trace = [.countdownEnd] := by
    obtain ⟨hdev', hout', hbz', htrace'⟩ := tickBuzzer_of_stays vol (fun h => absurd h hrunning)
    rw [hout] at hout'
    rw [buzzerAfter_of_not_elapsed hrunning] at hbz'
    rw [if_neg hrunning, htrace] at htrace'
    exact ⟨hdev'.trans hdev, hbz', hout', htrace'⟩
  refine ⟨_, hexec, hingest.tickBuzzer now vol, fun hbeeps hfit => ?_, fun hnone hrunning => ?_,
    fun hnone helapsed => ?_⟩
  · obtain ⟨hdev', hbz', hout', htrace'⟩ := hblank (not_elapsed_of_sounded hsounded hbeeps hfit)
    obtain ⟨hactive, hstart, hend⟩ := starts_of_sounded hsounded hbeeps
    rw [hbz']
    exact ⟨hdev', hactive, hstart, hend hfit, hout', htrace'⟩
  · have hbz := eq_of_sounded hsounded hnone
    rw [← hbz] at hrunning ⊢
    exact hblank hrunning
  · have hbz := eq_of_sounded hsounded hnone
    rw [← hbz] at helapsed ⊢
    obtain ⟨hdev', hout'⟩ := endSchedule_of_return (s := u) (by rw [hdev]) (by rw [hdev]; exact hnonneg)
    rw [tickBuzzer_of_elapsed vol helapsed, hdev', hout', hdev, hout, State.endSchedule_bz, State.endSchedule_trace,
      htrace]
    exact ⟨rfl, rfl, rfl, rfl⟩

/-- Settles O12: the countdown goes on, so the buzzer's part touches only the tone and the active flag. -/
theorem tickContinuesCountdown : Obligations.TickContinuesCountdown := by
  intro now vol s htime hcountdown hdue hlast hcontinues
  obtain ⟨u, hexec, hingest, hdev, hout, hsounded, htrace⟩ := exec_tick_of_last vol htime hdue hlast
  rw [if_pos hcontinues] at hdev hout htrace
  obtain ⟨hdev', hout', hbz', -⟩ := tickBuzzer_of_stays (now := now) (s := u) vol
    (fun _ => by rw [hdev]; exact hcountdown)
  have hlabel : .countdownEndContinue ∈ (tickBuzzer now vol u).io.trace :=
    (tickBuzzer_trace now vol u).subset (by rw [htrace]; exact List.mem_cons_self)
  rw [hout] at hout'
  exact ⟨_, hexec, hingest.tickBuzzer now vol, hdev'.trans hdev, by rw [hout'], by rw [hout'], by rw [hout'],
    by rw [hout'], hlabel, u.bz, hsounded, hbz', by rw [hout']⟩

/-- Settles O13: with no countdown event due the `TICK` is the toggling of the tone (`exec_tick_of_running`). -/
theorem tickTogglesTone : Obligations.TickTogglesTone :=
  fun _ vol _ htime hdue hactive hrun => ⟨_, exec_tick_of_running vol htime hdue hactive hrun, rfl, rfl⟩

/-- Settles O14: with no countdown event due the `TICK` is the end of the schedule, by whether a countdown is
active. -/
theorem tickEndsSchedule : Obligations.TickEndsSchedule := by
  intro now vol s htime hdue helapsed hnonneg
  refine ⟨_, exec_tick_of_elapsed vol htime hdue helapsed, ⟨?_, ?_⟩, ?_, ?_, ?_⟩
  · rw [State.endSchedule_bs, State.setClock_bs, State.begin_bs]
  · rw [State.endSchedule_expected, State.setClock_expected, State.begin_expected]
  · rw [State.endSchedule_bz, State.setClock_bz, State.begin_bz]
  · rw [State.endSchedule_trace]
    rfl
  · cases hcountdown : s.dev.countdown with
    | true =>
      rw [endSchedule_of_countdown (by exact hcountdown)]
      exact ⟨rfl, rfl⟩
    | false => exact endSchedule_of_return (s := s.begin.setClock now) hcountdown hnonneg

/-- Settles O15: with nothing due the `TICK` only begins (`exec_tick_of_silent`). -/
theorem tickWithNothingDueChangesNothing : Obligations.TickWithNothingDueChangesNothing :=
  fun _ vol _ htime hdue hsilent => ⟨_, exec_tick_of_silent vol htime hdue hsilent, rfl, rfl⟩

/-- Settles O8: `SAMPLE` replaces one field of `S`. -/
theorem sampleStoresMatchplayMode : Obligations.SampleStoresMatchplayMode :=
  fun mp s => ⟨_, exec_sample mp s, rfl, rfl⟩

/-- Settles O9, by whether the flush is due (`flushDue_iff`). -/
theorem flushOnlyWhenDirtyAndHunting : Obligations.FlushOnlyWhenDirtyAndHunting := by
  intro s
  refine ⟨_, exec_flush s, ?_⟩
  by_cases hdue : s.out.dirty = true ∧ s.expected = none
  · rw [if_pos hdue, flushDisplay, if_pos (flushDue_iff.mpr (by exact hdue))]
    exact ⟨rfl, rfl, rfl⟩
  · rw [if_neg hdue, flushDisplay, if_neg (mt flushDue_iff.mp (by exact hdue))]
    exact ⟨rfl, rfl, rfl⟩

/-- Settles O54: Commands and `TICK` change the mode only under the labels of R254 (`effectOf_modeLabelled`,
`tick_modeLabelled`), `RESET` enters Blank, and no other operation writes the mode. -/
theorem modeChangesOnlyByNamedCauses : Obligations.ModeChangesOnlyByNamedCauses := by
  intro i s t he hchanged
  obtain ⟨-, -, rfl⟩ := exec_eq_next.mp he
  rw [← State.start_dev i s] at hchanged
  by_cases hreset : i = .reset
  · subst hreset
    exact .inl rfl
  by_cases htick : ∃ now vol, i = .tick now vol
  · obtain ⟨now, vol, rfl⟩ := htick
    obtain ⟨e, hlabel, htrace⟩ := (tick_modeLabelled now vol (s.start (.tick now vol))).mode.resolve_left hchanged
    rw [effectOf]
    rcases mem_tickLabels hlabel with ⟨hmode, rfl⟩ | ⟨hmode, rfl⟩ <;> rw [hmode]
    · exact ⟨⟨now, vol, rfl⟩, htrace⟩
    · exact .inr (.inr (.inr htrace))
  cases hi : ingestsOrApplies i with
  | true =>
    obtain ⟨e, hlabel, htrace⟩ := (effectOf_modeLabelled hi (s.start i)).mode.resolve_left hchanged
    rcases mem_commandLabels hlabel with ⟨hmode, rfl⟩ | ⟨hmode, rfl | rfl⟩ <;> rw [hmode]
    · exact htrace
    · exact .inr (.inl htrace)
    · exact .inr (.inr (.inl htrace))
  | false =>
    exact absurd (effectOf_mode_of_not_tick hi hreset (fun now vol h => htick ⟨now, vol, h⟩) _) hchanged

/-- Settles O58: `stepN_passes`, on the state whose input list is empty already. -/
theorem stepsRunPassesInTurn : Obligations.StepsRunPassesInTurn := by
  intro s hin
  have hasks : s.withAsks [] [] = { s with io := { s.io with passes := [] } } := by rw [State.withAsks, ← hin]
  rw [← hasks]
  exact stepN_passes hin

/-- Settles O59: the bytes on time are all received under the mode sampled (`execAll_sample_rx`), the `TICK` keeps the
mode (`exec_tick_on_time`), and the `FLUSH` is that of O9 on what the `TICK` leaves. -/
theorem passCompletesAndFlushesLast : Obligations.PassCompletesAndFlushesLast := by
  intro p s hbs htime before
  have hbefore (k : Nat) : ∃ v, execAll (before k) s = .next v ∧ v.dev.matchplayMode = p.mp ∧ v.TimeOk p.now :=
    execAll_sample_rx p.mp hbs (OnTimeUntil.take htime k)
  refine ⟨fun k => ?_, ?_⟩
  · obtain ⟨v, hrun, hmode, -⟩ := hbefore k
    exact ⟨v, hrun, hmode⟩
  · obtain ⟨v, hrun, hmode, hnow⟩ := hbefore p.rx.length
    obtain ⟨u, htick, hkept, hclock⟩ := exec_tick_on_time p.vol hnow
    obtain ⟨t, hflush, hshown⟩ := flushOnlyWhenDirtyAndHunting u
    have hops : p.ops = before p.rx.length ++ [.tick p.now p.vol, .flush] := by
      simp only [before, List.take_length]
      rfl
    refine ⟨u, t, ?_, hkept.trans hmode, hclock, ?_, ?_⟩
    · rw [execAll_append, hrun, Step.bind_next, execAll_cons, htick]
      rfl
    · rw [runPass, hops, execAll_append, hrun, Step.bind_next, execAll_cons, htick, Step.bind_next, execAll_cons,
        hflush]
      rfl
    · split at hshown
      · next hdue =>
        obtain ⟨harch, hflushed, -⟩ := hshown
        rw [if_pos hdue]
        exact ⟨harch, hflushed⟩
      · next hheld =>
        obtain ⟨harch, hflushed, -⟩ := hshown
        rw [if_neg hheld]
        exact ⟨harch, hflushed⟩

end Sys2Proof.Machine
end
